-- ==== Sys2Proof/Word.lean ====
section
/-! DEFINITION. The word types of MV2-SD: 32-bit registers and addresses, 8-bit memory words (R6). -/

namespace Sys2Proof

/-- A register, a host address or a host data word: 32 bits (R6). -/
abbrev Word := BitVec 32

/-- The memory word: 8 bits (R6, R38). -/
abbrev Byte := BitVec 8

end Sys2Proof
end

