-- ==== Sys2Proof/Config.lean ====
section
/-! DEFINITION. What an instance of MV2-SD fixes (the three OPEN parameters of R6) and the free values the spec
calls draws (93_implementation_defined.md S1, S2, S3). A free value is an opaque constant: nothing can be proved
about which byte it is. -/

namespace Sys2Proof

/-- The three byte memories of R38. They are separate storage: no address of one is an address of another. -/
inductive Space where
  | skey
  | bkey
  | buf
deriving DecidableEq, Repr

/-- The implementation parameters of R6: the byte capacities of BUF, SKEY and BKEY. The spec gives bounds only
(`Params.wf`), so they are held in State, constant, and a statement about every state is about every instance. -/
structure Params where
  bufMax : Nat
  skMax  : Nat
  bkMax  : Nat
deriving DecidableEq, Repr

/-- The capacity in bytes of a memory (R38). -/
def Params.capacity (p : Params) : Space → Nat
  | .skey => p.skMax
  | .bkey => p.bkMax
  | .buf  => p.bufMax

/-- The smallest instance R6 allows. DESIGN CHOICE (log 1): `State.reset` is the reset state of this instance. -/
def Config.smallest : Params := ⟨16, 8, 4⟩

/-- FREE VALUE (S1, R45, R130; log 2): the byte a memory holds at an offset from power-on until it is written. -/
opaque Config.powerOnByte : Space → Nat → Byte

/-- FREE VALUE (S2, S3; log 3): the bytes drawn while the machine runs, one for each value of `State.draws`. -/
opaque Config.drawByte : Nat → Byte

end Sys2Proof
end

