-- ==== Sys2Proof/Syntax.lean ====
section
/-! DEFINITION. The instructions of MV2-SD: its five legal command words (R2, R53), one constructor per row of
spec/opcode_table.json. A command names no operand (R14, R52). -/

namespace Sys2Proof

/-- The five legal commands (R53, R54). -/
inductive Instr where
  /-- NOP, 0x00000000 (R71). -/
  | nop
  /-- XFORM.ENC, 0x00000001: the transform with sign +1 (R72). -/
  | xformEnc
  /-- XFORM.DEC, 0x00000011: the transform with sign −1 (R72). -/
  | xformDec
  /-- NORM, 0x00000002: normalization alone (R73). -/
  | norm
  /-- CHECK, 0x00000003: validation alone (R76). -/
  | check
deriving DecidableEq, Repr

end Sys2Proof
end

