-- ==== Sys2Proof/WellFormed.lean ====
section
/-! DEFINITION. Well-formedness. A command has no immediate field and no register field (R52), so no check on an
instruction's operands exists. What the spec does bound is the instance: the three parameters of R6. -/

namespace Sys2Proof

/-- Every instruction is well-formed: format C has no operand field (R52), and a reserved bit or a DIR bit that
must be 0 cannot be written in `Instr` at all. -/
def Instr.wf : Instr → Bool
  | .nop      => true
  | .xformEnc => true
  | .xformDec => true
  | .norm     => true
  | .check    => true

/-- The bounds of R6: 16 ≤ BUF_MAX ≤ 2^24, 8 ≤ SK_MAX ≤ 2^24 and 4 ≤ BK_MAX ≤ 2^24. -/
abbrev Params.wf (p : Params) : Prop :=
  (16 ≤ p.bufMax ∧ p.bufMax ≤ 2 ^ 24) ∧ (8 ≤ p.skMax ∧ p.skMax ≤ 2 ^ 24) ∧ (4 ≤ p.bkMax ∧ p.bkMax ≤ 2 ^ 24)

end Sys2Proof
end

