-- ==== Sys2Proof/Decode.lean ====
section
/-! DEFINITION. The command word (format C, R52): its fields, the total decoder (R53) and the encoder. -/

namespace Sys2Proof

/-- OP, bits 3:0 (R52). -/
def cmdOp (w : Word) : BitVec 4 := w.extractLsb' 0 4

/-- DIR, bit 4 (R52). -/
def cmdDir (w : Word) : BitVec 1 := w.extractLsb' 4 1

/-- RSV, bits 31:5 (R52). -/
def cmdRsv (w : Word) : BitVec 27 := w.extractLsb' 5 27

/-- Why a word is not legal: the three cases R53 names. -/
inductive IllegalWord where
  /-- A nonzero RSV field. -/
  | reservedBits
  /-- OP ≥ 0x4. -/
  | reservedOp
  /-- DIR = 1 with OP ≠ 0x1. -/
  | direction
deriving DecidableEq, Repr

/-- What a command word decodes to. -/
inductive Decoded where
  | legal (i : Instr)
  | illegal (why : IllegalWord)
deriving DecidableEq, Repr

/-- R53, R54: decode is total, and exactly five words are legal. -/
def decode (w : Word) : Decoded :=
  if cmdRsv w ≠ 0 then .illegal .reservedBits
  else if 4 ≤ (cmdOp w).toNat then .illegal .reservedOp
  else if cmdDir w = 1 ∧ cmdOp w ≠ 1 then .illegal .direction
  else if cmdOp w = 0 then .legal .nop
  else if cmdOp w = 1 then (if cmdDir w = 0 then .legal .xformEnc else .legal .xformDec)
  else if cmdOp w = 2 then .legal .norm
  else .legal .check

/-- A word of format C: the RSV, DIR and OP fields in their places (R52). -/
def packCommand (rsv : BitVec 27) (dir : BitVec 1) (op : BitVec 4) : Word := rsv ++ dir ++ op

/-- The command word of an instruction: OP and DIR as R54 maps them, RSV = 0. -/
def encode : Instr → Word
  | .nop      => packCommand 0 0 0
  | .xformEnc => packCommand 0 0 1
  | .xformDec => packCommand 0 1 1
  | .norm     => packCommand 0 0 2
  | .check    => packCommand 0 0 3

/-- The instruction the decoder reads from a row of the opcode table: a command is exactly one 32-bit word, written
to CMD as a word (R52), so the table's bit numbering is the word's own. Bits above `nbits` are 0. -/
def decodeTableWord (nbits w : Nat) : Option Instr :=
  if w % 2 ^ nbits < 2 ^ 32 then
    match decode (BitVec.ofNat 32 (w % 2 ^ nbits)) with
    | .legal i   => some i
    | .illegal _ => none
  else none

end Sys2Proof
end

