-- ==== Sys2Proof/Machine/State.lean ====
section
/-! DEFINITION. The state of MV2-SD (R13): the registers of the REG window (R16), the three byte memories (R38), the
engine's working registers (R32) and the model's refusal mark (R34), with the schedule of outside events, the port's
last response and the draw counter beside them. -/

namespace Sys2Proof.Machine

/-- E.phase (R32, R63). -/
inductive Phase where
  | idle
  | validate
  | normRun
  | alphaRun
  | mv2Run
  | finish
deriving DecidableEq, Repr

/-- E.op, the decoded operation (R32, R53). -/
inductive Op where
  | nop
  | xform
  | norm
  | check
  | illegal
deriving DecidableEq, Repr

/-- E.dir and the DIR bit: 0 = encode (sign +1), 1 = decode (sign −1) (R30, R52). -/
inductive Dir where
  | encode
  | decode
deriving DecidableEq, Repr

/-- The mode: ASCII iff the block-size key is empty (R29); STATUS.MODE shows it as 0 = ASCII, 1 = MV2 (R30). -/
inductive Mode where
  | ascii
  | mv2
deriving DecidableEq, Repr

/-- The error codes the block produces (R115). -/
inductive ErrorCode where
  | skEmpty
  | bkSymbol
  | truncatedBlock
  | illegalCommand
  | lengthRange
deriving DecidableEq, Repr

/-- STATUS, offset 0x0C, field by field (R22). Its reserved bits read 0 and ignore writes, so they hold nothing. -/
structure Status where
  /-- bit 0, RO: a command is executing. -/
  busy  : Bool
  /-- bit 1, RW1C: successful completion. -/
  done  : Bool
  /-- bit 2, RW1C: error completion. -/
  err   : Bool
  /-- bit 3, RO: the latched mode (R30). -/
  mode  : Mode
  /-- bits 7:4, RO: the error code (R115). -/
  ecode : BitVec 4
  /-- bit 8, RW1C, sticky: a host write was dropped (R134). -/
  haz   : Bool
deriving DecidableEq, Repr

/-- The engine's working registers, which the host cannot read or write (R32). -/
structure Engine where
  /-- E.phase: the sequencer's phase. -/
  phase : Phase
  /-- E.cmd: the accepted command word. -/
  cmd   : Word
  /-- E.op: the decoded operation. -/
  op    : Op
  /-- E.dir: the direction. -/
  dir   : Dir
  /-- E.mode: the latched mode. -/
  mode  : Mode
  /-- E.n: the byte cursor. -/
  n     : Word
  /-- E.p: the block cursor. -/
  p     : Word
  /-- E.kp: the shift-key pointer. -/
  kp    : Word
  /-- E.bp: the block-size-key pointer. -/
  bp    : Word
  /-- E.nblk: the block count validation computed. -/
  nblk  : Word
  /-- E.ecode: the pending error code, 0 for none. -/
  ecode : BitVec 4
  /-- E.einfo: the pending error info. -/
  einfo : Word
deriving DecidableEq, Repr

/-- A byte memory: the bytes written since power-on, as (offset, byte) pairs with strictly rising offsets
(`Memory.wf`). An offset that is not listed has not been written: it holds its power-on draw (R45; log 2). -/
abbrev Memory := List Host.Cell

/-- The twelve registers of the REG window (R16). -/
inductive Reg where
  | id
  | ctrl
  | cmd
  | status
  | size
  | skLen
  | bkLen
  | nblk
  | errinfo
  | bufMax
  | skMax
  | bkMax
deriving DecidableEq, Repr

/-- A host-port transaction (R37, R57): `R addr` or `W addr data`. -/
inductive HostTxn where
  | read (haddr : Word)
  | write (haddr hwdata : Word)
deriving DecidableEq, Repr

/-- HRESP, the kind of a response (R37). -/
inductive HResp where
  | okay
  | busErr
deriving DecidableEq, Repr

/-- The response to a transaction (R37): a READ answered OKAY with its HRDATA, a WRITE answered OKAY, or BUSERR.
`HostResp.hresp` and `HostResp.hrdata` are its two parts. -/
inductive HostResp where
  | readOkay (hrdata : Word)
  | writeOkay
  | busErr
deriving DecidableEq, Repr

/-- The three kinds of event of R11. -/
inductive Event where
  | host (t : HostTxn)
  | engine
  | reset
deriving DecidableEq, Repr

/-- Why the machine stops with a fault. -/
inductive Fault where
  /-- Raised by the FINISH step (`finishStep`) where E.ecode holds a reserved code 6 to 15, which is never produced
  (R115; 93_implementation_defined.md V2: "a model that produces one has a bug: fault"). Safe: the machine stops, and
  no state that meets `State.Inv` reaches it (log 9). -/
  | reservedErrorCode
deriving DecidableEq, Repr

/-- Why an instruction has no meaning. -/
inductive Refusal where
  /-- Raised by `exec` alone, for an instruction that is not modelled yet; no arm raises it now. Safe. -/
  | notModelled (mnemonic : String)
deriving DecidableEq, Repr

/-- The whole state (R13). -/
structure State where
  /-- BUF_MAX, SK_MAX and BK_MAX: constant registers (R28) and the capacities of the memories (R6). -/
  params  : Params
  /-- CTRL.IE, bit 0 of CTRL; its other bits are reserved (R20). -/
  ie      : Bool
  /-- STATUS (R22). -/
  status  : Status
  /-- SIZE (R23). -/
  size    : Word
  /-- SK_LEN (R24). -/
  skLen   : Word
  /-- BK_LEN (R25). -/
  bkLen   : Word
  /-- NBLK (R26). -/
  nblk    : Word
  /-- ERRINFO (R27). -/
  errinfo : Word
  /-- BUF: the buffer (R38). -/
  buf     : Memory
  /-- SKEY: the shift key (R38). -/
  skey    : Memory
  /-- BKEY: the block-size key (R38). -/
  bkey    : Memory
  /-- The engine's working registers (R32). -/
  eng     : Engine
  /-- The model-only refusal mark (R34; log 8). -/
  refused : Bool
  /-- MODEL'S OWN (log 4): the events still to come, oldest first; the head says which agent moves next (R11). -/
  inputs  : List Event
  /-- MODEL'S OWN (log 6): the response to the last host transaction (R37), none before the first. -/
  resp    : Option HostResp
  /-- MODEL'S OWN (log 3): how many free bytes have been drawn. -/
  draws   : Nat
deriving DecidableEq, Repr

/-- STATUS after reset: 0x00000000 (R129). -/
def Status.reset : Status :=
  { busy := false, done := false, err := false, mode := .ascii, ecode := 0, haz := false }

/-- The engine's working registers after reset (R32, R129). -/
def Engine.reset : Engine :=
  { phase := .idle, cmd := 0, op := .nop, dir := .encode, mode := .ascii, n := 0, p := 0, kp := 0, bp := 0,
    nblk := 0, ecode := 0, einfo := 0 }

/-- An instance with parameters `p` right after power-on and reset (R129): every register at its reset value and
every memory byte at its power-on draw (R130). -/
def State.powerOn (p : Params) : State :=
  { params := p, ie := false, status := Status.reset, size := 0, skLen := 0, bkLen := 0, nblk := 0, errinfo := 0,
    buf := [], skey := [], bkey := [], eng := Engine.reset, refused := false, inputs := [], resp := none, draws := 0 }

/-- The machine right after reset (R129), for the smallest instance of R6 (log 1). -/
def State.reset : State := State.powerOn Config.smallest

end Sys2Proof.Machine
end

