-- ==== Sys2Proof/Machine/Ops.lean ====
section
/-! DEFINITION. The shared operations: reading and writing the byte memories, the named updates of the state, command
acceptance (R61), and the error entry and the two completions that take the place of an exception and its return
(R74, R75, R119, R123). -/

namespace Sys2Proof.Machine

/-! ### The byte memories -/

/-- The canonical form of a memory: strictly rising offsets. No listed pair can equal what an unlisted offset reads
as, since an unlisted offset holds no written byte (log 2). -/
abbrev Memory.wf (m : Memory) : Prop := m.Pairwise (fun c d => c.1 < d.1)

/-- The byte written to offset `a` since power-on, if any. -/
def Memory.written : Memory → Nat → Option Byte
  | [], _ => none
  | (a', b) :: m, a => if a = a' then some b else Memory.written m a

/-- `S[a]` (R9): the byte written last, or else the power-on draw of that offset (R45). -/
def Memory.read (sp : Space) (m : Memory) (a : Nat) : Byte :=
  (Memory.written m a).getD (Config.powerOnByte sp a)

/-- `S[a] <- b` (R9). -/
def Memory.write : Memory → Nat → Byte → Memory
  | [], a, b => [(a, b)]
  | (a', b') :: m, a, b =>
    if a < a' then (a, b) :: (a', b') :: m
    else if a = a' then (a, b) :: m
    else (a', b') :: Memory.write m a b

/-- `MemRead(S, a, n)` (R9): n bytes from offset a as an 8n-bit unsigned integer, the lowest offset most significant
(R42). -/
def Memory.readBE (sp : Space) (m : Memory) (a : Nat) : Nat → Nat
  | 0 => 0
  | n + 1 => Memory.readBE sp m a n * 256 + (Memory.read sp m (a + n)).toNat

/-- `MemWrite(S, a, n, v)` (R9): the low 8n bits of v as n bytes, the most significant at offset a (R42). -/
def Memory.writeBE (m : Memory) (a : Nat) : Nat → Nat → Memory
  | 0, _ => m
  | n + 1, v => (Memory.writeBE m a n (v / 256)).write (a + n) (BitVec.ofNat 8 v)

/-- Every offset below `n` gets a fresh draw, the offset `a` the draw numbered `k + a` (R131; log 11). -/
def Memory.redraw (m : Memory) (n k : Nat) : Memory :=
  (List.range n).map (fun a => (a, Config.drawByte (k + a))) ++ m.filter (fun c => n ≤ c.1)

/-! ### The state's memories and named updates -/

/-- The memory of a space (R38). -/
def State.mem (s : State) : Space → Memory
  | .skey => s.skey
  | .bkey => s.bkey
  | .buf  => s.buf

/-- The state with the memory of one space replaced. -/
def State.setMem (s : State) (sp : Space) (m : Memory) : State :=
  match sp with
  | .skey => { s with skey := m }
  | .bkey => { s with bkey := m }
  | .buf  => { s with buf := m }

/-- `S[i]` of the state (R9). -/
def State.byte (s : State) (sp : Space) (i : Nat) : Byte := Memory.read sp (s.mem sp) i

/-- HRESP of a response (R37). -/
def HostResp.hresp : HostResp → HResp
  | .readOkay _ => .okay
  | .writeOkay  => .okay
  | .busErr     => .busErr

/-- HRDATA of a response (R37): the word of a READ answered OKAY, and 0 with BUSERR. R37 gives it no meaning for a WRITE
answered OKAY: none (log 7). -/
def HostResp.hrdata : HostResp → Option Word
  | .readOkay w => some w
  | .writeOkay  => none
  | .busErr     => some 0

/-- The port answers `r` (R37). -/
def State.respond (s : State) (r : HostResp) : State := { s with resp := some r }

/-- The schedule becomes `es`. -/
def State.withInputs (s : State) (es : List Event) : State := { s with inputs := es }

/-- A host write dropped while busy: nothing but the sticky HAZ bit changes (R17, R134). -/
def State.dropWrite (s : State) : State := { s with status := { s.status with haz := true } }

/-- An input the model gives no meaning to: the mark is set and nothing else changes (R34; log 8). -/
def State.markRefused (s : State) : State := { s with refused := true }

/-! ### Errors: entry and completion -/

/-- The 4-bit code of an error (R115). -/
def ErrorCode.code : ErrorCode → BitVec 4
  | .skEmpty        => 1
  | .bkSymbol       => 2
  | .truncatedBlock => 3
  | .illegalCommand => 4
  | .lengthRange    => 5

/-- Error entry (R119): the code and its info word are held in E.ecode and E.einfo, and FINISH comes next. -/
def State.pendError (s : State) (c : ErrorCode) (info : Word) : State :=
  { s with eng := { s.eng with ecode := c.code, einfo := info, phase := .finish } }

/-- FINISH on error (R75): ECODE, ERRINFO and ERR report the pending error, NBLK is 0, and the engine is idle. -/
def State.completeError (s : State) : State :=
  { s with
    status  := { s.status with ecode := s.eng.ecode, err := true, busy := false }
    errinfo := s.eng.einfo
    nblk    := 0
    eng     := { s.eng with phase := .idle } }

/-- FINISH on success (R74): NBLK gets the block count of an MV2-mode XFORM or CHECK and 0 otherwise; DONE is set and
the engine is idle. -/
def State.completeOk (s : State) : State :=
  { s with
    status := { s.status with done := true, busy := false }
    nblk   := if (s.eng.op = .xform ∨ s.eng.op = .check) ∧ s.eng.mode = .mv2 then s.eng.nblk else 0
    eng    := { s.eng with phase := .idle } }

/-- The FINISH step (R63): R74 where E.ecode = 0, R75 where it holds an error of R115; a reserved code is never
produced (93_implementation_defined.md V2; log 9). -/
def finishStep (s : State) : Host.Outcome State Fault Refusal :=
  if s.eng.ecode = 0 then .next s.completeOk
  else if s.eng.ecode.toNat ≤ 5 then .next s.completeError
  else .fault .reservedErrorCode

/-! ### Command acceptance -/

/-- The mode BK_LEN selects: ASCII iff the block-size key is empty (R29). -/
def State.derivedMode (s : State) : Mode := if s.bkLen = 0 then .ascii else .mv2

/-- The mode acceptance latches: derived for XFORM and CHECK, ASCII for NORM, `old` kept otherwise (R29, R30, R61). -/
def State.latchMode (s : State) (op : Op) (old : Mode) : Mode :=
  match op with
  | .xform   => s.derivedMode
  | .check   => s.derivedMode
  | .norm    => .ascii
  | .nop     => old
  | .illegal => old

/-- The phase a legal command starts in (R61). -/
def startPhase : Op → Phase
  | .nop     => .finish
  | .illegal => .finish
  | .xform   => .validate
  | .norm    => .validate
  | .check   => .validate

/-- R61 for the word `w`, decoded as `op` and `dir`, but for the pending error of an illegal word. HAZ is kept. -/
def State.accept (s : State) (w : Word) (op : Op) (dir : Dir) : State :=
  { s with
    status  := { s.status with
                 busy := true, done := false, err := false, ecode := 0, mode := s.latchMode op s.status.mode }
    nblk    := 0
    errinfo := 0
    eng     := { phase := startPhase op, cmd := w, op := op, dir := dir, mode := s.latchMode op s.eng.mode
                 n := 0, p := 0, kp := 0, bp := 0, nblk := 0, ecode := 0, einfo := 0 } }

/-- The host writes the word of a legal command to CMD: accepted while idle (R61), dropped while busy (R17, R21). -/
def State.submit (s : State) (w : Word) (op : Op) (dir : Dir) : State :=
  if s.status.busy then s.dropWrite else s.accept w op dir

/-- The host writes an illegal word to CMD: while idle it is accepted with ILLEGAL_COMMAND pending and the word as its
info (R61, R77); while busy it is dropped like any other word (R17). -/
def State.submitIllegal (s : State) (w : Word) : State :=
  if s.status.busy then s.dropWrite else (s.accept w .illegal .encode).pendError .illegalCommand w

/-- The operation and direction a command word decodes to, as E.op and E.dir hold them (R53). -/
def operationOf (w : Word) : Op × Dir :=
  match decode w with
  | .legal .nop      => (.nop, .encode)
  | .legal .xformEnc => (.xform, .encode)
  | .legal .xformDec => (.xform, .decode)
  | .legal .norm     => (.norm, .encode)
  | .legal .check    => (.check, .encode)
  | .illegal _       => (.illegal, .encode)

end Sys2Proof.Machine
end

