-- ==== Sys2Proof/Machine/Commands.lean ====
section
/-! DEFINITION. The meanings of the five commands. A command's meaning is the host's write of its word to CMD (R60): its
acceptance while idle (R61), dropped with HAZ while busy (R17, R21). The rest of its effect is the engine's, step by
step (R63, `engineStep`), since host steps and reset may fall between any two of those steps (R11; log 10). -/

namespace Sys2Proof.Machine

/-- NOP (R71): acceptance goes straight to FINISH; the next engine step completes it. -/
def execNop (s : State) : Host.Outcome State Fault Refusal :=
  .next (s.submit (encode .nop) .nop .encode)

/-- XFORM.ENC (R72), sign +1: VALIDATE, then one ALPHA step a byte (ASCII) or one BLOCK step a block (MV2), FINISH. -/
def execXformEnc (s : State) : Host.Outcome State Fault Refusal :=
  .next (s.submit (encode .xformEnc) .xform .encode)

/-- XFORM.DEC (R72), sign −1: as XFORM.ENC, with E.dir = 1. -/
def execXformDec (s : State) : Host.Outcome State Fault Refusal :=
  .next (s.submit (encode .xformDec) .xform .decode)

/-- NORM (R73): VALIDATE checks SIZE alone, then one NORM step a byte, FINISH. -/
def execNorm (s : State) : Host.Outcome State Fault Refusal :=
  .next (s.submit (encode .norm) .norm .encode)

/-- CHECK (R76): VALIDATE, then FINISH; nothing is written to BUF. -/
def execCheck (s : State) : Host.Outcome State Fault Refusal :=
  .next (s.submit (encode .check) .check .encode)

end Sys2Proof.Machine
end

