-- ==== Sys2Proof/Machine/Dispatch.lean ====
section
/-! DEFINITION. The meaning of every instruction, one arm each. -/

namespace Sys2Proof.Machine

def exec (i : Instr) (s : State) : Host.Outcome State Fault Refusal :=
  match i with
  | .nop => Sys2Proof.Machine.execNop s
  | .xformEnc => Sys2Proof.Machine.execXformEnc s
  | .xformDec => Sys2Proof.Machine.execXformDec s
  | .norm => Sys2Proof.Machine.execNorm s
  | .check => Sys2Proof.Machine.execCheck s

end Sys2Proof.Machine
end

