-- ==== Sys2Proof/Machine/Operands.lean ====
section
/-! DEFINITION. The operand formats the engine reads (R58) and the key-index wrap logic (R81 to R88): wrap counters, the
block-size mux (R103, R104), the shift word (R105), and the key schedule by the source's own modulo expressions. -/

namespace Sys2Proof.Machine

/-- The sign of a direction: +1 for encode, −1 for decode (R12, R96, R107). -/
def Dir.sgn : Dir → Int
  | .encode => 1
  | .decode => -1

/-- `wrap_inc(ptr, len)` (R81). -/
def wrapInc (ptr len : Word) : Word := if ptr + 1 = len then 0 else ptr + 1

/-- `wrap_inc` applied k times (R82). -/
def wrapIter (len : Word) : Nat → Word → Word
  | 0, ptr => ptr
  | k + 1, ptr => wrapInc (wrapIter len k ptr) len

/-- The block-size mux: the block length L of a block-size symbol, '1' to '4' being 0x31 to 0x34; no other symbol has
one (R103). -/
def blockLength (sym : Byte) : Option Nat :=
  if sym = 0x31 then some 1
  else if sym = 0x32 then some 2
  else if sym = 0x33 then some 3
  else if sym = 0x34 then some 4
  else none

/-- The byte-lane enables of a block length, lane 0 the least significant byte of the 32-bit datapath (R103). -/
def laneEnables (L : Nat) : BitVec 4 :=
  if L = 1 then 0b0001 else if L = 2 then 0b0011 else if L = 3 then 0b0111 else 0b1111

/-- The bits of the datapath that enabled lanes pass (R103, R108). -/
def laneMask (lanes : BitVec 4) : Word :=
  let lane (k : Nat) : Byte := if lanes.getLsbD k then 0xFF else 0x00
  lane 3 ++ lane 2 ++ lane 1 ++ lane 0

/-- The modulus of a block, M = 2^(8L) (R104). -/
def blockModulus (L : Nat) : Nat := 2 ^ (8 * L)

/-- The shift amount of an ASCII key symbol: symbol − 64 (R94). Every byte has one (R95). -/
def shiftAmount (sym : Byte) : Int := (sym.toNat : Int) - 64

/-- The shift word: four key bytes, the first most significant (R105). -/
def shiftWord (k0 k1 k2 k3 : Byte) : Word := k0 ++ k1 ++ k2 ++ k3

/-! ### Which bytes the engine may reach -/

/-- The L buffer bytes at the byte cursor are inside BUF[0 .. SIZE), and SIZE inside the memory (R38, R106). -/
def State.bufReady (s : State) (L : Nat) : Bool :=
  decide (s.eng.n.toNat + L ≤ s.size.toNat ∧ s.size.toNat ≤ s.params.bufMax)

/-- The shift-key pointer is inside a nonempty key that fits its memory (R38, R81). -/
def State.skeyReady (s : State) : Bool :=
  decide (s.eng.kp.toNat < s.skLen.toNat ∧ s.skLen.toNat ≤ s.params.skMax)

/-- The block-size-key pointer is inside a nonempty key that fits its memory (R38, R81). -/
def State.bkeyReady (s : State) : Bool :=
  decide (s.eng.bp.toNat < s.bkLen.toNat ∧ s.bkLen.toNat ≤ s.params.bkMax)

/-! ### The key schedule by the source's modulo expressions (R12, R82, R88) -/

/-- `shiftKey[i mod len(shiftKey)]` (R83, R105). -/
def State.keyByteAt (s : State) (i : Nat) : Byte := s.byte .skey (i % s.skLen.toNat)

/-- `blockSizeKey[p mod len(blockSizeKey)]` (R86). -/
def State.blockSymbolAt (s : State) (p : Nat) : Byte := s.byte .bkey (p % s.bkLen.toNat)

/-- L of block p, as the partition walk reads it: the symbol − 0x30 (R68, R103). -/
def State.blockLengthAt (s : State) (p : Nat) : Nat := (s.blockSymbolAt p).toNat - 0x30

/-- The offset of block p: the sum of the lengths of the blocks before it (R33, R112). -/
def State.blockStart (s : State) : Nat → Nat
  | 0 => 0
  | p + 1 => s.blockStart p + s.blockLengthAt p

/-- The shift word of block p: key bytes 4p to 4p+3, each index wrapped on its own (R105). -/
def State.shiftWordAt (s : State) (p : Nat) : Word :=
  shiftWord (s.keyByteAt (4 * p)) (s.keyByteAt (4 * p + 1)) (s.keyByteAt (4 * p + 2)) (s.keyByteAt (4 * p + 3))

end Sys2Proof.Machine
end

