-- ==== Sys2Proof/Machine/Flags.lean ====
section
/-! DEFINITION. The only flags of MV2-SD are the STATUS bits (R36): STATUS as a word, its write-one-to-clear bits, CTRL
as a word, and the interrupt output. -/

namespace Sys2Proof.Machine

/-- STATUS.MODE as a bit: 0 = ASCII, 1 = MV2 (R30). -/
def Mode.bit : Mode → Bool
  | .ascii => false
  | .mv2   => true

/-- STATUS as the host reads it (R22); bits 31:9 read 0. -/
def Status.word (st : Status) : Word :=
  (0 : BitVec 23) ++ BitVec.ofBool st.haz ++ st.ecode ++ BitVec.ofBool st.mode.bit ++ BitVec.ofBool st.err ++
    BitVec.ofBool st.done ++ BitVec.ofBool st.busy

/-- A write to STATUS: DONE (bit 1), ERR (bit 2) and HAZ (bit 8) are cleared by writing 1; every other bit of the
written word is ignored (R17, R22). -/
def Status.writeOneToClear (st : Status) (w : Word) : Status :=
  { st with
    done := st.done && !w.getLsbD 1
    err  := st.err && !w.getLsbD 2
    haz  := st.haz && !w.getLsbD 8 }

/-- CTRL as the host reads it: IE in bit 0, the reserved bits 0 (R20). -/
def ctrlWord (ie : Bool) : Word := (0 : BitVec 31) ++ BitVec.ofBool ie

/-- The interrupt output, a level: IE and (DONE or ERR) (R31, R122). -/
def State.irq (s : State) : Bool := s.ie && (s.status.done || s.status.err)

end Sys2Proof.Machine
end

