-- ==== Sys2Proof/Machine/Normalize.lean ====
section
/-! DEFINITION. The normalization stage: normalize (R89) and the NORM step (R93). -/

namespace Sys2Proof.Machine

/-- The canonical alphabetic form of a byte (R89). -/
def normalize (b : Byte) : Byte :=
  if b.toNat ≤ 64 then 0x20
  else if b.toNat ≤ 90 then b
  else if b.toNat ≤ 96 then 0x20
  else if b.toNat ≤ 122 then b - 32
  else if b.toNat ≤ 127 then 0x20
  else b

/-- The phase after a run step that moved the byte cursor to `n`: FINISH once it reaches SIZE (R93, R100, R111). -/
def State.phaseAfter (s : State) (n : Word) : Phase := if n = s.size then .finish else s.eng.phase

/-- The NORM step (R93): one byte normalized in place. A cursor outside the buffer has no meaning (log 8). -/
def normStep (s : State) : State :=
  if s.bufReady 1 then
    { s with
      buf := s.buf.write s.eng.n.toNat (normalize (s.byte .buf s.eng.n.toNat))
      eng := { s.eng with n := s.eng.n + 1, phase := s.phaseAfter (s.eng.n + 1) } }
  else s.markRefused

end Sys2Proof.Machine
end

