-- ==== Sys2Proof/Machine/Alphabetic.lean ====
section
/-! DEFINITION. The alphabetic-shift pipeline: the 26-letter cyclical adder (R96), its reference realisation (R97), the
space pass-through (R99) and the ALPHA step (R100). -/

namespace Sys2Proof.Machine

/-- The 26-letter cyclical adder: 65 + emod((c − 65) + sgn·s, 26) (R96). -/
def cyc (c : Byte) (s : Int) (dir : Dir) : Byte :=
  BitVec.ofNat 8 (65 + (((c.toNat : Int) - 65 + dir.sgn * s) % 26).toNat)

/-- The reference realisation of R97: two small reductions and one conditional correction. -/
def cycReference (c : Byte) (s : Int) (dir : Dir) : Byte :=
  let t := ((c.toNat : Int) - 65) % 26
  let u := s % 26
  let r := match dir with
    | .encode => t + u
    | .decode => t - u
  let r' := if 26 ≤ r then r - 26 else if r < 0 then r + 26 else r
  BitVec.ofNat 8 (65 + r'.toNat)

/-- What the pipeline makes of a normalized byte c under the key symbol sym: a space passes through (R99), any other
byte goes through the adder (R100). -/
def alphaByte (c sym : Byte) (dir : Dir) : Byte :=
  if c = 0x20 then 0x20 else cyc c (shiftAmount sym) dir

/-- The ALPHA step (R100): one byte normalized, then shifted; the key pointer advances on spaces too (R83). A cursor or
a pointer outside its operand has no meaning (log 8). -/
def alphaStep (s : State) : State :=
  if s.bufReady 1 && s.skeyReady then
    { s with
      buf := s.buf.write s.eng.n.toNat
        (alphaByte (normalize (s.byte .buf s.eng.n.toNat)) (s.byte .skey s.eng.kp.toNat) s.eng.dir)
      eng := { s.eng with
               kp := wrapInc s.eng.kp s.skLen, n := s.eng.n + 1, phase := s.phaseAfter (s.eng.n + 1) } }
  else s.markRefused

end Sys2Proof.Machine
end

