-- ==== Sys2Proof/Machine/ModularShift.lean ====
section
/-! DEFINITION. The modular-shift datapath (MV2): the variable-width adder (R107), its reference realisation (R108) and
the BLOCK step (R111). -/

namespace Sys2Proof.Machine

/-- The variable-width adder: emod(i + sgn·shift, 2^(8L)) (R107). -/
def blockAdd (L : Nat) (dir : Dir) (i : Nat) (shift : Word) : Nat :=
  (((i : Int) + dir.sgn * (shift.toNat : Int)) % (blockModulus L : Int)).toNat

/-- The reference realisation of R108: one 32-bit adder whose B operand is the shift word, or its complement with
carry-in 1, and whose sum the lane enables cut to the block's width. -/
def blockAddReference (L : Nat) (dir : Dir) (i : Nat) (shift : Word) : Nat :=
  let a : Word := BitVec.ofNat 32 i
  let sum : Word := match dir with
    | .encode => a + shift
    | .decode => a + ~~~shift + 1
  (sum &&& laneMask (laneEnables L)).toNat

/-- The BLOCK step for a block of length L (R111): four key bytes make the shift word, each access advancing the wrap
counter (R84); the block is read, shifted and written back (R106, R107, R110); the cursors advance. -/
def blockStepWith (s : State) (L : Nat) : State :=
  let kp1 := wrapInc s.eng.kp s.skLen
  let kp2 := wrapInc kp1 s.skLen
  let kp3 := wrapInc kp2 s.skLen
  let shift := shiftWord (s.byte .skey s.eng.kp.toNat) (s.byte .skey kp1.toNat) (s.byte .skey kp2.toNat)
    (s.byte .skey kp3.toNat)
  let i := Memory.readBE .buf s.buf s.eng.n.toNat L
  let n := s.eng.n + BitVec.ofNat 32 L
  { s with
    buf := s.buf.writeBE s.eng.n.toNat L (blockAdd L s.eng.dir i shift)
    eng := { s.eng with
             bp := wrapInc s.eng.bp s.bkLen, kp := wrapInc kp3 s.skLen, n := n, p := s.eng.p + 1
             phase := s.phaseAfter n } }

/-- The BLOCK step (R111). A symbol the mux has no length for, a block past SIZE, and a pointer outside its key have no
meaning (R103; 93_implementation_defined.md U1, U2, U8; log 8). -/
def blockStep (s : State) : State :=
  if s.bkeyReady && s.skeyReady then
    match blockLength (s.byte .bkey s.eng.bp.toNat) with
    | some L => if s.bufReady L then blockStepWith s L else s.markRefused
    | none => s.markRefused
  else s.markRefused

end Sys2Proof.Machine
end

