-- ==== Sys2Proof/Machine/Validate.lean ====
section
/-! DEFINITION. Validation, which DOC requires before any byte is changed: the four checks (R65 to R68) in their fixed
order (R70), and the VALIDATE step (R64). -/

namespace Sys2Proof.Machine

/-- The result of validation (R64): ok with a block count, or an error with its info word; `noMeaning` where R68's
`emod(p, BK_LEN)` would be taken with BK_LEN = 0 (93_implementation_defined.md U2; unreachable; log 8). -/
inductive Verdict where
  | ok (blocks : Nat)
  | err (c : ErrorCode) (info : Word)
  | noMeaning
deriving DecidableEq, Repr

/-- XFORM and CHECK read the keys; the other operations do not (R65, R66). -/
def Op.readsKeys : Op → Bool
  | .xform   => true
  | .check   => true
  | .nop     => false
  | .norm    => false
  | .illegal => false

/-- The mask `bad` of R65: bit 0 SIZE, bit 1 SK_LEN, bit 2 BK_LEN out of range. -/
def State.lengthMask (s : State) (op : Op) : BitVec 3 :=
  BitVec.ofBool (op.readsKeys && decide (s.params.bkMax < s.bkLen.toNat)) ++
    BitVec.ofBool (op.readsKeys && decide (s.params.skMax < s.skLen.toNat)) ++
    BitVec.ofBool (decide (s.params.bufMax < s.size.toNat))

/-- The lowest index of a block-size symbol that is not '1' to '4' (R67). -/
def State.firstBadSymbol (s : State) : Option Nat :=
  (List.range s.bkLen.toNat).find? (fun j => (blockLength (s.byte .bkey j)).isNone)

/-- The walk of R68 from offset n and block p: (n, p) where it ends. Each length is at least 1 once R67 has passed, so
SIZE rounds of fuel are enough. -/
def State.partitionWalk (s : State) : Nat → Nat → Nat → Nat × Nat
  | 0, n, p => (n, p)
  | fuel + 1, n, p =>
    if n < s.size.toNat then s.partitionWalk fuel (n + s.blockLengthAt p) (p + 1) else (n, p)

/-- The partition check (R68). -/
def State.partitionVerdict (s : State) : Verdict :=
  let (n, p) := s.partitionWalk s.size.toNat 0 0
  if s.size.toNat < n then .err .truncatedBlock (BitVec.ofNat 32 (p - 1)) else .ok p

/-- `validate(op, mode)` (R70): the first failing check wins. -/
def State.validate (s : State) (op : Op) (mode : Mode) : Verdict :=
  if s.lengthMask op ≠ 0 then .err .lengthRange ((s.lengthMask op).setWidth 32)
  else if op = .norm then .ok 0
  else if s.skLen = 0 then .err .skEmpty 0
  else if mode = .ascii then .ok 0
  else if s.bkLen = 0 ∧ s.size ≠ 0 then .noMeaning
  else match s.firstBadSymbol with
    | some j => .err .bkSymbol (BitVec.ofNat 32 j)
    | none => s.partitionVerdict

/-- The phase after a passing validation with k blocks (R64); NOP and an illegal word have no VALIDATE step. -/
def State.phaseValidated (s : State) (k : Nat) : Option Phase :=
  match s.eng.op with
  | .check   => some .finish
  | .norm    => some (if s.size = 0 then .finish else .normRun)
  | .xform   =>
    match s.eng.mode with
    | .ascii => some (if s.size = 0 then .finish else .alphaRun)
    | .mv2   => some (if k = 0 then .finish else .mv2Run)
  | .nop     => none
  | .illegal => none

/-- The VALIDATE step (R64). It writes no memory. DESIGN CHOICE (log 8): with E.op NOP or ILLEGAL, which no step brings
here and of which R64 says nothing, the error branch is taken where a check fails, and the mark is set where all pass. -/
def validateStep (s : State) : State :=
  match s.validate s.eng.op s.eng.mode with
  | .err c info => s.pendError c info
  | .ok k =>
    match s.phaseValidated k with
    | some ph => { s with eng := { s.eng with nblk := BitVec.ofNat 32 k, phase := ph } }
    | none => s.markRefused
  | .noMeaning => s.markRefused

end Sys2Proof.Machine
end

