-- ==== Sys2Proof/Machine/Engine.lean ====
section
/-! DEFINITION. The engine's sequencer (R63): one step, chosen by E.phase. -/

namespace Sys2Proof.Machine

/-- One engine step (R63). It is taken only while BUSY = 1 (`step`); a busy engine is never in phase IDLE, and one that
is has no meaning (log 8). -/
def engineStep (s : State) : Host.Outcome State Fault Refusal :=
  match s.eng.phase with
  | .idle     => .next s.markRefused
  | .validate => .next (validateStep s)
  | .normRun  => .next (normStep s)
  | .alphaRun => .next (alphaStep s)
  | .mv2Run   => .next (blockStep s)
  | .finish   => finishStep s

end Sys2Proof.Machine
end

