-- ==== Sys2Proof/Machine/HostPort.lean ====
section
/-! DEFINITION. The host port (R37): the address map (R39, R41), register and memory transactions (R17, R40), the busy
hazards (R46, R133), and the reset event (R128 to R131). -/

namespace Sys2Proof.Machine

/-! ### The address map -/

/-- The offset of a register in the REG window, which is also its host address (R16, R39). -/
def Reg.offset : Reg → Nat
  | .id      => 0x00
  | .ctrl    => 0x04
  | .cmd     => 0x08
  | .status  => 0x0C
  | .size    => 0x10
  | .skLen   => 0x14
  | .bkLen   => 0x18
  | .nblk    => 0x1C
  | .errinfo => 0x20
  | .bufMax  => 0x24
  | .skMax   => 0x28
  | .bkMax   => 0x2C

/-- Every register of the REG window (R16). -/
def allRegs : List Reg :=
  [.id, .ctrl, .cmd, .status, .size, .skLen, .bkLen, .nblk, .errinfo, .bufMax, .skMax, .bkMax]

/-- The base address of a memory window (R39). -/
def windowBase : Space → Nat
  | .skey => 0x01000000
  | .bkey => 0x02000000
  | .buf  => 0x03000000

/-- What a host address reaches (R39, R41). -/
inductive Target where
  | reg (r : Reg)
  | mem (sp : Space) (i : Nat)
  | busErr
deriving DecidableEq, Repr

/-- An offset of the REG window: misaligned and unassigned offsets get BUSERR (R41). -/
def regTarget (off : Nat) : Target :=
  if off % 4 ≠ 0 then .busErr
  else match allRegs.find? (fun r => r.offset = off) with
    | some r => .reg r
    | none => .busErr

/-- An offset of a memory window: offsets at or above the memory's size get BUSERR (R41). -/
def memTarget (p : Params) (sp : Space) (off : Nat) : Target :=
  if off < p.capacity sp then .mem sp off else .busErr

/-- The address map (R39); every address outside its windows gets BUSERR (R41). Each memory window is 2^24 bytes. -/
def decodeAddress (p : Params) (haddr : Word) : Target :=
  let a := haddr.toNat
  if a < 0x100 then regTarget a
  else if a < 0x01000000 then .busErr
  else if a < 0x02000000 then memTarget p .skey (a - windowBase .skey)
  else if a < 0x03000000 then memTarget p .bkey (a - windowBase .bkey)
  else if a < 0x04000000 then memTarget p .buf (a - windowBase .buf)
  else .busErr

/-- The host address of a register (R59). -/
def regAddress (r : Reg) : Word := BitVec.ofNat 32 r.offset

/-- The host address of a memory byte, base(SPACE) + i (R59). DESIGN CHOICE (log 17): R59 gives no expansion where the sum
does not fit the 32 bits of an address (R57); there the model takes the sum modulo 2^32. -/
def memAddress (sp : Space) (i : Nat) : Word := BitVec.ofNat 32 (windowBase sp + i)

/-! ### Register access -/

/-- The ID register's constant: "MV2" and interface version 1 (R19). -/
def idValue : Word := 0x4D563201

/-- What a register reads as (R16 to R28); register reads are exact, busy or not (R46). -/
def State.readReg (s : State) : Reg → Word
  | .id      => idValue
  | .ctrl    => ctrlWord s.ie
  | .cmd     => 0
  | .status  => s.status.word
  | .size    => s.size
  | .skLen   => s.skLen
  | .bkLen   => s.bkLen
  | .nblk    => s.nblk
  | .errinfo => s.errinfo
  | .bufMax  => BitVec.ofNat 32 s.params.bufMax
  | .skMax   => BitVec.ofNat 32 s.params.skMax
  | .bkMax   => BitVec.ofNat 32 s.params.bkMax

/-- A host write to a register other than CMD (R17): CTRL and STATUS always take effect, the three lengths are dropped
with HAZ while busy, and a write to an RO register is ignored. CMD holds nothing to write (R21): see `writeCmd`. -/
def State.writeReg (s : State) (r : Reg) (w : Word) : State :=
  match r with
  | .ctrl    => { s with ie := w.getLsbD 0 }
  | .status  => { s with status := s.status.writeOneToClear w }
  | .size    => if s.status.busy then s.dropWrite else { s with size := w }
  | .skLen   => if s.status.busy then s.dropWrite else { s with skLen := w }
  | .bkLen   => if s.status.busy then s.dropWrite else { s with bkLen := w }
  | .id      => s
  | .cmd     => s
  | .nblk    => s
  | .errinfo => s
  | .bufMax  => s
  | .skMax   => s
  | .bkMax   => s

/-- A host write of w to CMD (R21, R61): a legal word runs its instruction's meaning, any other word is R77's. -/
def writeCmd (w : Word) (s : State) : Host.Outcome State Fault Refusal :=
  match decode w with
  | .legal i => exec i s
  | .illegal _ => .next (s.submitIllegal w)

/-! ### Memory access -/

/-- A host WRITE to a memory byte: HWDATA[7:0] is stored while idle (R40), dropped with HAZ while busy (R46). -/
def State.storeByte (s : State) (sp : Space) (i : Nat) (hwdata : Word) : State :=
  if s.status.busy then s.dropWrite
  else s.setMem sp ((s.mem sp).write i (hwdata.setWidth 8))

/-- A host READ of a memory byte, with its response: exact while idle (R40); while busy HRDATA[7:0] is a fresh draw and
HRDATA[31:8] = 0 (R46; log 3). -/
def State.loadByte (s : State) (sp : Space) (i : Nat) : State :=
  if s.status.busy then
    { s with resp := some (.readOkay ((Config.drawByte s.draws).setWidth 32)), draws := s.draws + 1 }
  else s.respond (.readOkay ((s.byte sp i).setWidth 32))

/-! ### Transactions -/

/-- A host READ (R37, R40, R41). -/
def hostRead (haddr : Word) (s : State) : State :=
  match decodeAddress s.params haddr with
  | .reg r    => s.respond (.readOkay (s.readReg r))
  | .mem sp i => s.loadByte sp i
  | .busErr   => s.respond .busErr

/-- A host WRITE (R37, R40, R41). -/
def hostWrite (haddr hwdata : Word) (s : State) : Host.Outcome State Fault Refusal :=
  match decodeAddress s.params haddr with
  | .reg .cmd => writeCmd hwdata (s.respond .writeOkay)
  | .reg r    => .next ((s.respond .writeOkay).writeReg r hwdata)
  | .mem sp i => .next ((s.respond .writeOkay).storeByte sp i hwdata)
  | .busErr   => .next (s.respond .busErr)

/-- One host step: a transaction and its response, atomically (R11, R37). -/
def hostStep (t : HostTxn) (s : State) : Host.Outcome State Fault Refusal :=
  match t with
  | .read a    => .next (hostRead a s)
  | .write a d => hostWrite a d s

/-! ### Reset -/

/-- How many bytes of BUF a reset now leaves unspecified: BUF[0 .. S) where an XFORM or a NORM is busy, S being SIZE as
it was at acceptance, and no byte otherwise (R130, R131; log 11). -/
def State.abandonedBytes (s : State) : Nat :=
  if s.status.busy = true ∧ (s.eng.op = .xform ∨ s.eng.op = .norm) then min s.size.toNat s.params.bufMax else 0

/-- The reset event (R128, R129): every register takes its reset value; the memories are kept, but for the buffer bytes
of an abandoned command, which are drawn anew (R131); the refusal mark is never cleared (R34). -/
def resetEvent (s : State) : State :=
  { State.powerOn s.params with
    buf     := s.buf.redraw s.abandonedBytes s.draws
    skey    := s.skey
    bkey    := s.bkey
    refused := s.refused
    inputs  := s.inputs
    resp    := s.resp
    draws   := s.draws + s.abandonedBytes }

end Sys2Proof.Machine
end

