-- ==== Sys2Proof/Machine/Step.lean ====
section
/-! DEFINITION. One step of the machine (R11): the schedule's next event. -/

namespace Sys2Proof.Machine

/-- One step (R11): the event at the head of the schedule happens. An engine event is a step only while BUSY = 1 (R63)
and passes without effect otherwise. With no event left, a busy engine goes on (weak fairness, R137) and an idle block
waits for the host (R129) (log 4, log 5). -/
def step (s : State) : Host.Outcome State Fault Refusal :=
  match s.inputs with
  | [] => if s.status.busy then engineStep s else .next s
  | .engine :: es => if s.status.busy then engineStep (s.withInputs es) else .next (s.withInputs es)
  | .host t :: es => hostStep t (s.withInputs es)
  | .reset :: es => .next (resetEvent (s.withInputs es))

/-- The command word `w` is what the machine takes next: the next event is the host's WRITE of it to CMD (R60, R61). -/
def State.withFetchWord (s : State) (nbits w : Nat) : State :=
  s.withInputs (.host (.write (regAddress .cmd) (BitVec.ofNat 32 (w % 2 ^ nbits))) :: s.inputs)

end Sys2Proof.Machine
end

