-- ==== Sys2Proof/Machine/Run.lean ====
section
/-! DEFINITION. Runs of several steps, and the number of engine steps a command takes (R79, R138). -/

namespace Sys2Proof.Machine

/-- k steps of the machine, stopping at the first fault or refusal. -/
def steps : Nat → State → Host.Outcome State Fault Refusal
  | 0, s => .next s
  | k + 1, s =>
    match step s with
    | .next s'   => steps k s'
    | .fault r   => .fault r
    | .refused r => .refused r

/-- The run steps after a passing validation with k blocks (R79): one a byte for NORM and for XFORM in ASCII mode, one
a block for XFORM in MV2 mode, none for CHECK. -/
def State.runSteps (s : State) (op : Op) (mode : Mode) (k : Nat) : Nat :=
  match op with
  | .norm    => s.size.toNat
  | .xform   => match mode with
    | .ascii => s.size.toNat
    | .mv2   => k
  | .check   => 0
  | .nop     => 0
  | .illegal => 0

/-- The engine steps from the VALIDATE step to BUSY = 0 (R79). -/
def State.commandSteps (s : State) (op : Op) (mode : Mode) : Nat :=
  match s.validate op mode with
  | .ok k     => 2 + s.runSteps op mode k
  | .err _ _  => 2
  | .noMeaning => 0

/-- The engine steps left until BUSY = 0, read from the phase and the cursors (R63, R79). -/
def State.stepsLeft (s : State) : Nat :=
  match s.eng.phase with
  | .idle     => 0
  | .validate => s.commandSteps s.eng.op s.eng.mode
  | .normRun  => s.size.toNat - s.eng.n.toNat + 1
  | .alphaRun => s.size.toNat - s.eng.n.toNat + 1
  | .mv2Run   => s.eng.nblk.toNat - s.eng.p.toNat + 1
  | .finish   => 1

/-- The XFORM command of a direction (R12, R54). -/
def xformOf : Dir → Instr
  | .encode => .xformEnc
  | .decode => .xformDec

/-- The other direction. -/
def Dir.opposite : Dir → Dir
  | .encode => .decode
  | .decode => .encode

end Sys2Proof.Machine
end

