-- ==== Sys2Proof/Machine/Assembler.lean ====
section
/-! DEFINITION. The host assembly notation (R59, R60): statements, the transactions they expand to (R57), and how a host
issues an expansion to the machine, transaction after transaction, by the responses it gets. -/

namespace Sys2Proof.Machine

/-- A statement of the notation (R59, R60). -/
inductive Stmt where
  /-- `wr REG, v`. -/
  | wr (r : Reg) (v : Word)
  /-- `rd REG`. -/
  | rd (r : Reg)
  /-- `wrb SPACE[i], b`. -/
  | wrb (sp : Space) (i : Nat) (b : Byte)
  /-- `rdb SPACE[i]`. -/
  | rdb (sp : Space) (i : Nat)
  /-- `load SPACE, b0 b1 ... bk`. -/
  | load (sp : Space) (bytes : List Byte)
  /-- `load SPACE, "..."`: the string stands for its ASCII bytes (log 12). -/
  | loadText (sp : Space) (text : String)
  /-- `wait`. -/
  | wait
  /-- The command mnemonics `nop`, `xform.enc`, `xform.dec`, `norm` and `check`. -/
  | command (i : Instr)
  /-- `xform sign`. -/
  | xform (sign : Int)
deriving DecidableEq, Repr

/-- What a statement expands to: transactions issued once each, in order, or one READ repeated until a bit of its
response is 0 (R59, R60). -/
inductive Expansion where
  | once (txns : List HostTxn)
  | repeatUntilClear (haddr : Word) (bit : Nat)
deriving DecidableEq, Repr

/-- The writes of consecutive bytes from offset `i` on (R59, `load`). -/
def loadFrom (sp : Space) : Nat → List Byte → List HostTxn
  | _, [] => []
  | i, b :: bs => .write (memAddress sp i) (b.setWidth 32) :: loadFrom sp (i + 1) bs

/-- The ASCII bytes of a quoted string (R59); none where a character has no ASCII code (log 12). -/
def asciiBytes (text : String) : Option (List Byte) :=
  if text.toList.all (fun c => c.toNat < 128) then some (text.toList.map fun c => BitVec.ofNat 8 c.toNat) else none

/-- A command mnemonic: one write of its word to CMD (R60). -/
def commandTxn (i : Instr) : HostTxn := .write (regAddress .cmd) (encode i)

/-- The expansion of a statement; none for `xform` with a sign other than +1 and −1 (R60, R116;
93_implementation_defined.md U5), and none for a string that is not ASCII (log 12). DESIGN CHOICE (log 18): U5 says refuse
there, in the assembler; to have no expansion is the whole of that refusal, and it sets no `refused` mark in the machine.
DESIGN CHOICE (log 12): R59's `load` has at least one byte and gives no expansion of none; there, and for the empty
string, the model has no transaction. -/
def Stmt.assemble : Stmt → Option Expansion
  | .wr r v        => some (.once [.write (regAddress r) v])
  | .rd r          => some (.once [.read (regAddress r)])
  | .wrb sp i b    => some (.once [.write (memAddress sp i) (b.setWidth 32)])
  | .rdb sp i      => some (.once [.read (memAddress sp i)])
  | .load sp bs    => some (.once (loadFrom sp 0 bs))
  | .loadText sp t => (asciiBytes t).map fun bs => .once (loadFrom sp 0 bs)
  | .wait          => some (.repeatUntilClear (regAddress .status) 0)
  | .command i     => some (.once [commandTxn i])
  | .xform sign    =>
    if sign = 1 then some (.once [commandTxn .xformEnc])
    else if sign = -1 then some (.once [commandTxn .xformDec])
    else none

/-! ### Issuing an expansion -/

/-- Whether bit `bit` of a response's HRDATA is 0: the stop condition of `wait` (R59). A response without HRDATA, the one
to a WRITE, does not meet it (log 12). -/
def HostResp.bitClear (bit : Nat) (r : HostResp) : Bool :=
  match r.hrdata with
  | some w => !w.getLsbD bit
  | none   => false

/-- The transaction the host issues next, from the responses to those it issued before, oldest first; none where the
expansion has ended. A repeated READ ends once its last response has the bit 0 (R59). -/
def Expansion.next : Expansion → List HostResp → Option HostTxn
  | .once txns, rs => txns[rs.length]?
  | .repeatUntilClear a bit, rs =>
    match rs.getLast? with
    | some r => if r.bitClear bit then none else some (.read a)
    | none   => some (.read a)

/-- Where a host stands with an expansion: the machine's state, the responses so far, and whether it has ended. -/
structure HostRun where
  state     : State
  responses : List HostResp
  ended     : Bool
deriving DecidableEq, Repr

/-- The host issues an expansion to the machine. Before each transaction the events of one gap happen (R11): `gaps` holds
them in order, in place of the schedule, and the run ends with the expansion or with the last gap, whichever comes first
(log 12). -/
def Expansion.run (x : Expansion) : List (List Event) → List HostResp → State → Host.Outcome HostRun Fault Refusal
  | [], rs, s => .next ⟨s, rs, (x.next rs).isNone⟩
  | gap :: gaps, rs, s =>
    match x.next rs with
    | none => .next ⟨s, rs, true⟩
    | some txn =>
      match steps (gap.length + 1) (s.withInputs (gap ++ [.host txn])) with
      | .next t    => x.run gaps (rs ++ t.resp.toList) t
      | .fault r   => .fault r
      | .refused r => .refused r

end Sys2Proof.Machine
end

