-- ==== Sys2Proof/Safety.lean ====
section
/-! DEFINITION. What counts as a safe state and a safe run: the invariant the machine keeps (R22, R32, R33, R38, R115),
the part of the state the engine works on, and the part a command leaves alone. -/

namespace Sys2Proof.Machine

/-- A memory in canonical form that holds nothing beyond its capacity (R38). -/
def Memory.fits (m : Memory) (capacity : Nat) : Prop := m.wf ∧ ∀ c ∈ m, c.1 < capacity

/-- What a busy engine's working registers satisfy, phase by phase (R32, R33, R61, R64): the command word decodes to
E.op and E.dir, the mode is the one BK_LEN gives, and the cursors and pointers are those of the source's formulas. -/
def State.EngineOk (s : State) : Prop :=
  (s.eng.op, s.eng.dir) = operationOf s.eng.cmd ∧
  (s.eng.op.readsKeys = true → s.eng.mode = s.derivedMode ∧ s.status.mode = s.eng.mode) ∧
  (s.eng.op = .norm → s.eng.mode = .ascii ∧ s.status.mode = .ascii) ∧
  match s.eng.phase with
  | .idle => False
  | .validate =>
    (s.eng.op = .xform ∨ s.eng.op = .norm ∨ s.eng.op = .check) ∧ s.eng.ecode = 0 ∧
    s.eng.n = 0 ∧ s.eng.p = 0 ∧ s.eng.kp = 0 ∧ s.eng.bp = 0 ∧ s.eng.nblk = 0
  | .normRun =>
    s.eng.op = .norm ∧ s.eng.ecode = 0 ∧ s.validate .norm .ascii = .ok s.eng.nblk.toNat ∧
    s.eng.n.toNat < s.size.toNat
  | .alphaRun =>
    s.eng.op = .xform ∧ s.eng.mode = .ascii ∧ s.eng.ecode = 0 ∧ s.validate .xform .ascii = .ok s.eng.nblk.toNat ∧
    s.eng.n.toNat < s.size.toNat ∧ s.eng.kp.toNat = s.eng.n.toNat % s.skLen.toNat
  | .mv2Run =>
    s.eng.op = .xform ∧ s.eng.mode = .mv2 ∧ s.eng.ecode = 0 ∧ s.validate .xform .mv2 = .ok s.eng.nblk.toNat ∧
    s.eng.p.toNat < s.eng.nblk.toNat ∧ s.eng.n.toNat = s.blockStart s.eng.p.toNat ∧
    s.eng.kp.toNat = 4 * s.eng.p.toNat % s.skLen.toNat ∧ s.eng.bp.toNat = s.eng.p.toNat % s.bkLen.toNat
  | .finish =>
    (s.eng.ecode = 0 ∧ (s.eng.op = .nop ∨
      (s.eng.op ≠ .illegal ∧ s.validate s.eng.op s.eng.mode = .ok s.eng.nblk.toNat))) ∨
    (s.eng.op = .illegal ∧ s.eng.ecode = ErrorCode.illegalCommand.code ∧ s.eng.einfo = s.eng.cmd) ∨
    (s.eng.op ≠ .nop ∧ s.eng.op ≠ .illegal ∧
      ∃ c, s.eng.ecode = ErrorCode.code c ∧ s.validate s.eng.op s.eng.mode = .err c s.eng.einfo)

/-- The invariant: it holds right after power-on, and every step keeps it. -/
structure State.Inv (s : State) : Prop where
  /-- The instance is one R6 allows. -/
  params_wf : s.params.wf
  buf_fits  : s.buf.fits s.params.bufMax
  skey_fits : s.skey.fits s.params.skMax
  bkey_fits : s.bkey.fits s.params.bkMax
  /-- ECODE values 6 to 15 are never produced (R115). -/
  ecode_le  : s.status.ecode.toNat ≤ 5
  /-- DONE and ERR are never both 1 (R22). -/
  done_err  : ¬ (s.status.done = true ∧ s.status.err = true)
  /-- ECODE reads 0 after a successful completion (R115). -/
  done_ecode : s.status.done = true → s.status.ecode = 0
  /-- The engine is busy exactly when it is in a phase other than IDLE (R63). -/
  busy_iff  : s.status.busy = true ↔ s.eng.phase ≠ .idle
  /-- While BUSY = 1, DONE = ERR = 0 and ECODE = NBLK = ERRINFO = 0 (R22, R61). -/
  busy_clear : s.status.busy = true →
    s.status.done = false ∧ s.status.err = false ∧ s.status.ecode = 0 ∧ s.nblk = 0 ∧ s.errinfo = 0
  /-- A busy engine's registers are consistent (R33). -/
  engine_ok : s.status.busy = true → s.EngineOk

/-- A safe state: the invariant holds and no input without meaning has been met (R34). -/
def State.Safe (s : State) : Prop := s.Inv ∧ s.refused = false

/-- A safe run: k steps end in a next state that is safe. -/
def SafeRun (k : Nat) (s : State) : Prop := ∃ t, steps k s = .next t ∧ t.Safe

/-- What the engine works on: everything but CTRL.IE, HAZ, the schedule, the port's response and the draw counter, which
only the host's transactions touch while the block is busy (R17, R46, R133). -/
def State.engineView (s : State) : State :=
  { s with ie := false, status := { s.status with haz := false }, inputs := [], resp := none, draws := 0 }

/-- What a command leaves alone (R38, R50, R120): the parameters, CTRL, the length registers, both key memories and HAZ,
and the model's own fields. -/
def State.Untouched (s u : State) : Prop :=
  u.params = s.params ∧ u.ie = s.ie ∧ u.size = s.size ∧ u.skLen = s.skLen ∧ u.bkLen = s.bkLen ∧
  u.skey = s.skey ∧ u.bkey = s.bkey ∧ u.status.haz = s.status.haz ∧
  u.refused = s.refused ∧ u.inputs = s.inputs ∧ u.resp = s.resp ∧ u.draws = s.draws

/-- The block is idle and no event is scheduled: the state in which a command is given and left to run alone. -/
def State.Ready (s : State) : Prop := s.status.busy = false ∧ s.inputs = []

end Sys2Proof.Machine
end

