-- ==== Sys2Proof/Certificates/Slice0/Obligations.lean ====
section
/-! DEFINITION. The statements for the provers, from the numbered rules of spec/. -/

open Sys2Proof Sys2Proof.Machine

/-! ### Encoding -/

/-- R53, word for word: what each of the 2^32 command words decodes to, operation and direction. A word with RSV ≠ 0, with
OP ≥ 4, or with DIR = 1 and OP ≠ 1 is illegal, and an illegal word written while idle completes with ILLEGAL_COMMAND.
The schedule is the model's (log 4). -/
def Obligations.DecodeOfEveryWord : Prop :=
  (∀ w : Word, operationOf w =
    if w = 0x00000000 then (.nop, .encode)
    else if w = 0x00000001 then (.xform, .encode)
    else if w = 0x00000011 then (.xform, .decode)
    else if w = 0x00000002 then (.norm, .encode)
    else if w = 0x00000003 then (.check, .encode)
    else (.illegal, .encode)) ∧
  (∀ w : Word, cmdRsv w ≠ 0 ∨ 4 ≤ (cmdOp w).toNat ∨ (cmdDir w = 1 ∧ cmdOp w ≠ 1) →
    operationOf w = (.illegal, .encode)) ∧
  (∀ (s : State) (w : Word), s.Ready → operationOf w = (.illegal, .encode) →
    ∃ t u, writeCmd w s = .next t ∧ steps 1 t = .next u ∧ u.status.busy = false ∧ u.status.err = true ∧
      u.status.ecode = ErrorCode.illegalCommand.code)

/-- R53: a word decodes to an instruction exactly when it is that instruction's encoding, so exactly five words are
legal; and a word is illegal exactly when RSV ≠ 0, or OP ≥ 4, or DIR = 1 with OP ≠ 1. -/
def Obligations.DecodeAgreesWithEncode : Prop :=
  (∀ (w : Word) (i : Instr), decode w = .legal i ↔ w = encode i) ∧
  (∀ w : Word, (∃ why, decode w = .illegal why) ↔
    cmdRsv w ≠ 0 ∨ 4 ≤ (cmdOp w).toNat ∨ (cmdDir w = 1 ∧ cmdOp w ≠ 1))

/-- R52: the fields of format C: RSV in bits 31:5, DIR in bit 4, OP in bits 3:0, and nothing else in the word. -/
def Obligations.CommandWordFields : Prop :=
  (∀ (rsv : BitVec 27) (dir : BitVec 1) (op : BitVec 4),
    cmdRsv (packCommand rsv dir op) = rsv ∧ cmdDir (packCommand rsv dir op) = dir ∧
    cmdOp (packCommand rsv dir op) = op) ∧
  (∀ w : Word, packCommand (cmdRsv w) (cmdDir w) (cmdOp w) = w) ∧
  (∀ w : Word, w.toNat = (cmdRsv w).toNat * 32 + (cmdDir w).toNat * 16 + (cmdOp w).toNat)

/-- Sanity: words written out from the rows of the opcode table and of R53 decode as the spec lists them. -/
def Obligations.TableWordsDecode : Prop :=
  decode 0x00000000 = .legal .nop ∧ decode 0x00000001 = .legal .xformEnc ∧ decode 0x00000011 = .legal .xformDec ∧
  decode 0x00000002 = .legal .norm ∧ decode 0x00000003 = .legal .check ∧
  decode 0x00000004 = .illegal .reservedOp ∧ decode 0x00000010 = .illegal .direction ∧
  decode 0x00000021 = .illegal .reservedBits

/-- R59, R60: the assembly notation: each statement's expansion. Each command mnemonic is one write of its word to
CMD at address 8; `xform` with a sign other than +1 and −1 has no expansion; `wr` and `rd` go to the register's offset of
R16; `wrb` and `rdb` go to a byte of each of the three memories; `load` writes consecutive bytes from offset 0, and with
a quoted string the codes of its characters; `wait` is a READ of STATUS repeated until bit 0 of the response is 0.
Where base + i does not fit an address the model wraps it (log 17). That a string stands for its characters' codes is
presumed, that one with a character above 127 has no expansion and that a `load` of no byte is no transaction are the
model's choices (log 12). -/
def Obligations.AssemblyNotationExpands : Prop :=
  (Stmt.command .nop).assemble = some (.once [.write 0x00000008 0x00000000]) ∧
  (Stmt.command .xformEnc).assemble = some (.once [.write 0x00000008 0x00000001]) ∧
  (Stmt.command .xformDec).assemble = some (.once [.write 0x00000008 0x00000011]) ∧
  (Stmt.command .norm).assemble = some (.once [.write 0x00000008 0x00000002]) ∧
  (Stmt.command .check).assemble = some (.once [.write 0x00000008 0x00000003]) ∧
  (∀ sign : Int, (Stmt.xform sign).assemble =
    if sign = 1 then (Stmt.command .xformEnc).assemble
    else if sign = -1 then (Stmt.command .xformDec).assemble
    else none) ∧
  (∀ q ∈ ([(.id, 0x00000000), (.ctrl, 0x00000004), (.cmd, 0x00000008), (.status, 0x0000000C), (.size, 0x00000010),
      (.skLen, 0x00000014), (.bkLen, 0x00000018), (.nblk, 0x0000001C), (.errinfo, 0x00000020), (.bufMax, 0x00000024),
      (.skMax, 0x00000028), (.bkMax, 0x0000002C)] : List (Reg × Word)),
    (∀ v : Word, (Stmt.wr q.1 v).assemble = some (.once [.write q.2 v])) ∧
    (Stmt.rd q.1).assemble = some (.once [.read q.2])) ∧
  (∀ q ∈ ([(.skey, 0x01000000), (.bkey, 0x02000000), (.buf, 0x03000000)] : List (Space × Nat)),
    (∀ (i : Nat) (b : Byte),
      (Stmt.wrb q.1 i b).assemble = some (.once [.write (BitVec.ofNat 32 (q.2 + i)) (b.setWidth 32)]) ∧
      (Stmt.rdb q.1 i).assemble = some (.once [.read (BitVec.ofNat 32 (q.2 + i))])) ∧
    (∀ bs : List Byte, ∃ txns, (Stmt.load q.1 bs).assemble = some (.once txns) ∧ txns.length = bs.length ∧
      ∀ (k : Nat) (h : k < bs.length),
        txns[k]? = some (.write (BitVec.ofNat 32 (q.2 + k)) (bs[k].setWidth 32)))) ∧
  (∀ (sp : Space) (text : String), (∀ c ∈ text.toList, c.toNat < 128) →
    (Stmt.loadText sp text).assemble = (Stmt.load sp (text.toList.map fun c => BitVec.ofNat 8 c.toNat)).assemble) ∧
  (∀ (sp : Space) (text : String), (∃ c ∈ text.toList, 128 ≤ c.toNat) → (Stmt.loadText sp text).assemble = none) ∧
  Stmt.wait.assemble = some (.repeatUntilClear 0x0000000C 0)

/-! ### Acceptance -/

/-- A step runs its event, and so the decoded instruction. When the next event is a write of a word to CMD (address 8)
that decodes to `i`, the step is `exec i` on the state with that event taken and the response OKAY given; an illegal word
is submitted as one. When it is any host transaction, the step is that transaction's (R11, R37). While BUSY = 1 an engine
event is the engine's step, and so is a step with no event left (R63, R137).
The schedule is the model's (log 4). The field `resp` is the model's (log 6). -/
def Obligations.StepRunsDecodedCommand : Prop :=
  (∀ (s : State) (w : Word) (es : List Event), s.inputs = .host (.write 0x00000008 w) :: es →
    (∀ i, decode w = .legal i → step s = exec i { s with inputs := es, resp := some .writeOkay }) ∧
    (∀ why, decode w = .illegal why →
      step s = .next (State.submitIllegal { s with inputs := es, resp := some .writeOkay } w))) ∧
  (∀ (s : State) (x : HostTxn) (es : List Event), s.inputs = .host x :: es →
    step s = hostStep x { s with inputs := es }) ∧
  (∀ (s : State) (es : List Event), s.status.busy = true → s.inputs = .engine :: es →
    step s = engineStep { s with inputs := es }) ∧
  (∀ s : State, s.status.busy = true → s.inputs = [] → step s = engineStep s)

/-- R61: a WRITE of any word to CMD (address 8). While BUSY = 0 it is accepted, field by field, with the response OKAY;
HAZ, the lengths, the memories and every other field are kept. While BUSY = 1 it is dropped and sets HAZ. The meaning
`exec` gives an instruction is the acceptance of its word.
The field `resp` is the model's (log 6). That `exec` is the acceptance is the model's choice (log 10). -/
def Obligations.CommandAcceptance : Prop :=
  (∀ (s : State) (w : Word), s.status.busy = false →
    hostStep (.write 0x00000008 w) s = .next
      { s with
        resp := some .writeOkay
        status :=
          { busy := true, done := false, err := false
            mode :=
              if (operationOf w).1 = .xform ∨ (operationOf w).1 = .check then
                (if s.bkLen = 0 then .ascii else .mv2)
              else if (operationOf w).1 = .norm then .ascii
              else s.status.mode
            ecode := 0, haz := s.status.haz }
        nblk := 0
        errinfo := 0
        eng :=
          { phase := if (operationOf w).1 = .nop ∨ (operationOf w).1 = .illegal then .finish else .validate
            cmd := w, op := (operationOf w).1, dir := (operationOf w).2
            mode :=
              if (operationOf w).1 = .xform ∨ (operationOf w).1 = .check then
                (if s.bkLen = 0 then .ascii else .mv2)
              else if (operationOf w).1 = .norm then .ascii
              else s.eng.mode
            n := 0, p := 0, kp := 0, bp := 0, nblk := 0
            ecode := if (operationOf w).1 = .illegal then 4 else 0
            einfo := if (operationOf w).1 = .illegal then w else 0 } }) ∧
  (∀ (s : State) (w : Word), s.status.busy = true →
    hostStep (.write 0x00000008 w) s =
      .next { s with resp := some .writeOkay, status := { s.status with haz := true } }) ∧
  (∀ (s : State) (i : Instr),
    hostStep (.write 0x00000008 (encode i)) s = exec i { s with resp := some .writeOkay })

/-- R17, R21: while BUSY = 1 a write of any word to CMD is dropped: no command is accepted, and nothing but HAZ
changes. -/
def Obligations.CommandDroppedWhileBusy : Prop :=
  ∀ s : State, s.status.busy = true →
    (∀ i : Instr, exec i s = .next { s with status := { s.status with haz := true } }) ∧
    (∀ w : Word, writeCmd w s = .next { s with status := { s.status with haz := true } })

/-! ### Whole commands, from acceptance to BUSY = 0 with no other event -/

/-- R71: NOP is accepted and completes after one engine step; the whole state after it. `irq` follows IE.
The schedule is the model's (log 4). -/
def Obligations.NopCompletes : Prop :=
  ∀ s : State, s.Ready → ∃ t u, exec .nop s = .next t ∧ t.status.busy = true ∧ steps 1 t = .next u ∧
    u = { s with
          status := { busy := false, done := true, err := false, mode := s.status.mode, ecode := 0
                      haz := s.status.haz }
          nblk := 0, errinfo := 0
          eng := { phase := .idle, cmd := 0x00000000, op := .nop, dir := .encode, mode := s.eng.mode, n := 0, p := 0
                   kp := 0, bp := 0, nblk := 0, ecode := 0, einfo := 0 } } ∧
    u.irq = s.ie

/-- R77: an illegal word is accepted and completes with ILLEGAL_COMMAND after one engine step: ERR = 1, ECODE = 4,
ERRINFO = the word, MODE unchanged, no memory touched.
The schedule is the model's (log 4). -/
def Obligations.IllegalWordCompletes : Prop :=
  ∀ (s : State) (w : Word), s.Ready → (∀ i, w ≠ encode i) →
    ∃ t u, writeCmd w s = .next t ∧ t.status.busy = true ∧ steps 1 t = .next u ∧
      u = { s with
            status := { busy := false, done := false, err := true, mode := s.status.mode, ecode := 4
                        haz := s.status.haz }
            nblk := 0, errinfo := w
            eng := { phase := .idle, cmd := w, op := .illegal, dir := .encode, mode := s.eng.mode, n := 0, p := 0
                     kp := 0, bp := 0, nblk := 0, ecode := 4, einfo := w } } ∧
      u.irq = s.ie

/-- R73, R79: NORM with SIZE ≤ BUF_MAX completes after 2 + SIZE engine steps with DONE = 1, MODE = 0, NBLK = 0; the
byte at each offset below SIZE is normalized and every other byte of BUF is as before. The keys are not consulted.
The schedule is the model's (log 4). -/
def Obligations.NormCompletes : Prop :=
  ∀ s : State, s.Ready → s.size.toNat ≤ s.params.bufMax →
    ∃ t u, exec .norm s = .next t ∧ t.status.busy = true ∧ steps (2 + s.size.toNat) t = .next u ∧
      u.status = { busy := false, done := true, err := false, mode := .ascii, ecode := 0, haz := s.status.haz } ∧
      u.nblk = 0 ∧ u.errinfo = 0 ∧ s.Untouched u ∧
      u.eng = { phase := .idle, cmd := 0x00000002, op := .norm, dir := .encode, mode := .ascii, n := s.size, p := 0
                kp := 0, bp := 0, nblk := 0, ecode := 0, einfo := 0 } ∧
      ∀ a, u.byte .buf a = if a < s.size.toNat then normalize (s.byte .buf a) else s.byte .buf a

/-- R72, R100, R101, R79: XFORM in ASCII mode (BK_LEN = 0, 1 ≤ SK_LEN ≤ SK_MAX, SIZE ≤ BUF_MAX), in either direction,
completes after 2 + SIZE engine steps with DONE = 1, MODE = 0, NBLK = 0. Position n gets a space where its normalized
byte is a space, and otherwise 65 + emod((c − 65) + sgn·s, 26) with s = SKEY[emod(n, SK_LEN)] − 64.
The schedule is the model's (log 4). -/
def Obligations.AsciiTransformCompletes : Prop :=
  ∀ (s : State) (d : Dir), s.Ready → s.bkLen = 0 → s.size.toNat ≤ s.params.bufMax →
    1 ≤ s.skLen.toNat → s.skLen.toNat ≤ s.params.skMax →
    ∃ t u, exec (xformOf d) s = .next t ∧ t.status.busy = true ∧ steps (2 + s.size.toNat) t = .next u ∧
      u.status = { busy := false, done := true, err := false, mode := .ascii, ecode := 0, haz := s.status.haz } ∧
      u.nblk = 0 ∧ u.errinfo = 0 ∧ s.Untouched u ∧
      u.eng = { phase := .idle, cmd := encode (xformOf d), op := .xform, dir := d, mode := .ascii, n := s.size, p := 0
                kp := u.eng.kp, bp := 0, nblk := 0, ecode := 0, einfo := 0 } ∧
      u.eng.kp.toNat = s.size.toNat % s.skLen.toNat ∧
      (∀ a, s.size.toNat ≤ a → u.byte .buf a = s.byte .buf a) ∧
      (∀ a, a < s.size.toNat →
        (normalize (s.byte .buf a) = 0x20 → u.byte .buf a = 0x20) ∧
        (normalize (s.byte .buf a) ≠ 0x20 →
          ((u.byte .buf a).toNat : Int) =
            65 + (((normalize (s.byte .buf a)).toNat : Int) - 65 +
              d.sgn * (((s.byte .skey (a % s.skLen.toNat)).toNat : Int) - 64)) % 26))

/-- R72, R105 to R112, R79: XFORM in MV2 mode (BK_LEN ≠ 0) whose validation gives k blocks completes, in either
direction, after 2 + k engine steps with DONE = 1, MODE = 1, NBLK = k. Block p lies at the sum of the lengths before
it, and its big-endian value i becomes emod(i + sgn·shift, 2^(8L)), shift being the four key bytes 4p to 4p+3, each
index wrapped by itself; the blocks cover BUF[0 .. SIZE) exactly and every byte from SIZE on is as before.
The schedule is the model's (log 4). -/
def Obligations.Mv2TransformCompletes : Prop :=
  ∀ (s : State) (d : Dir) (k : Nat), s.Ready → s.bkLen ≠ 0 → s.validate .xform .mv2 = .ok k →
    ∃ t u, exec (xformOf d) s = .next t ∧ t.status.busy = true ∧ steps (2 + k) t = .next u ∧
      u.status = { busy := false, done := true, err := false, mode := .mv2, ecode := 0, haz := s.status.haz } ∧
      u.nblk.toNat = k ∧ u.errinfo = 0 ∧ s.Untouched u ∧
      u.eng = { phase := .idle, cmd := encode (xformOf d), op := .xform, dir := d, mode := .mv2, n := s.size
                p := u.nblk, kp := u.eng.kp, bp := u.eng.bp, nblk := u.nblk, ecode := 0, einfo := 0 } ∧
      u.eng.kp.toNat = 4 * k % s.skLen.toNat ∧ u.eng.bp.toNat = k % s.bkLen.toNat ∧
      s.blockStart k = s.size.toNat ∧
      (∀ a, s.size.toNat ≤ a → u.byte .buf a = s.byte .buf a) ∧
      (∀ p, p < k → (1 ≤ s.blockLengthAt p ∧ s.blockLengthAt p ≤ 4) ∧
        (Memory.readBE .buf u.buf (s.blockStart p) (s.blockLengthAt p) : Int) =
          ((Memory.readBE .buf s.buf (s.blockStart p) (s.blockLengthAt p) : Int) +
            d.sgn * ((s.shiftWordAt p).toNat : Int)) % (2 ^ (8 * s.blockLengthAt p) : Int))

/-- R76: CHECK completes after 2 engine steps with the block count of validation in NBLK (0 in ASCII mode), and
writes no byte of any memory.
The schedule is the model's (log 4). -/
def Obligations.CheckCompletes : Prop :=
  ∀ (s : State) (k : Nat), s.Ready → s.validate .check s.derivedMode = .ok k →
    ∃ t u, exec .check s = .next t ∧ t.status.busy = true ∧ steps 2 t = .next u ∧
      u.status = { busy := false, done := true, err := false, mode := s.derivedMode, ecode := 0
                   haz := s.status.haz } ∧
      u.nblk.toNat = k ∧ (s.bkLen = 0 → u.nblk = 0) ∧ u.errinfo = 0 ∧ s.Untouched u ∧ u.buf = s.buf ∧
      u.eng = { phase := .idle, cmd := 0x00000003, op := .check, dir := .encode, mode := s.derivedMode, n := 0, p := 0
                kp := 0, bp := 0, nblk := u.nblk, ecode := 0, einfo := 0 }

/-- R75, R119, R120: where validation fails, XFORM in either direction, CHECK and NORM end after 2 engine steps with
ERR = 1, the error's ECODE and info word, NBLK = 0, and BUF, SKEY and BKEY unchanged: all or nothing.
The schedule is the model's (log 4).
The spec marks this as its own derivation: R120 from R61, R64 and R75. -/
def Obligations.FailedValidationLeavesMemoriesUnchanged : Prop :=
  ∀ (s : State) (i : Instr) (c : ErrorCode) (info : Word), s.Ready →
    ((i = .xformEnc ∨ i = .xformDec ∨ i = .check) ∧ s.validate .xform s.derivedMode = .err c info ∨
      i = .norm ∧ s.validate .norm .ascii = .err c info) →
    ∃ t u, exec i s = .next t ∧ t.status.busy = true ∧ steps 2 t = .next u ∧
      u.status = { busy := false, done := false, err := true
                   mode := if i = .norm then .ascii else s.derivedMode, ecode := c.code, haz := s.status.haz } ∧
      u.nblk = 0 ∧ u.errinfo = info ∧ s.Untouched u ∧ u.buf = s.buf ∧
      u.eng = { t.eng with phase := .idle, ecode := c.code, einfo := info } ∧ u.irq = s.ie

/-- R76: CHECK gives the verdict XFORM would give, in either direction: the same DONE, ERR, MODE, ECODE, NBLK and
ERRINFO once each has run to BUSY = 0.
The schedule is the model's (log 4).
The spec marks this as its own derivation: this clause of R76 from R70. -/
def Obligations.CheckAgreesWithTransform : Prop :=
  ∀ (s : State) (d : Dir), s.Ready →
    ∃ t₁ u₁ t₂ u₂, exec .check s = .next t₁ ∧ steps (s.commandSteps .check s.derivedMode) t₁ = .next u₁ ∧
      exec (xformOf d) s = .next t₂ ∧ steps (s.commandSteps .xform s.derivedMode) t₂ = .next u₂ ∧
      t₁.status.busy = true ∧ u₁.status.busy = false ∧ t₂.status.busy = true ∧ u₂.status.busy = false ∧
      u₁.status = u₂.status ∧ u₁.nblk = u₂.nblk ∧ u₁.errinfo = u₂.errinfo ∧ u₁.buf = s.buf

/-- R132: the outcome of each command issued straight after reset, at power-on of every instance and after a reset event
in any state, idle or busy: XFORM and CHECK fail with SK_EMPTY, NOP and NORM complete with DONE, and an illegal word
fails with ILLEGAL_COMMAND.
The schedule is the model's (log 4), and a reset event keeps it (log 15).
The spec marks this as its own derivation: this clause of R132 from R129, R66, R70, R71, R73 and R77. -/
def Obligations.CommandsStraightAfterReset : Prop :=
  ∀ r : State, ((∃ p, r = State.powerOn p) ∨ ∃ s : State, s.inputs = [] ∧ r = resetEvent s) →
    (∀ i, i = .xformEnc ∨ i = .xformDec ∨ i = .check → ∃ t u, exec i r = .next t ∧
      steps 2 t = .next u ∧ u.status.word = 0x00000014 ∧ u.errinfo = 0) ∧
    (∃ t u, exec .nop r = .next t ∧ steps 1 t = .next u ∧ u.status.word = 0x00000002) ∧
    (∃ t u, exec .norm r = .next t ∧ steps 2 t = .next u ∧ u.status.word = 0x00000002) ∧
    (∀ w, (∀ i, w ≠ encode i) → ∃ t u, writeCmd w r = .next t ∧ steps 1 t = .next u ∧
      u.status.word = 0x00000044 ∧ u.errinfo = w)

/-! ### Validation -/

/-- R65: LENGTH_RANGE, with one mask for every length out of range; NORM checks SIZE alone. The check comes first. -/
def Obligations.LengthRangeCheck : Prop :=
  (∀ (s : State) (op : Op) (m : Mode), op = .xform ∨ op = .check →
    (s.params.bufMax < s.size.toNat ∨ s.params.skMax < s.skLen.toNat ∨ s.params.bkMax < s.bkLen.toNat) →
    ∃ info, s.validate op m = .err .lengthRange info ∧
      info.toNat = (if s.params.bufMax < s.size.toNat then 1 else 0) +
        (if s.params.skMax < s.skLen.toNat then 2 else 0) + (if s.params.bkMax < s.bkLen.toNat then 4 else 0)) ∧
  (∀ (s : State) (m : Mode), s.validate .norm m =
    if s.params.bufMax < s.size.toNat then .err .lengthRange 1 else .ok 0)

/-- R65, R66, R70: with every length in range, SK_LEN = 0 fails XFORM and CHECK with SK_EMPTY in both modes, whatever SIZE
is, 0 included; with SK_LEN ≠ 0, ASCII mode passes with 0 blocks. NORM makes no key check: it passes whatever the key
lengths are. -/
def Obligations.ShiftKeyCheck : Prop :=
  (∀ (s : State) (op : Op) (m : Mode), op = .xform ∨ op = .check →
    s.size.toNat ≤ s.params.bufMax → s.skLen.toNat ≤ s.params.skMax → s.bkLen.toNat ≤ s.params.bkMax →
    (s.skLen = 0 → s.validate op m = .err .skEmpty 0) ∧
    (s.skLen ≠ 0 → s.validate op .ascii = .ok 0)) ∧
  (∀ (s : State) (m : Mode), s.size.toNat ≤ s.params.bufMax → s.validate .norm m = .ok 0)

/-- R67: in MV2 mode, past the earlier checks, a symbol of BKEY[0 .. BK_LEN) that is not '1' to '4' fails validation
with BK_SYMBOL and the lowest index of such a symbol, whether or not the buffer reaches it. In ASCII mode the symbols are
not read: validation passes past the earlier checks, whatever they are. -/
def Obligations.BlockSymbolCheck : Prop :=
  ∀ (s : State) (op : Op), op = .xform ∨ op = .check →
    s.size.toNat ≤ s.params.bufMax → s.skLen.toNat ≤ s.params.skMax → s.bkLen.toNat ≤ s.params.bkMax →
    s.skLen ≠ 0 →
    (∀ j, j < s.bkLen.toNat →
      ¬ (0x31 ≤ (s.byte .bkey j).toNat ∧ (s.byte .bkey j).toNat ≤ 0x34) →
      (∀ i, i < j → 0x31 ≤ (s.byte .bkey i).toNat ∧ (s.byte .bkey i).toNat ≤ 0x34) →
      ∃ info, s.validate op .mv2 = .err .bkSymbol info ∧ info.toNat = j) ∧
    s.validate op .ascii = .ok 0

/-- R68: in MV2 mode, past the symbol check, a buffer that ends on the boundary of block k passes with k blocks; one that
ends inside block p fails with TRUNCATED_BLOCK and p; and one of the two holds of every buffer. -/
def Obligations.PartitionCheck : Prop :=
  ∀ (s : State) (op : Op), op = .xform ∨ op = .check →
    s.size.toNat ≤ s.params.bufMax → s.skLen.toNat ≤ s.params.skMax → s.bkLen.toNat ≤ s.params.bkMax →
    s.skLen ≠ 0 → s.bkLen ≠ 0 →
    (∀ i, i < s.bkLen.toNat → 0x31 ≤ (s.byte .bkey i).toNat ∧ (s.byte .bkey i).toNat ≤ 0x34) →
    (∀ k, s.blockStart k = s.size.toNat → s.validate op .mv2 = .ok k) ∧
    (∀ p, s.blockStart p < s.size.toNat → s.size.toNat < s.blockStart (p + 1) →
      ∃ info, s.validate op .mv2 = .err .truncatedBlock info ∧ info.toNat = p) ∧
    ((∃ k, s.blockStart k = s.size.toNat) ∨
      (∃ p, s.blockStart p < s.size.toNat ∧ s.size.toNat < s.blockStart (p + 1)))

/-- R64: the VALIDATE step in every state the engine can be in: it writes no memory and no register but E.ecode,
E.einfo, E.nblk and E.phase, and the phase after it is the one R64 lists. -/
def Obligations.ValidateStepRunsValidation : Prop :=
  ∀ s : State, s.Inv → s.status.busy = true → s.eng.phase = .validate →
    (∀ c info, s.validate s.eng.op s.eng.mode = .err c info →
      engineStep s = .next { s with eng := { s.eng with ecode := c.code, einfo := info, phase := .finish } }) ∧
    (∀ k, s.validate s.eng.op s.eng.mode = .ok k →
      engineStep s = .next { s with eng := { s.eng with
        nblk := BitVec.ofNat 32 k
        phase :=
          if s.eng.op = .check then .finish
          else if s.eng.op = .norm then (if s.size = 0 then .finish else .normRun)
          else if s.eng.mode = .ascii then (if s.size = 0 then .finish else .alphaRun)
          else (if k = 0 then .finish else .mv2Run) } }) ∧
    s.validate s.eng.op s.eng.mode ≠ .noMeaning

/-- R112: the blocks of a buffer that validates partition it: each offset below SIZE lies in exactly one block, and each
block lies below SIZE.
The spec marks this as its own derivation: R112 from R111 and R68. -/
def Obligations.BlocksPartitionTheBuffer : Prop :=
  ∀ (s : State) (k : Nat), s.bkLen ≠ 0 → s.validate .xform .mv2 = .ok k →
    (∀ a, a < s.size.toNat → ∃ p, p < k ∧ s.blockStart p ≤ a ∧ a < s.blockStart (p + 1) ∧
      ∀ q, q < k → s.blockStart q ≤ a → a < s.blockStart (q + 1) → q = p) ∧
    (∀ p, p < k → s.blockStart (p + 1) ≤ s.size.toNat)

/-! ### The datapath -/

/-- R89, R90: normalize, row by row over all 256 bytes, and its image. -/
def Obligations.NormalizeTable : Prop :=
  ∀ b : Byte,
    (b.toNat ≤ 64 → normalize b = 32) ∧
    (65 ≤ b.toNat ∧ b.toNat ≤ 90 → normalize b = b) ∧
    (91 ≤ b.toNat ∧ b.toNat ≤ 96 → normalize b = 32) ∧
    (97 ≤ b.toNat ∧ b.toNat ≤ 122 → (normalize b).toNat = b.toNat - 32) ∧
    (123 ≤ b.toNat ∧ b.toNat ≤ 127 → normalize b = 32) ∧
    (128 ≤ b.toNat → normalize b = b) ∧
    (normalize b = 32 ∨ (65 ≤ (normalize b).toNat ∧ (normalize b).toNat ≤ 90) ∨ 128 ≤ (normalize b).toNat)

/-- R91: normalize is idempotent on bytes, and NORM run twice on a buffer gives what one NORM gives.
The schedule is the model's (log 4).
The spec marks this as its own derivation: R91 from R89. -/
def Obligations.NormalizationIsIdempotent : Prop :=
  (∀ b : Byte, normalize (normalize b) = normalize b) ∧
  (∀ s : State, s.Ready → s.size.toNat ≤ s.params.bufMax →
    ∃ t₁ u₁ t₂ u₂, exec .norm s = .next t₁ ∧ steps (2 + s.size.toNat) t₁ = .next u₁ ∧
      exec .norm u₁ = .next t₂ ∧ steps (2 + s.size.toNat) t₂ = .next u₂ ∧
      t₁.status.busy = true ∧ u₁.status.busy = false ∧ t₂.status.busy = true ∧ u₂.status.busy = false ∧
      ∀ a, u₂.byte .buf a = u₁.byte .buf a)

/-- R97: the reference realisation of the cyclical adder gives what R96 gives, for every input byte, every shift amount
and both directions.
The spec marks this as its own derivation: R97 from R96. -/
def Obligations.CyclicalAdderReferenceAgrees : Prop :=
  ∀ (c : Byte) (s : Int) (d : Dir), cycReference c s d = cyc c s d

/-- R96, R98: the adder's value and its laws: the result is a letter; decode undoes encode and encode undoes decode on
letters; only s modulo 26 matters; s ≡ 0 is the identity on letters. A byte above 127 also gives a letter, so it is not
got back.
The spec marks this as its own derivation: R98 from R96. -/
def Obligations.CyclicalAdderLaws : Prop :=
  (∀ (c : Byte) (s : Int) (d : Dir), ((cyc c s d).toNat : Int) = 65 + ((c.toNat : Int) - 65 + d.sgn * s) % 26) ∧
  (∀ (c : Byte) (s : Int) (d : Dir), 65 ≤ (cyc c s d).toNat ∧ (cyc c s d).toNat ≤ 90) ∧
  (∀ (c : Byte) (s : Int) (d : Dir), 65 ≤ c.toNat → c.toNat ≤ 90 → cyc (cyc c s d) s (d.opposite) = c) ∧
  (∀ (c : Byte) (s s' : Int) (d : Dir), s % 26 = s' % 26 → cyc c s d = cyc c s' d) ∧
  (∀ (c : Byte) (s : Int) (d : Dir), 65 ≤ c.toNat → c.toNat ≤ 90 → s % 26 = 0 → cyc c s d = c) ∧
  (∀ (c : Byte) (s : Int) (d : Dir), 128 ≤ c.toNat → cyc (cyc c s d) s (d.opposite) ≠ c)

/-- R82: a wrap counter advanced k times from 0 holds emod(k, len), and it is always below len.
The spec marks this as its own derivation: R82 from R81. -/
def Obligations.WrapCounterCountsModulo : Prop :=
  ∀ (len : Word) (k : Nat), 1 ≤ len.toNat → (wrapIter len k 0).toNat = k % len.toNat

/-- R88: the key schedule repeats: the shift word every SK_LEN / gcd(4, SK_LEN) blocks, the block length every BK_LEN
blocks, and so both together every lcm of the two.
The spec marks this as its own derivation: R88 from R84 and R86. -/
def Obligations.KeySchedulePeriod : Prop :=
  ∀ (s : State) (p : Nat), 1 ≤ s.skLen.toNat → 1 ≤ s.bkLen.toNat →
    s.shiftWordAt (p + s.skLen.toNat / Nat.gcd 4 s.skLen.toNat) = s.shiftWordAt p ∧
    s.blockLengthAt (p + s.bkLen.toNat) = s.blockLengthAt p ∧
    (let m := Nat.lcm (s.skLen.toNat / Nat.gcd 4 s.skLen.toNat) s.bkLen.toNat
     s.shiftWordAt (p + m) = s.shiftWordAt p ∧ s.blockLengthAt (p + m) = s.blockLengthAt p)

/-- R103, R104: the block-size mux, symbol by symbol: the length, the lane enables and the modulus; no other symbol has
a length, and a BLOCK step that meets one sets the refusal mark and changes nothing else.
The character codes are presumed (log 13). That the marked step changes nothing else is the model's choice (log 8). -/
def Obligations.BlockSizeMux : Prop :=
  (blockLength 0x31 = some 1 ∧ laneEnables 1 = 0b0001 ∧ blockModulus 1 = 2 ^ 8) ∧
  (blockLength 0x32 = some 2 ∧ laneEnables 2 = 0b0011 ∧ blockModulus 2 = 2 ^ 16) ∧
  (blockLength 0x33 = some 3 ∧ laneEnables 3 = 0b0111 ∧ blockModulus 3 = 2 ^ 24) ∧
  (blockLength 0x34 = some 4 ∧ laneEnables 4 = 0b1111 ∧ blockModulus 4 = 2 ^ 32) ∧
  (∀ (sym : Byte) (L : Nat), blockLength sym = some L → sym.toNat = 0x30 + L ∧ 1 ≤ L ∧ L ≤ 4) ∧
  (∀ sym : Byte, blockLength sym = none ↔ ¬ (0x31 ≤ sym.toNat ∧ sym.toNat ≤ 0x34)) ∧
  (∀ s : State, s.eng.phase = .mv2Run → blockLength (s.byte .bkey s.eng.bp.toNat) = none →
    engineStep s = .next { s with refused := true })

/-- R107, R108: the 32-bit adder with lane enables gives what the variable-width adder gives, and only the low 8L bits
of the shift word affect a block: they are the last L of its four key bytes.
The spec marks this as its own derivation: R108 from R107. -/
def Obligations.BlockAdderReferenceAgrees : Prop :=
  (∀ (L : Nat) (d : Dir) (i : Nat) (shift : Word), 1 ≤ L → L ≤ 4 → i < 2 ^ (8 * L) →
    blockAddReference L d i shift = blockAdd L d i shift ∧
    (∀ shift' : Word, shift'.toNat % 2 ^ (8 * L) = shift.toNat % 2 ^ (8 * L) →
      blockAdd L d i shift' = blockAdd L d i shift)) ∧
  (∀ k0 k1 k2 k3 : Byte,
    (shiftWord k0 k1 k2 k3).toNat = k0.toNat * 2 ^ 24 + k1.toNat * 2 ^ 16 + k2.toNat * 2 ^ 8 + k3.toNat ∧
    (shiftWord k0 k1 k2 k3).toNat % 2 ^ 8 = k3.toNat ∧
    (shiftWord k0 k1 k2 k3).toNat % 2 ^ 16 = k2.toNat * 2 ^ 8 + k3.toNat ∧
    (shiftWord k0 k1 k2 k3).toNat % 2 ^ 24 = k1.toNat * 2 ^ 16 + k2.toNat * 2 ^ 8 + k3.toNat)

/-- R109: the adder's laws: each direction undoes the other over the ring of integers modulo 2^(8L), for any shift; it
wraps as DOC §8.5 says; a shift whose low 8L bits are 0 leaves the block unchanged.
The spec marks this as its own derivation: R109 from R107. -/
def Obligations.BlockAdderLaws : Prop :=
  (∀ (L : Nat) (d : Dir) (i : Nat) (shift : Word), i < 2 ^ (8 * L) →
    blockAdd L d i shift < 2 ^ (8 * L) ∧ blockAdd L (d.opposite) (blockAdd L d i shift) shift = i) ∧
  (∀ shift : Word, shift.toNat % 256 = 1 →
    blockAdd 1 .encode 0x00 shift = 0x01 ∧ blockAdd 1 .encode 0xFF shift = 0x00) ∧
  (∀ (L : Nat) (d : Dir) (i : Nat) (shift : Word), i < 2 ^ (8 * L) → shift.toNat % 2 ^ (8 * L) = 0 →
    blockAdd L d i shift = i)

/-- R9, R42: MemWrite then MemRead of the same n bytes gives the low 8n bits, byte k of a block is the (n − 1 − k)-th
from the right, and no byte outside the n written changes. -/
def Obligations.BlocksAreBigEndian : Prop :=
  ∀ (sp : Space) (m : Memory) (a n v : Nat),
    Memory.readBE sp (Memory.writeBE m a n v) a n = v % 256 ^ n ∧
    (∀ k, k < n → (Memory.read sp (Memory.writeBE m a n v) (a + k)).toNat = v / 256 ^ (n - 1 - k) % 256) ∧
    (∀ b, b < a ∨ a + n ≤ b → Memory.read sp (Memory.writeBE m a n v) b = Memory.read sp m b)

/-! ### The engine's steps -/

/-- R93: the NORM step in every state the engine can be in: the byte at E.n is normalized, E.n advances, FINISH follows
when it reaches SIZE; nothing else changes. -/
def Obligations.NormStepNormalizesOneByte : Prop :=
  ∀ s : State, s.Inv → s.status.busy = true → s.eng.phase = .normRun →
    ∃ t, engineStep s = .next t ∧
      t = { s with
            buf := t.buf
            eng := { s.eng with
              n := s.eng.n + 1, phase := if s.eng.n.toNat + 1 = s.size.toNat then .finish else .normRun } } ∧
      t.eng.n.toNat = s.eng.n.toNat + 1 ∧
      ∀ a, t.byte .buf a = if a = s.eng.n.toNat then normalize (s.byte .buf a) else s.byte .buf a

/-- R83, R99, R100: the ALPHA step in every state the engine can be in. Position n = E.n takes the key symbol
SKEY[emod(n, SK_LEN)], on spaces too; a normalized space stays a space, any other byte goes through the adder.
The spec marks the key index as its own derivation: R33 from R82 and R83. -/
def Obligations.AlphaStepShiftsOneByte : Prop :=
  ∀ s : State, s.Inv → s.status.busy = true → s.eng.phase = .alphaRun →
    ∃ t, engineStep s = .next t ∧
      t = { s with
            buf := t.buf
            eng := { s.eng with
              kp := t.eng.kp, n := s.eng.n + 1
              phase := if s.eng.n.toNat + 1 = s.size.toNat then .finish else .alphaRun } } ∧
      t.eng.n.toNat = s.eng.n.toNat + 1 ∧
      t.eng.kp.toNat = (s.eng.n.toNat + 1) % s.skLen.toNat ∧
      (∀ a, a ≠ s.eng.n.toNat → t.byte .buf a = s.byte .buf a) ∧
      t.byte .buf s.eng.n.toNat =
        (if normalize (s.byte .buf s.eng.n.toNat) = 32 then 32
         else cyc (normalize (s.byte .buf s.eng.n.toNat))
           (((s.byte .skey (s.eng.n.toNat % s.skLen.toNat)).toNat : Int) - 64) s.eng.dir)

/-- R84 to R87, R105 to R107, R110, R111: the BLOCK step in every state the engine can be in. Block p = E.p at offset
E.n has the length its symbol BKEY[emod(p, BK_LEN)] gives; its shift word is SKEY at 4p to 4p+3, each wrapped; the
pointers advance by 4 and by 1, the cursors by L and by 1; no byte outside the block changes.
The spec marks the pointers' formulas and E.n + L ≤ SIZE as its own derivation: R33 from R84, R86, R68 and R111. -/
def Obligations.BlockStepShiftsOneBlock : Prop :=
  ∀ s : State, s.Inv → s.status.busy = true → s.eng.phase = .mv2Run →
    ∃ (L : Nat) (t : State), blockLength (s.byte .bkey (s.eng.p.toNat % s.bkLen.toNat)) = some L ∧
      engineStep s = .next t ∧
      t = { s with
            buf := t.buf
            eng := { s.eng with
              bp := t.eng.bp, kp := t.eng.kp, n := t.eng.n, p := s.eng.p + 1
              phase := if s.eng.n.toNat + L = s.size.toNat then .finish else .mv2Run } } ∧
      s.eng.n.toNat + L ≤ s.size.toNat ∧
      t.eng.n.toNat = s.eng.n.toNat + L ∧ t.eng.p.toNat = s.eng.p.toNat + 1 ∧
      t.eng.bp.toNat = (s.eng.p.toNat + 1) % s.bkLen.toNat ∧
      t.eng.kp.toNat = 4 * (s.eng.p.toNat + 1) % s.skLen.toNat ∧
      Memory.readBE .buf t.buf s.eng.n.toNat L =
        blockAdd L s.eng.dir (Memory.readBE .buf s.buf s.eng.n.toNat L) (s.shiftWordAt s.eng.p.toNat) ∧
      (∀ a, a < s.eng.n.toNat ∨ s.eng.n.toNat + L ≤ a → t.byte .buf a = s.byte .buf a)

/-- R74, R75: the FINISH step, on success and on error for every code R115 lists; irq follows IE after it. A reserved code
6 to 15 is never produced, and is a fault (93_implementation_defined.md V2; log 9). The codes are R115's numbers. -/
def Obligations.FinishStepReports : Prop :=
  (ErrorCode.code .skEmpty = 1 ∧ ErrorCode.code .bkSymbol = 2 ∧ ErrorCode.code .truncatedBlock = 3 ∧
    ErrorCode.code .illegalCommand = 4 ∧ ErrorCode.code .lengthRange = 5) ∧
  ∀ s : State, s.eng.phase = .finish →
    (s.eng.ecode = 0 → ∃ t, engineStep s = .next t ∧ t.irq = s.ie ∧
      t = { s with
            nblk := if (s.eng.op = .xform ∨ s.eng.op = .check) ∧ s.eng.mode = .mv2 then s.eng.nblk else 0
            status := { s.status with done := true, busy := false }
            eng := { s.eng with phase := .idle } }) ∧
    (∀ c : ErrorCode, s.eng.ecode = c.code → ∃ t, engineStep s = .next t ∧ t.irq = s.ie ∧
      t = { s with
            status := { s.status with ecode := s.eng.ecode, err := true, busy := false }
            errinfo := s.eng.einfo
            nblk := 0
            eng := { s.eng with phase := .idle } }) ∧
    (6 ≤ s.eng.ecode.toNat → engineStep s = .fault .reservedErrorCode)

/-- R38, R50: what no engine step changes, in any state: the parameters, CTRL, the length registers, both key memories,
HAZ, the model's own fields, and every byte of BUF at or above SIZE. -/
def Obligations.EngineStepFrame : Prop :=
  ∀ s t : State, engineStep s = .next t →
    t.params = s.params ∧ t.ie = s.ie ∧ t.size = s.size ∧ t.skLen = s.skLen ∧ t.bkLen = s.bkLen ∧
    t.skey = s.skey ∧ t.bkey = s.bkey ∧ t.status.haz = s.status.haz ∧ t.status.mode = s.status.mode ∧
    t.eng.cmd = s.eng.cmd ∧ t.eng.op = s.eng.op ∧ t.eng.dir = s.eng.dir ∧ t.eng.mode = s.eng.mode ∧
    t.inputs = s.inputs ∧ t.resp = s.resp ∧ t.draws = s.draws ∧
    (∀ a, s.size.toNat ≤ a → t.byte .buf a = s.byte .buf a)

/-- R38: the engine reaches only the bytes below the current length registers. Two states that differ only in memory
bytes at or above them take engine steps with the same outcome, and again differ only there. -/
def Obligations.EngineReadsOnlyItsOperands : Prop :=
  ∀ s s' : State,
    s' = { s with buf := s'.buf, skey := s'.skey, bkey := s'.bkey } →
    (∀ a, a < s.size.toNat → s'.byte .buf a = s.byte .buf a) →
    (∀ a, a < s.skLen.toNat → s'.byte .skey a = s.byte .skey a) →
    (∀ a, a < s.bkLen.toNat → s'.byte .bkey a = s.byte .bkey a) →
    (∀ t, engineStep s = .next t → ∃ t', engineStep s' = .next t' ∧
      t' = { t with buf := t'.buf, skey := t'.skey, bkey := t'.bkey } ∧
      (∀ a, a < s.size.toNat → t'.byte .buf a = t.byte .buf a) ∧
      (∀ a, a < s.skLen.toNat → t'.byte .skey a = t.byte .skey a) ∧
      (∀ a, a < s.bkLen.toNat → t'.byte .bkey a = t.byte .bkey a))

/-! ### The host port -/

/-- R16, R39, R41: the address map, both ways: an address reaches a register exactly when it is the offset R16 gives the
register, and byte i of a memory exactly when it is the window's base plus i with i below the memory's size; every other address
gets BUSERR. -/
def Obligations.AddressMap : Prop :=
  ∀ (p : Params) (a : Word), p.wf →
    (decodeAddress p a = .reg .id ↔ a.toNat = 0x00) ∧
    (decodeAddress p a = .reg .ctrl ↔ a.toNat = 0x04) ∧
    (decodeAddress p a = .reg .cmd ↔ a.toNat = 0x08) ∧
    (decodeAddress p a = .reg .status ↔ a.toNat = 0x0C) ∧
    (decodeAddress p a = .reg .size ↔ a.toNat = 0x10) ∧
    (decodeAddress p a = .reg .skLen ↔ a.toNat = 0x14) ∧
    (decodeAddress p a = .reg .bkLen ↔ a.toNat = 0x18) ∧
    (decodeAddress p a = .reg .nblk ↔ a.toNat = 0x1C) ∧
    (decodeAddress p a = .reg .errinfo ↔ a.toNat = 0x20) ∧
    (decodeAddress p a = .reg .bufMax ↔ a.toNat = 0x24) ∧
    (decodeAddress p a = .reg .skMax ↔ a.toNat = 0x28) ∧
    (decodeAddress p a = .reg .bkMax ↔ a.toNat = 0x2C) ∧
    (∀ i, decodeAddress p a = .mem .skey i ↔ i < p.skMax ∧ a.toNat = 0x01000000 + i) ∧
    (∀ i, decodeAddress p a = .mem .bkey i ↔ i < p.bkMax ∧ a.toNat = 0x02000000 + i) ∧
    (∀ i, decodeAddress p a = .mem .buf i ↔ i < p.bufMax ∧ a.toNat = 0x03000000 + i) ∧
    (decodeAddress p a = .busErr ↔
      ¬ ((a.toNat % 4 = 0 ∧ a.toNat ≤ 0x2C) ∨ (0x01000000 ≤ a.toNat ∧ a.toNat < 0x01000000 + p.skMax) ∨
        (0x02000000 ≤ a.toNat ∧ a.toNat < 0x02000000 + p.bkMax) ∨
        (0x03000000 ≤ a.toNat ∧ a.toNat < 0x03000000 + p.bufMax)))

/-- R41: the four kinds of transaction that get BUSERR, idle or busy: outside every window, misaligned in REG, an
unassigned REG offset, at or above a memory's size. The response is all that changes, not even HAZ; its HRDATA is 0
(R37).
The field `resp` is the model's (log 6). -/
def Obligations.BusErrorChangesNothing : Prop :=
  ∀ (s : State) (a d : Word), s.params.wf →
    ((0x100 ≤ a.toNat ∧ a.toNat < 0x01000000) ∨ 0x04000000 ≤ a.toNat ∨
      (a.toNat < 0x100 ∧ a.toNat % 4 ≠ 0) ∨ (0x30 ≤ a.toNat ∧ a.toNat ≤ 0xFC) ∨
      (0x01000000 + s.params.skMax ≤ a.toNat ∧ a.toNat < 0x02000000) ∨
      (0x02000000 + s.params.bkMax ≤ a.toNat ∧ a.toNat < 0x03000000) ∨
      (0x03000000 + s.params.bufMax ≤ a.toNat ∧ a.toNat < 0x04000000)) →
    hostStep (.read a) s = .next { s with resp := some .busErr } ∧
    hostStep (.write a d) s = .next { s with resp := some .busErr } ∧
    HostResp.busErr.hresp = .busErr ∧ HostResp.busErr.hrdata = some 0

/-- R16, R19 to R28, R46: a READ at each register's offset, busy or idle: its response, with STATUS and CTRL bit by bit,
and nothing but the response changes.
The field `resp` is the model's (log 6). -/
def Obligations.RegisterReads : Prop :=
  ∀ s : State,
    (∀ q ∈ ([(0x00000000, .id), (0x00000004, .ctrl), (0x00000008, .cmd), (0x0000000C, .status), (0x00000010, .size),
        (0x00000014, .skLen), (0x00000018, .bkLen), (0x0000001C, .nblk), (0x00000020, .errinfo), (0x00000024, .bufMax),
        (0x00000028, .skMax), (0x0000002C, .bkMax)] : List (Word × Reg)),
      hostStep (.read q.1) s = .next { s with resp := some (.readOkay (s.readReg q.2)) }) ∧
    s.readReg .id = 0x4D563201 ∧ s.readReg .cmd = 0 ∧ s.readReg .size = s.size ∧ s.readReg .skLen = s.skLen ∧
    s.readReg .bkLen = s.bkLen ∧ s.readReg .nblk = s.nblk ∧ s.readReg .errinfo = s.errinfo ∧
    (s.params.wf → (s.readReg .bufMax).toNat = s.params.bufMax ∧ (s.readReg .skMax).toNat = s.params.skMax ∧
      (s.readReg .bkMax).toNat = s.params.bkMax) ∧
    ((s.readReg .ctrl).toNat = if s.ie then 1 else 0) ∧
    ((s.readReg .status).toNat =
      (if s.status.busy then 1 else 0) + (if s.status.done then 2 else 0) + (if s.status.err then 4 else 0) +
      (if s.status.mode = .mv2 then 8 else 0) + 16 * s.status.ecode.toNat + (if s.status.haz then 256 else 0))

/-- R17, R18, R20: a WRITE to each register but CMD and STATUS while idle: the three lengths hold any 32-bit value
written, CTRL keeps bit 0 alone, a write to an RO register is ignored; each gets OKAY.
The field `resp` is the model's (log 6). -/
def Obligations.RegisterWritesWhileIdle : Prop :=
  ∀ (s : State) (w : Word), s.status.busy = false →
    hostStep (.write 0x00000004 w) s = .next { s with ie := w.getLsbD 0, resp := some .writeOkay } ∧
    hostStep (.write 0x00000010 w) s = .next { s with size := w, resp := some .writeOkay } ∧
    hostStep (.write 0x00000014 w) s = .next { s with skLen := w, resp := some .writeOkay } ∧
    hostStep (.write 0x00000018 w) s = .next { s with bkLen := w, resp := some .writeOkay } ∧
    (∀ a ∈ ([0x00000000, 0x0000001C, 0x00000020, 0x00000024, 0x00000028, 0x0000002C] : List Word),
      hostStep (.write a w) s = .next { s with resp := some .writeOkay })

/-- R22: a WRITE to STATUS, idle or busy: 1 in bit 1, 2 or 8 clears DONE, ERR or HAZ; 0 leaves it; BUSY, MODE and ECODE
do not change, whatever is written.
The field `resp` is the model's (log 6). -/
def Obligations.StatusWriteOneToClear : Prop :=
  ∀ (s : State) (w : Word),
    hostStep (.write 0x0000000C w) s = .next
      { s with
        status :=
          { busy := s.status.busy
            done := if w.getLsbD 1 then false else s.status.done
            err := if w.getLsbD 2 then false else s.status.err
            mode := s.status.mode
            ecode := s.status.ecode
            haz := if w.getLsbD 8 then false else s.status.haz }
        resp := some .writeOkay }

/-- R40: host access to memory bytes while idle. A WRITE stores HWDATA[7:0] at its offset and nowhere else, in that
memory and in no other; a READ answers the byte, zero-extended, and changes nothing but the response.
The field `resp` is the model's (log 6). -/
def Obligations.HostMemoryAccessWhileIdle : Prop :=
  ∀ (s : State) (sp : Space) (i : Nat) (d : Word), s.params.wf → s.status.busy = false → i < s.params.capacity sp →
    hostStep (.read (memAddress sp i)) s = .next { s with resp := some (.readOkay ((s.byte sp i).setWidth 32)) } ∧
    ∃ t, hostStep (.write (memAddress sp i) d) s = .next t ∧
      t = { s with buf := t.buf, skey := t.skey, bkey := t.bkey, resp := some .writeOkay } ∧
      (t.byte sp i).toNat = d.toNat % 256 ∧
      ∀ sp' a, ¬ (sp' = sp ∧ a = i) → t.byte sp' a = s.byte sp' a

/-- R133: the host's accesses while busy, row by row. A write of CMD, a length or a memory byte is dropped and sets HAZ;
CTRL and STATUS take effect; a write of an RO register is ignored; register reads are exact; a memory read answers OKAY
with HRDATA[31:8] = 0 and changes only the draw counter; an access that gets BUSERR has no effect.
The draw counter is the model's (log 3). The field `resp` is the model's (log 6). -/
def Obligations.HostAccessWhileBusy : Prop :=
  ∀ (s : State) (w : Word), s.status.busy = true →
    (∀ r, r = .cmd ∨ r = .size ∨ r = .skLen ∨ r = .bkLen →
      hostStep (.write (regAddress r) w) s =
        .next { s with status := { s.status with haz := true }, resp := some .writeOkay }) ∧
    (∀ sp i, s.params.wf → i < s.params.capacity sp →
      hostStep (.write (memAddress sp i) w) s =
        .next { s with status := { s.status with haz := true }, resp := some .writeOkay }) ∧
    hostStep (.write (regAddress .ctrl) w) s = .next { s with ie := w.getLsbD 0, resp := some .writeOkay } ∧
    hostStep (.write (regAddress .status) w) s = .next
      { s with
        status :=
          { s.status with
            done := if w.getLsbD 1 then false else s.status.done
            err := if w.getLsbD 2 then false else s.status.err
            haz := if w.getLsbD 8 then false else s.status.haz }
        resp := some .writeOkay } ∧
    (∀ r, r = .id ∨ r = .nblk ∨ r = .errinfo ∨ r = .bufMax ∨ r = .skMax ∨ r = .bkMax →
      hostStep (.write (regAddress r) w) s = .next { s with resp := some .writeOkay }) ∧
    (∀ r, hostStep (.read (regAddress r)) s = .next { s with resp := some (.readOkay (s.readReg r)) }) ∧
    (∀ sp i, s.params.wf → i < s.params.capacity sp →
      ∃ (v : Word) (n : Nat), v.toNat < 256 ∧
        hostStep (.read (memAddress sp i)) s = .next { s with resp := some (.readOkay v), draws := n }) ∧
    (∀ a, decodeAddress s.params a = .busErr →
      hostStep (.read a) s = .next { s with resp := some .busErr } ∧
      hostStep (.write a w) s = .next { s with resp := some .busErr })

/-- R46: a READ of a memory byte while busy answers OKAY with HRDATA[31:8] = 0 and a freshly drawn low byte: the draw
numbered by the counter, which advances, so the next read has a draw of its own. Nothing else changes.
The draw counter is the model's (log 3). The field `resp` is the model's (log 6). -/
def Obligations.MemoryReadWhileBusyIsADraw : Prop :=
  ∀ (s : State) (sp : Space) (i : Nat), s.params.wf → s.status.busy = true → i < s.params.capacity sp →
    ∃ v : Word, v.toNat = (Config.drawByte s.draws).toNat ∧
      hostStep (.read (memAddress sp i)) s = .next { s with resp := some (.readOkay v), draws := s.draws + 1 }

/-- R134: HAZ is sticky. A step clears it only where its event is a host write to STATUS with bit 8 set, or a reset.
The schedule is the model's (log 4). -/
def Obligations.HazIsSticky : Prop :=
  ∀ s t : State, step s = .next t → s.status.haz = true → t.status.haz = false →
    (∃ es, s.inputs = .reset :: es) ∨
    (∃ (w : Word) (es : List Event), s.inputs = .host (.write (regAddress .status) w) :: es ∧ w.getLsbD 8 = true)

/-- R22, R62: BUSY rises only where the host writes a word to CMD, and falls only in a FINISH step or a reset.
The schedule is the model's (log 4). -/
def Obligations.BusyChangesOnlyAtAcceptanceAndFinish : Prop :=
  ∀ s t : State, step s = .next t →
    (s.status.busy = false → t.status.busy = true →
      ∃ w es, s.inputs = .host (.write 0x00000008 w) :: es) ∧
    (s.status.busy = true → t.status.busy = false →
      (∃ es, s.inputs = .reset :: es) ∨
      (s.eng.phase = .finish ∧ (s.inputs = [] ∨ ∃ es, s.inputs = .engine :: es)))

/-- R31, R74, R75, R122, R129: irq is IE and (DONE or ERR); a FINISH step leaves it equal to IE; acceptance of a command,
a legal or an illegal word, and reset leave it 0.
The spec marks the reset clause as its own derivation: this row of R129 from IE = 0. -/
def Obligations.InterruptOutput : Prop :=
  (∀ s : State, s.irq = true ↔ s.ie = true ∧ (s.status.done = true ∨ s.status.err = true)) ∧
  (∀ s t : State, s.eng.phase = .finish → engineStep s = .next t → t.irq = s.ie) ∧
  (∀ (s : State) (i : Instr), s.status.busy = false → ∃ t, exec i s = .next t ∧ t.irq = false) ∧
  (∀ (s : State) (w : Word), s.status.busy = false → ∃ t, writeCmd w s = .next t ∧ t.irq = false) ∧
  (∀ s : State, (resetEvent s).irq = false)

/-! ### Reset -/

/-- R129: the reset event, idle or busy: every register at its reset value; the parameters, SKEY, BKEY and the refusal
mark unchanged.
The instance of `State.reset` is the model's choice (log 1). The schedule is the model's (log 4). -/
def Obligations.ResetValues : Prop :=
  ∀ (s : State) (es : List Event), s.inputs = .reset :: es →
    ∃ t, step s = .next t ∧
      t.ie = false ∧ t.status.word = 0x00000000 ∧ t.size = 0 ∧ t.skLen = 0 ∧ t.bkLen = 0 ∧ t.nblk = 0 ∧
      t.errinfo = 0 ∧ t.params = s.params ∧ t.readReg .id = 0x4D563201 ∧ t.readReg .cmd = 0 ∧
      t.eng = { phase := .idle, cmd := 0, op := .nop, dir := .encode, mode := .ascii, n := 0, p := 0, kp := 0,
                bp := 0, nblk := 0, ecode := 0, einfo := 0 } ∧
      t.irq = false ∧ t.skey = s.skey ∧ t.bkey = s.bkey ∧ t.refused = s.refused ∧
      State.reset.status.word = 0x00000000 ∧ State.reset.eng = t.eng

/-- R130, R131: the buffer across a step whose event is a reset. Idle, or busy with CHECK, NOP or an illegal word: every
byte is as before. Busy with XFORM or NORM: each byte of BUF[0 .. S) the memory has is a fresh draw of its own, and every
byte at or above S is as before. The statement holds whatever the draws are.
That BUF is kept for CHECK, NOP and an illegal word follows R131 and not R45's wider words (log 14). The schedule is the
model's (log 4). The draw counter is the model's (log 3), and a reset without draws keeps it (log 15). The numbering of
the drawn bytes is the model's (log 11). -/
def Obligations.ResetAndTheBuffer : Prop :=
  ∀ (s : State) (es : List Event), s.inputs = .reset :: es → ∃ t, step s = .next t ∧
    (s.status.busy = false ∨ (s.eng.op ≠ .xform ∧ s.eng.op ≠ .norm) → t.buf = s.buf ∧ t.draws = s.draws) ∧
    (s.status.busy = true → s.eng.op = .xform ∨ s.eng.op = .norm →
      (∀ a, a < s.size.toNat → a < s.params.bufMax →
        t.byte .buf a = Config.drawByte (s.draws + a) ∧ s.draws + a < t.draws) ∧
      (∀ a, s.size.toNat ≤ a → t.byte .buf a = s.byte .buf a))

/-- The invariant holds right after power-on reset, on every instance R6 allows, `State.reset` among them.
The instance of `State.reset` is the model's choice (log 1). -/
def Obligations.ResetMeetsInvariant : Prop :=
  (∀ p : Params, p.wf → (State.powerOn p).Safe) ∧ State.reset.Safe

/-! ### The whole machine -/

/-- R33, R38, R115: every step of the machine, host, engine or reset, keeps the invariant: the memories stay canonical
and inside their capacities, ECODE is never reserved, DONE and ERR are never both 1, BUSY agrees with the phase, and a
busy engine's cursors and key pointers are those of the source's formulas.
The spec marks this as its own derivation: R33 and these clauses of R22 from other rules. -/
def Obligations.StepKeepsInvariant : Prop :=
  ∀ s t : State, s.Inv → step s = .next t → t.Inv

/-- R34: from a state that meets the invariant every step answers a next state, neither a fault nor a refusal, and the
refusal mark is not set by it: no legal input reaches it. -/
def Obligations.StepNeverStops : Prop :=
  ∀ s : State, s.Inv → ∃ t, step s = .next t ∧ t.refused = s.refused

/-- R79, R137: every accepted command completes. Left alone, a busy engine clears BUSY after exactly the steps R79
counts, with DONE or ERR set; right after acceptance the count is R79's table.
The schedule is the model's (log 4).
The spec marks this as its own derivation: R79 from R61, R63, R64, R93, R100 and R111. -/
def Obligations.EveryCommandTerminates : Prop :=
  (∀ s : State, s.Inv → s.status.busy = true → s.inputs = [] →
    ∃ u, steps s.stepsLeft s = .next u ∧ u.status.busy = false ∧ (u.status.done = true ∨ u.status.err = true) ∧
      ∀ k, k < s.stepsLeft → ∃ v, steps k s = .next v ∧ v.status.busy = true) ∧
  (∀ (s t : State) (w : Word), s.status.busy = false → writeCmd w s = .next t →
    ((operationOf w).1 = .nop ∨ (operationOf w).1 = .illegal → t.stepsLeft = 1) ∧
    ((operationOf w).1 = .check → t.stepsLeft = s.commandSteps .check s.derivedMode) ∧
    ((operationOf w).1 = .norm → t.stepsLeft = s.commandSteps .norm .ascii) ∧
    ((operationOf w).1 = .xform → t.stepsLeft = s.commandSteps .xform s.derivedMode))

/-- R11, R46, R47, R133: the host cannot disturb a running command. Under any schedule of engine steps and host
transactions whose last event is the engine step that completes the command, the machine ends in the state the engine
reaches alone, but for CTRL.IE, HAZ, the schedule, the response and the draw counter.
The schedule is the model's (log 4). -/
def Obligations.HostActivityCannotChangeAResult : Prop :=
  ∀ (s : State) (es : List Event), s.Inv → s.status.busy = true →
    (∀ e ∈ es, e ≠ .reset) → es.countP (· = .engine) + 1 = s.stepsLeft →
    ∃ u v, steps (es.length + 1) (s.withInputs (es ++ [.engine])) = .next u ∧
      steps s.stepsLeft (s.withInputs []) = .next v ∧
      u.engineView = v.engineView ∧ u.status.busy = false

/-- R113: the MV2 round trip, in both orders: XFORM of one direction and then of the other, with the same keys, lengths
and SIZE, gives back every byte of the buffer.
The schedule is the model's (log 4).
The spec marks this as its own derivation: R113 from R109, R112, R84 and R86. -/
def Obligations.Mv2RoundTrip : Prop :=
  ∀ (s : State) (d : Dir) (k : Nat), s.Ready → s.bkLen ≠ 0 → s.validate .xform .mv2 = .ok k →
    ∃ t₁ u₁ t₂ u₂, exec (xformOf d) s = .next t₁ ∧ steps (2 + k) t₁ = .next u₁ ∧
      exec (xformOf (d.opposite)) u₁ = .next t₂ ∧ steps (2 + k) t₂ = .next u₂ ∧
      t₁.status.busy = true ∧ u₁.status.busy = false ∧ t₂.status.busy = true ∧ u₂.status.busy = false ∧
      ∀ a, u₂.byte .buf a = s.byte .buf a

/-- R102: the ASCII round trip: XFORM.ENC and then XFORM.DEC gives back a buffer whose every byte is a space or a capital
letter, the encoded buffer being of that kind again, and the normalized buffer where every byte is below 128.
The schedule is the model's (log 4).
The spec marks this as its own derivation: R102 from R98, R100 and R91. -/
def Obligations.AsciiRoundTrip : Prop :=
  ∀ s : State, s.Ready → s.bkLen = 0 → s.size.toNat ≤ s.params.bufMax →
    1 ≤ s.skLen.toNat → s.skLen.toNat ≤ s.params.skMax →
    ∃ t₁ u₁ t₂ u₂, exec .xformEnc s = .next t₁ ∧ steps (2 + s.size.toNat) t₁ = .next u₁ ∧
      exec .xformDec u₁ = .next t₂ ∧ steps (2 + s.size.toNat) t₂ = .next u₂ ∧
      t₁.status.busy = true ∧ u₁.status.busy = false ∧ t₂.status.busy = true ∧ u₂.status.busy = false ∧
      (∀ a, a < s.size.toNat →
        u₁.byte .buf a = 32 ∨ (65 ≤ (u₁.byte .buf a).toNat ∧ (u₁.byte .buf a).toNat ≤ 90)) ∧
      ((∀ a, a < s.size.toNat → s.byte .buf a = 32 ∨ (65 ≤ (s.byte .buf a).toNat ∧ (s.byte .buf a).toNat ≤ 90)) →
        ∀ a, u₂.byte .buf a = s.byte .buf a) ∧
      ((∀ a, a < s.size.toNat → (s.byte .buf a).toNat < 128) →
        ∀ a, a < s.size.toNat → u₂.byte .buf a = normalize (s.byte .buf a))

/-- R59, R137: `wait` issues a READ of STATUS (address 0xC), repeats it exactly while its response has bit 0 = 1, and so
ends only in a state with BUSY = 0, every poll but the last having answered busy. With engine steps alone between the
polls, as many in all as the command still takes, it does end, in the state the engine reaches alone.
The events between the polls are the model's argument (log 12). The schedule is the model's (log 4). -/
def Obligations.WaitPollsUntilNotBusy : Prop :=
  ∃ x, Stmt.wait.assemble = some x ∧
    x.next [] = some (.read 0x0000000C) ∧
    (∀ (rs : List HostResp) (w : Word),
      x.next (rs ++ [.readOkay w]) = if w.getLsbD 0 = true then some (.read 0x0000000C) else none) ∧
    (∀ (s t : State) (gaps : List (List Event)) (rs : List HostResp), x.run gaps [] s = .next ⟨t, rs, true⟩ →
      t.status.busy = false ∧
      ∃ (polls : List HostResp) (w : Word), rs = polls ++ [.readOkay w] ∧ w.getLsbD 0 = false ∧
        ∀ r ∈ polls, ∃ v : Word, r = .readOkay v ∧ v.getLsbD 0 = true) ∧
    (∀ (s : State) (gaps : List (List Event)), s.Inv → gaps ≠ [] → (∀ g ∈ gaps, ∀ e ∈ g, e = .engine) →
      s.stepsLeft ≤ (gaps.map List.length).sum →
      ∃ t rs u, x.run gaps [] s = .next ⟨t, rs, true⟩ ∧ t.status.busy = false ∧
        steps s.stepsLeft (s.withInputs []) = .next u ∧ t.engineView = u.engineView)
end

