-- ==== Sys2Proof/Laws/State.lean ====
section
/-! SUPPORT. One lemma per field per named update of the state, so that no later proof unfolds a record update. -/

namespace Sys2Proof.Machine

variable (s : State)

/-! ### State.respond -/

@[simp] theorem HostResp.hresp_readOkay (w : Word) : (HostResp.readOkay w).hresp = .okay := rfl
@[simp] theorem HostResp.hresp_writeOkay : HostResp.writeOkay.hresp = .okay := rfl
@[simp] theorem HostResp.hresp_busErr : HostResp.busErr.hresp = .busErr := rfl
@[simp] theorem HostResp.hrdata_readOkay (w : Word) : (HostResp.readOkay w).hrdata = some w := rfl
@[simp] theorem HostResp.hrdata_writeOkay : HostResp.writeOkay.hrdata = none := rfl
@[simp] theorem HostResp.hrdata_busErr : HostResp.busErr.hrdata = some 0 := rfl

@[simp] theorem State.respond_params (r : HostResp) : (s.respond r).params = s.params := rfl
@[simp] theorem State.respond_ie (r : HostResp) : (s.respond r).ie = s.ie := rfl
@[simp] theorem State.respond_status (r : HostResp) : (s.respond r).status = s.status := rfl
@[simp] theorem State.respond_size (r : HostResp) : (s.respond r).size = s.size := rfl
@[simp] theorem State.respond_skLen (r : HostResp) : (s.respond r).skLen = s.skLen := rfl
@[simp] theorem State.respond_bkLen (r : HostResp) : (s.respond r).bkLen = s.bkLen := rfl
@[simp] theorem State.respond_nblk (r : HostResp) : (s.respond r).nblk = s.nblk := rfl
@[simp] theorem State.respond_errinfo (r : HostResp) : (s.respond r).errinfo = s.errinfo := rfl
@[simp] theorem State.respond_buf (r : HostResp) : (s.respond r).buf = s.buf := rfl
@[simp] theorem State.respond_skey (r : HostResp) : (s.respond r).skey = s.skey := rfl
@[simp] theorem State.respond_bkey (r : HostResp) : (s.respond r).bkey = s.bkey := rfl
@[simp] theorem State.respond_eng (r : HostResp) : (s.respond r).eng = s.eng := rfl
@[simp] theorem State.respond_refused (r : HostResp) : (s.respond r).refused = s.refused := rfl
@[simp] theorem State.respond_inputs (r : HostResp) : (s.respond r).inputs = s.inputs := rfl
@[simp] theorem State.respond_resp (r : HostResp) : (s.respond r).resp = some r := rfl
@[simp] theorem State.respond_draws (r : HostResp) : (s.respond r).draws = s.draws := rfl

/-! ### State.withInputs -/

@[simp] theorem State.withInputs_params (es : List Event) : (s.withInputs es).params = s.params := rfl
@[simp] theorem State.withInputs_ie (es : List Event) : (s.withInputs es).ie = s.ie := rfl
@[simp] theorem State.withInputs_status (es : List Event) : (s.withInputs es).status = s.status := rfl
@[simp] theorem State.withInputs_size (es : List Event) : (s.withInputs es).size = s.size := rfl
@[simp] theorem State.withInputs_skLen (es : List Event) : (s.withInputs es).skLen = s.skLen := rfl
@[simp] theorem State.withInputs_bkLen (es : List Event) : (s.withInputs es).bkLen = s.bkLen := rfl
@[simp] theorem State.withInputs_nblk (es : List Event) : (s.withInputs es).nblk = s.nblk := rfl
@[simp] theorem State.withInputs_errinfo (es : List Event) : (s.withInputs es).errinfo = s.errinfo := rfl
@[simp] theorem State.withInputs_buf (es : List Event) : (s.withInputs es).buf = s.buf := rfl
@[simp] theorem State.withInputs_skey (es : List Event) : (s.withInputs es).skey = s.skey := rfl
@[simp] theorem State.withInputs_bkey (es : List Event) : (s.withInputs es).bkey = s.bkey := rfl
@[simp] theorem State.withInputs_eng (es : List Event) : (s.withInputs es).eng = s.eng := rfl
@[simp] theorem State.withInputs_refused (es : List Event) : (s.withInputs es).refused = s.refused := rfl
@[simp] theorem State.withInputs_inputs (es : List Event) : (s.withInputs es).inputs = es := rfl
@[simp] theorem State.withInputs_resp (es : List Event) : (s.withInputs es).resp = s.resp := rfl
@[simp] theorem State.withInputs_draws (es : List Event) : (s.withInputs es).draws = s.draws := rfl

/-! ### State.dropWrite -/

@[simp] theorem State.dropWrite_params : (s.dropWrite).params = s.params := rfl
@[simp] theorem State.dropWrite_ie : (s.dropWrite).ie = s.ie := rfl
@[simp] theorem State.dropWrite_status : (s.dropWrite).status = { s.status with haz := true } := rfl
@[simp] theorem State.dropWrite_size : (s.dropWrite).size = s.size := rfl
@[simp] theorem State.dropWrite_skLen : (s.dropWrite).skLen = s.skLen := rfl
@[simp] theorem State.dropWrite_bkLen : (s.dropWrite).bkLen = s.bkLen := rfl
@[simp] theorem State.dropWrite_nblk : (s.dropWrite).nblk = s.nblk := rfl
@[simp] theorem State.dropWrite_errinfo : (s.dropWrite).errinfo = s.errinfo := rfl
@[simp] theorem State.dropWrite_buf : (s.dropWrite).buf = s.buf := rfl
@[simp] theorem State.dropWrite_skey : (s.dropWrite).skey = s.skey := rfl
@[simp] theorem State.dropWrite_bkey : (s.dropWrite).bkey = s.bkey := rfl
@[simp] theorem State.dropWrite_eng : (s.dropWrite).eng = s.eng := rfl
@[simp] theorem State.dropWrite_refused : (s.dropWrite).refused = s.refused := rfl
@[simp] theorem State.dropWrite_inputs : (s.dropWrite).inputs = s.inputs := rfl
@[simp] theorem State.dropWrite_resp : (s.dropWrite).resp = s.resp := rfl
@[simp] theorem State.dropWrite_draws : (s.dropWrite).draws = s.draws := rfl

/-! ### State.markRefused -/

@[simp] theorem State.markRefused_params : (s.markRefused).params = s.params := rfl
@[simp] theorem State.markRefused_ie : (s.markRefused).ie = s.ie := rfl
@[simp] theorem State.markRefused_status : (s.markRefused).status = s.status := rfl
@[simp] theorem State.markRefused_size : (s.markRefused).size = s.size := rfl
@[simp] theorem State.markRefused_skLen : (s.markRefused).skLen = s.skLen := rfl
@[simp] theorem State.markRefused_bkLen : (s.markRefused).bkLen = s.bkLen := rfl
@[simp] theorem State.markRefused_nblk : (s.markRefused).nblk = s.nblk := rfl
@[simp] theorem State.markRefused_errinfo : (s.markRefused).errinfo = s.errinfo := rfl
@[simp] theorem State.markRefused_buf : (s.markRefused).buf = s.buf := rfl
@[simp] theorem State.markRefused_skey : (s.markRefused).skey = s.skey := rfl
@[simp] theorem State.markRefused_bkey : (s.markRefused).bkey = s.bkey := rfl
@[simp] theorem State.markRefused_eng : (s.markRefused).eng = s.eng := rfl
@[simp] theorem State.markRefused_refused : (s.markRefused).refused = true := rfl
@[simp] theorem State.markRefused_inputs : (s.markRefused).inputs = s.inputs := rfl
@[simp] theorem State.markRefused_resp : (s.markRefused).resp = s.resp := rfl
@[simp] theorem State.markRefused_draws : (s.markRefused).draws = s.draws := rfl

/-! ### State.pendError -/

@[simp] theorem State.pendError_params (c : ErrorCode) (info : Word) : (s.pendError c info).params = s.params := rfl
@[simp] theorem State.pendError_ie (c : ErrorCode) (info : Word) : (s.pendError c info).ie = s.ie := rfl
@[simp] theorem State.pendError_status (c : ErrorCode) (info : Word) : (s.pendError c info).status = s.status := rfl
@[simp] theorem State.pendError_size (c : ErrorCode) (info : Word) : (s.pendError c info).size = s.size := rfl
@[simp] theorem State.pendError_skLen (c : ErrorCode) (info : Word) : (s.pendError c info).skLen = s.skLen := rfl
@[simp] theorem State.pendError_bkLen (c : ErrorCode) (info : Word) : (s.pendError c info).bkLen = s.bkLen := rfl
@[simp] theorem State.pendError_nblk (c : ErrorCode) (info : Word) : (s.pendError c info).nblk = s.nblk := rfl
@[simp] theorem State.pendError_errinfo (c : ErrorCode) (info : Word) :
    (s.pendError c info).errinfo =
      s.errinfo := rfl
@[simp] theorem State.pendError_buf (c : ErrorCode) (info : Word) : (s.pendError c info).buf = s.buf := rfl
@[simp] theorem State.pendError_skey (c : ErrorCode) (info : Word) : (s.pendError c info).skey = s.skey := rfl
@[simp] theorem State.pendError_bkey (c : ErrorCode) (info : Word) : (s.pendError c info).bkey = s.bkey := rfl
@[simp] theorem State.pendError_eng (c : ErrorCode) (info : Word) :
    (s.pendError c info).eng =
      { s.eng with ecode := c.code, einfo := info, phase := .finish } := rfl
@[simp] theorem State.pendError_refused (c : ErrorCode) (info : Word) :
    (s.pendError c info).refused =
      s.refused := rfl
@[simp] theorem State.pendError_inputs (c : ErrorCode) (info : Word) : (s.pendError c info).inputs = s.inputs := rfl
@[simp] theorem State.pendError_resp (c : ErrorCode) (info : Word) : (s.pendError c info).resp = s.resp := rfl
@[simp] theorem State.pendError_draws (c : ErrorCode) (info : Word) : (s.pendError c info).draws = s.draws := rfl

/-! ### State.completeError -/

@[simp] theorem State.completeError_params : (s.completeError).params = s.params := rfl
@[simp] theorem State.completeError_ie : (s.completeError).ie = s.ie := rfl
@[simp] theorem State.completeError_status :
    (s.completeError).status =
      { s.status with ecode := s.eng.ecode, err := true, busy := false } := rfl
@[simp] theorem State.completeError_size : (s.completeError).size = s.size := rfl
@[simp] theorem State.completeError_skLen : (s.completeError).skLen = s.skLen := rfl
@[simp] theorem State.completeError_bkLen : (s.completeError).bkLen = s.bkLen := rfl
@[simp] theorem State.completeError_nblk : (s.completeError).nblk = 0 := rfl
@[simp] theorem State.completeError_errinfo : (s.completeError).errinfo = s.eng.einfo := rfl
@[simp] theorem State.completeError_buf : (s.completeError).buf = s.buf := rfl
@[simp] theorem State.completeError_skey : (s.completeError).skey = s.skey := rfl
@[simp] theorem State.completeError_bkey : (s.completeError).bkey = s.bkey := rfl
@[simp] theorem State.completeError_eng : (s.completeError).eng = { s.eng with phase := .idle } := rfl
@[simp] theorem State.completeError_refused : (s.completeError).refused = s.refused := rfl
@[simp] theorem State.completeError_inputs : (s.completeError).inputs = s.inputs := rfl
@[simp] theorem State.completeError_resp : (s.completeError).resp = s.resp := rfl
@[simp] theorem State.completeError_draws : (s.completeError).draws = s.draws := rfl

/-! ### State.completeOk -/

@[simp] theorem State.completeOk_params : (s.completeOk).params = s.params := rfl
@[simp] theorem State.completeOk_ie : (s.completeOk).ie = s.ie := rfl
@[simp] theorem State.completeOk_status : (s.completeOk).status = { s.status with done := true, busy := false } := rfl
@[simp] theorem State.completeOk_size : (s.completeOk).size = s.size := rfl
@[simp] theorem State.completeOk_skLen : (s.completeOk).skLen = s.skLen := rfl
@[simp] theorem State.completeOk_bkLen : (s.completeOk).bkLen = s.bkLen := rfl
@[simp] theorem State.completeOk_nblk :
    (s.completeOk).nblk =
      if (s.eng.op = .xform ∨ s.eng.op = .check) ∧ s.eng.mode = .mv2 then s.eng.nblk else 0 := rfl
@[simp] theorem State.completeOk_errinfo : (s.completeOk).errinfo = s.errinfo := rfl
@[simp] theorem State.completeOk_buf : (s.completeOk).buf = s.buf := rfl
@[simp] theorem State.completeOk_skey : (s.completeOk).skey = s.skey := rfl
@[simp] theorem State.completeOk_bkey : (s.completeOk).bkey = s.bkey := rfl
@[simp] theorem State.completeOk_eng : (s.completeOk).eng = { s.eng with phase := .idle } := rfl
@[simp] theorem State.completeOk_refused : (s.completeOk).refused = s.refused := rfl
@[simp] theorem State.completeOk_inputs : (s.completeOk).inputs = s.inputs := rfl
@[simp] theorem State.completeOk_resp : (s.completeOk).resp = s.resp := rfl
@[simp] theorem State.completeOk_draws : (s.completeOk).draws = s.draws := rfl

/-! ### State.accept -/

@[simp] theorem State.accept_params (w : Word) (op : Op) (dir : Dir) : (s.accept w op dir).params = s.params := rfl
@[simp] theorem State.accept_ie (w : Word) (op : Op) (dir : Dir) : (s.accept w op dir).ie = s.ie := rfl
@[simp] theorem State.accept_status (w : Word) (op : Op) (dir : Dir) :
    (s.accept w op dir).status =
      { s.status with busy := true, done := false, err := false, ecode := 0, mode := s.latchMode op s.status.mode } := rfl
@[simp] theorem State.accept_size (w : Word) (op : Op) (dir : Dir) : (s.accept w op dir).size = s.size := rfl
@[simp] theorem State.accept_skLen (w : Word) (op : Op) (dir : Dir) : (s.accept w op dir).skLen = s.skLen := rfl
@[simp] theorem State.accept_bkLen (w : Word) (op : Op) (dir : Dir) : (s.accept w op dir).bkLen = s.bkLen := rfl
@[simp] theorem State.accept_nblk (w : Word) (op : Op) (dir : Dir) : (s.accept w op dir).nblk = 0 := rfl
@[simp] theorem State.accept_errinfo (w : Word) (op : Op) (dir : Dir) : (s.accept w op dir).errinfo = 0 := rfl
@[simp] theorem State.accept_buf (w : Word) (op : Op) (dir : Dir) : (s.accept w op dir).buf = s.buf := rfl
@[simp] theorem State.accept_skey (w : Word) (op : Op) (dir : Dir) : (s.accept w op dir).skey = s.skey := rfl
@[simp] theorem State.accept_bkey (w : Word) (op : Op) (dir : Dir) : (s.accept w op dir).bkey = s.bkey := rfl
@[simp] theorem State.accept_eng (w : Word) (op : Op) (dir : Dir) :
    (s.accept w op dir).eng =
      { phase := startPhase op, cmd := w, op := op, dir := dir, mode := s.latchMode op s.eng.mode, n := 0, p := 0, kp := 0, bp := 0, nblk := 0, ecode := 0, einfo := 0 } := rfl
@[simp] theorem State.accept_refused (w : Word) (op : Op) (dir : Dir) : (s.accept w op dir).refused = s.refused := rfl
@[simp] theorem State.accept_inputs (w : Word) (op : Op) (dir : Dir) : (s.accept w op dir).inputs = s.inputs := rfl
@[simp] theorem State.accept_resp (w : Word) (op : Op) (dir : Dir) : (s.accept w op dir).resp = s.resp := rfl
@[simp] theorem State.accept_draws (w : Word) (op : Op) (dir : Dir) : (s.accept w op dir).draws = s.draws := rfl

/-! ### State.setMem -/

@[simp] theorem State.setMem_params (sp : Space) (m : Memory) : (s.setMem sp m).params = s.params := by
  cases sp <;> rfl
@[simp] theorem State.setMem_ie (sp : Space) (m : Memory) : (s.setMem sp m).ie = s.ie := by
  cases sp <;> rfl
@[simp] theorem State.setMem_status (sp : Space) (m : Memory) : (s.setMem sp m).status = s.status := by
  cases sp <;> rfl
@[simp] theorem State.setMem_size (sp : Space) (m : Memory) : (s.setMem sp m).size = s.size := by
  cases sp <;> rfl
@[simp] theorem State.setMem_skLen (sp : Space) (m : Memory) : (s.setMem sp m).skLen = s.skLen := by
  cases sp <;> rfl
@[simp] theorem State.setMem_bkLen (sp : Space) (m : Memory) : (s.setMem sp m).bkLen = s.bkLen := by
  cases sp <;> rfl
@[simp] theorem State.setMem_nblk (sp : Space) (m : Memory) : (s.setMem sp m).nblk = s.nblk := by
  cases sp <;> rfl
@[simp] theorem State.setMem_errinfo (sp : Space) (m : Memory) : (s.setMem sp m).errinfo = s.errinfo := by
  cases sp <;> rfl
@[simp] theorem State.setMem_eng (sp : Space) (m : Memory) : (s.setMem sp m).eng = s.eng := by
  cases sp <;> rfl
@[simp] theorem State.setMem_refused (sp : Space) (m : Memory) : (s.setMem sp m).refused = s.refused := by
  cases sp <;> rfl
@[simp] theorem State.setMem_inputs (sp : Space) (m : Memory) : (s.setMem sp m).inputs = s.inputs := by
  cases sp <;> rfl
@[simp] theorem State.setMem_resp (sp : Space) (m : Memory) : (s.setMem sp m).resp = s.resp := by
  cases sp <;> rfl
@[simp] theorem State.setMem_draws (sp : Space) (m : Memory) : (s.setMem sp m).draws = s.draws := by
  cases sp <;> rfl

@[simp] theorem State.mem_setMem_same (sp : Space) (m : Memory) : (s.setMem sp m).mem sp = m := by
  cases sp <;> rfl
theorem State.mem_setMem_other {sp sp' : Space} (m : Memory) (h : sp' ≠ sp) : (s.setMem sp m).mem sp' = s.mem sp' := by
  cases sp <;> cases sp' <;> first | rfl | exact absurd rfl h

/-! ### State.mem, State.byte and State.Ready -/

@[simp] theorem State.mem_skey : s.mem .skey = s.skey := rfl
@[simp] theorem State.mem_bkey : s.mem .bkey = s.bkey := rfl
@[simp] theorem State.mem_buf : s.mem .buf = s.buf := rfl

/-- A byte of a space depends on that space's memory alone. -/
theorem State.byte_congr {s t : State} {sp : Space} (h : t.mem sp = s.mem sp) (a : Nat) : t.byte sp a = s.byte sp a := by
  simp [State.byte, h]

/-! ### The engine view -/

theorem State.engineView_status : s.engineView.status = { s.status with haz := false } := rfl
theorem State.engineView_eng : s.engineView.eng = s.eng := rfl

end Sys2Proof.Machine
end

