-- ==== Sys2Proof/Laws/Memory.lean ====
section
/-! SUPPORT. The laws of the byte memories: a read after a write, the canonical form, and the draws of a reset. -/

namespace Sys2Proof.Machine

variable (sp : Space)

/-! ### One byte -/

theorem Memory.written_write (m : Memory) (a : Nat) (b : Byte) (a' : Nat) :
    Memory.written (Memory.write m a b) a' = if a' = a then some b else Memory.written m a' := by
  induction m with
  | nil => by_cases h : a' = a <;> simp [Memory.write, Memory.written, h]
  | cons c m ih =>
    obtain ⟨x, y⟩ := c
    unfold Memory.write
    split
    · by_cases h : a' = a <;> simp [Memory.written, h]
    · split
      · rename_i _ hx
        subst hx
        by_cases h : a' = a <;> simp [Memory.written, h]
      · rename_i hlt hne
        by_cases h : a' = x
        · subst h
          simp only [Memory.written, if_true, if_neg (Ne.symm hne)]
        · simp [Memory.written, h, ih]

@[simp] theorem Memory.read_write_same (m : Memory) (a : Nat) (b : Byte) :
    Memory.read sp (Memory.write m a b) a = b := by
  simp [Memory.read, Memory.written_write]

theorem Memory.read_write_other (m : Memory) {a a' : Nat} (b : Byte) (h : a' ≠ a) :
    Memory.read sp (Memory.write m a b) a' = Memory.read sp m a' := by
  simp [Memory.read, Memory.written_write, h]

theorem Memory.read_write (m : Memory) (a : Nat) (b : Byte) (a' : Nat) :
    Memory.read sp (Memory.write m a b) a' = if a' = a then b else Memory.read sp m a' := by
  by_cases h : a' = a
  · subst h; simp
  · simp [Memory.read_write_other sp m b h, h]

/-! ### The canonical form -/

/-- What a write lists: the new pair, and pairs that were there. -/
theorem Memory.mem_write {m : Memory} {a : Nat} {b : Byte} {c : Host.Cell} (h : c ∈ Memory.write m a b) :
    c = (a, b) ∨ c ∈ m := by
  induction m with
  | nil => simpa [Memory.write] using h
  | cons d m ih =>
    obtain ⟨x, y⟩ := d
    unfold Memory.write at h
    split at h
    · simpa using h
    · split at h
      · rcases List.mem_cons.1 h with h | h
        · exact .inl h
        · exact .inr (List.mem_cons_of_mem _ h)
      · rcases List.mem_cons.1 h with h | h
        · exact .inr (h ▸ List.mem_cons_self ..)
        · exact (ih h).imp id (List.mem_cons_of_mem _)

theorem Memory.wf_write {m : Memory} (h : Memory.wf m) (a : Nat) (b : Byte) : Memory.wf (Memory.write m a b) := by
  induction m with
  | nil => simp [Memory.wf, Memory.write]
  | cons d m ih =>
    obtain ⟨x, y⟩ := d
    obtain ⟨hx, hm⟩ := List.pairwise_cons.1 h
    unfold Memory.write
    split
    · rename_i hax
      refine List.pairwise_cons.2 ⟨fun c hc => ?_, h⟩
      rcases List.mem_cons.1 hc with rfl | hc
      · exact hax
      · exact Nat.lt_trans hax (hx c hc)
    · split
      · rename_i _ hax
        subst hax
        exact List.pairwise_cons.2 ⟨hx, hm⟩
      · refine List.pairwise_cons.2 ⟨fun c hc => ?_, ih hm⟩
        rcases Memory.mem_write hc with rfl | hc
        · change x < a; omega
        · exact hx c hc

/-- Every write inside the capacity keeps the canonical form and the capacity. -/
theorem Memory.fits_write {m : Memory} {cap a : Nat} (h : m.fits cap) (ha : a < cap) (b : Byte) :
    (Memory.write m a b).fits cap :=
  ⟨Memory.wf_write h.1 a b, fun c hc => by
    rcases Memory.mem_write hc with rfl | hc
    · exact ha
    · exact h.2 c hc⟩

theorem Memory.fits_nil (cap : Nat) : Memory.fits [] cap := by simp [Memory.fits, Memory.wf]

/-! ### Blocks -/

theorem Memory.wf_writeBE {m : Memory} (h : Memory.wf m) (a n v : Nat) : Memory.wf (Memory.writeBE m a n v) := by
  induction n generalizing v with
  | zero => exact h
  | succ n ih => exact Memory.wf_write (ih _) _ _

/-- Every block write inside the capacity keeps the canonical form and the capacity. -/
theorem Memory.fits_writeBE {m : Memory} {cap a n : Nat} (h : m.fits cap) (ha : a + n ≤ cap) (v : Nat) :
    (Memory.writeBE m a n v).fits cap := by
  induction n generalizing v with
  | zero => exact h
  | succ n ih => exact Memory.fits_write (ih (by omega) _) (by omega) _

theorem Memory.read_writeBE_outside (m : Memory) (a n v : Nat) {b : Nat} (h : b < a ∨ a + n ≤ b) :
    Memory.read sp (Memory.writeBE m a n v) b = Memory.read sp m b := by
  induction n generalizing v with
  | zero => rfl
  | succ n ih =>
    rw [Memory.writeBE, Memory.read_write_other sp _ _ (by omega), ih _ (by omega)]

/-- A block read depends on the bytes of the block alone. -/
theorem Memory.readBE_congr {m m' : Memory} {a n : Nat}
    (h : ∀ b, a ≤ b → b < a + n → Memory.read sp m' b = Memory.read sp m b) :
    Memory.readBE sp m' a n = Memory.readBE sp m a n := by
  induction n with
  | zero => rfl
  | succ n ih =>
    rw [Memory.readBE, Memory.readBE, ih fun b h1 h2 => h b h1 (by omega), h _ (by omega) (by omega)]

theorem Memory.readBE_lt (m : Memory) (a n : Nat) : Memory.readBE sp m a n < 256 ^ n := by
  induction n with
  | zero => simp [Memory.readBE]
  | succ n ih =>
    have := (Memory.read sp m (a + n)).isLt
    rw [Memory.readBE, Nat.pow_succ]
    omega

/-- Two memories that read the same n-byte block have the same bytes in it. -/
theorem Memory.read_of_readBE {m m' : Memory} {a n : Nat}
    (h : Memory.readBE sp m' a n = Memory.readBE sp m a n) :
    ∀ b, a ≤ b → b < a + n → Memory.read sp m' b = Memory.read sp m b := by
  induction n with
  | zero => intro b h1 h2; omega
  | succ n ih =>
    intro b h1 h2
    have e1 := (Memory.read sp m (a + n)).isLt
    have e2 := (Memory.read sp m' (a + n)).isLt
    rw [Memory.readBE, Memory.readBE] at h
    by_cases hb : b = a + n
    · subst hb; exact BitVec.eq_of_toNat_eq (by omega)
    · exact ih (by omega) b h1 (by omega)

/-! ### The draws of a reset -/

theorem Memory.written_append (m m' : Memory) (a : Nat) :
    Memory.written (m ++ m') a = (Memory.written m a).or (Memory.written m' a) := by
  induction m with
  | nil => rfl
  | cons c m ih =>
    obtain ⟨x, y⟩ := c
    by_cases h : a = x <;> simp [Memory.written, h, ih]

theorem Memory.written_filter (m : Memory) {n a : Nat} (h : n ≤ a) :
    Memory.written (m.filter (fun c => n ≤ c.1)) a = Memory.written m a := by
  induction m with
  | nil => rfl
  | cons c m ih =>
    obtain ⟨x, y⟩ := c
    by_cases hx : n ≤ x
    · by_cases ha : a = x <;> simp [Memory.written, hx, ha, ih]
    · have ha : a ≠ x := by omega
      simp [Memory.written, hx, ha, ih]

theorem Memory.written_draws (l : List Nat) (k a : Nat) :
    Memory.written (l.map (fun a => (a, Config.drawByte (k + a)))) a =
      if a ∈ l then some (Config.drawByte (k + a)) else none := by
  induction l with
  | nil => rfl
  | cons x l ih =>
    by_cases h : a = x
    · subst h; simp [Memory.written]
    · simp [Memory.written, h, ih]

theorem Memory.read_redraw_below (m : Memory) {n a : Nat} (k : Nat) (h : a < n) :
    Memory.read sp (Memory.redraw m n k) a = Config.drawByte (k + a) := by
  simp [Memory.read, Memory.redraw, Memory.written_append, Memory.written_draws, h]

theorem Memory.read_redraw_above (m : Memory) {n a : Nat} (k : Nat) (h : n ≤ a) :
    Memory.read sp (Memory.redraw m n k) a = Memory.read sp m a := by
  have : ¬ a < n := by omega
  simp only [Memory.read, Memory.redraw, Memory.written_append, Memory.written_draws, Memory.written_filter m h,
    List.mem_range, this, if_false, Option.none_or]

@[simp] theorem Memory.redraw_zero (m : Memory) (k : Nat) : Memory.redraw m 0 k = m := by
  simp [Memory.redraw]

/-- A redraw inside the capacity keeps the canonical form and the capacity. -/
theorem Memory.fits_redraw {m : Memory} {cap n : Nat} (h : m.fits cap) (hn : n ≤ cap) (k : Nat) :
    (Memory.redraw m n k).fits cap := by
  constructor
  · refine List.pairwise_append.2 ⟨?_, h.1.filter _, ?_⟩
    · rw [List.pairwise_map]
      exact List.pairwise_lt_range
    · intro c hc d hd
      simp only [List.mem_map, List.mem_range] at hc
      obtain ⟨x, hx, rfl⟩ := hc
      have := (List.mem_filter.1 hd).2
      have : n ≤ d.1 := by simpa using this
      exact Nat.lt_of_lt_of_le hx this
  · intro c hc
    rcases List.mem_append.1 hc with hc | hc
    · simp only [List.mem_map, List.mem_range] at hc
      obtain ⟨x, hx, rfl⟩ := hc
      exact Nat.lt_of_lt_of_le hx hn
    · exact h.2 c (List.mem_filter.1 hc).1

end Sys2Proof.Machine
end

