-- ==== Sys2Proof/Laws/Operands.lean ====
section
/-! SUPPORT. The laws of the wrap counters, the block-size mux and the key schedule. -/

namespace Sys2Proof.Machine

/-! ### Wrap counters -/

/-- A wrap counter below its length counts modulo the length (R81, R82). -/
theorem wrapInc_toNat {ptr len : Word} (h : ptr.toNat < len.toNat) :
    (wrapInc ptr len).toNat = (ptr.toNat + 1) % len.toNat := by
  have hl := len.isLt
  have e : (ptr + 1).toNat = ptr.toNat + 1 := by
    rw [BitVec.toNat_add]; exact Nat.mod_eq_of_lt (by simp; omega)
  unfold wrapInc
  split
  · rename_i hp
    have : ptr.toNat + 1 = len.toNat := by rw [← e, hp]
    rw [this, Nat.mod_self]; rfl
  · rename_i hp
    have : ptr.toNat + 1 ≠ len.toNat := fun hc => hp (BitVec.eq_of_toNat_eq (e.trans hc))
    rw [e, Nat.mod_eq_of_lt (by omega)]

/-- A pointer that counts modulo the length goes on doing so (R82). -/
theorem wrapInc_mod {ptr len : Word} {i : Nat} (hl : 0 < len.toNat) (h : ptr.toNat = i % len.toNat) :
    (wrapInc ptr len).toNat = (i + 1) % len.toNat := by
  rw [wrapInc_toNat (h ▸ Nat.mod_lt _ hl), h, Nat.mod_add_mod]

/-! ### The block-size mux -/

/-- What the mux answers: a length from 1 to 4, the symbol less 0x30 (R103). -/
theorem blockLength_some {sym : Byte} {L : Nat} (h : blockLength sym = some L) :
    sym.toNat = 0x30 + L ∧ 1 ≤ L ∧ L ≤ 4 := by
  unfold blockLength at h
  split at h
  · rename_i e; subst e; cases h; decide
  · split at h
    · rename_i e; subst e; cases h; decide
    · split at h
      · rename_i e; subst e; cases h; decide
      · split at h
        · rename_i e; subst e; cases h; decide
        · cases h

/-- A symbol from '1' to '4' has the length symbol − 0x30 (R103). -/
theorem blockLength_of_range {sym : Byte} (h1 : 0x31 ≤ sym.toNat) (h2 : sym.toNat ≤ 0x34) :
    blockLength sym = some (sym.toNat - 0x30) := by
  obtain h | h | h | h : sym = 0x31 ∨ sym = 0x32 ∨ sym = 0x33 ∨ sym = 0x34 := by
    simp only [← BitVec.toNat_inj]; simp; omega
  all_goals subst h; rfl

/-! ### What the schedule depends on -/

theorem State.keyByteAt_congr {s t : State} (h1 : t.skLen = s.skLen) (h2 : t.skey = s.skey) (i : Nat) :
    t.keyByteAt i = s.keyByteAt i := by
  simp [State.keyByteAt, State.byte, h1, h2]

theorem State.shiftWordAt_congr {s t : State} (h1 : t.skLen = s.skLen) (h2 : t.skey = s.skey) (p : Nat) :
    t.shiftWordAt p = s.shiftWordAt p := by
  simp [State.shiftWordAt, State.keyByteAt_congr h1 h2]

theorem State.blockLengthAt_congr {s t : State} (h1 : t.bkLen = s.bkLen) (h2 : t.bkey = s.bkey) (p : Nat) :
    t.blockLengthAt p = s.blockLengthAt p := by
  simp [State.blockLengthAt, State.blockSymbolAt, State.byte, h1, h2]

theorem State.blockStart_congr {s t : State} (h1 : t.bkLen = s.bkLen) (h2 : t.bkey = s.bkey) (p : Nat) :
    t.blockStart p = s.blockStart p := by
  induction p with
  | zero => rfl
  | succ p ih => simp [State.blockStart, ih, State.blockLengthAt_congr h1 h2]

theorem State.blockStart_mono (s : State) {p q : Nat} (h : p ≤ q) : s.blockStart p ≤ s.blockStart q := by
  induction q with
  | zero => simp [Nat.le_zero.1 h]
  | succ q ih =>
    rcases Nat.lt_or_ge p (q + 1) with h' | h'
    · exact Nat.le_trans (ih (by omega)) (Nat.le_add_right _ _)
    · rw [Nat.le_antisymm h h']

end Sys2Proof.Machine
end

