-- ==== Sys2Proof/Laws/Validate.lean ====
section
/-! SUPPORT. The laws of validation: what it depends on, and what a passing verdict says. -/

namespace Sys2Proof.Machine

/-! ### What validation reads (R70) -/

/-- Two states with the same parameters, length registers and block-size key. -/
structure State.SameOperands (s t : State) : Prop where
  params : t.params = s.params
  size   : t.size = s.size
  skLen  : t.skLen = s.skLen
  bkLen  : t.bkLen = s.bkLen
  bkey   : t.bkey = s.bkey

theorem State.derivedMode_congr {s t : State} (h : s.SameOperands t) : t.derivedMode = s.derivedMode := by
  simp [State.derivedMode, h.bkLen]

theorem State.partitionWalk_congr {s t : State} (h : s.SameOperands t) (fuel n p : Nat) :
    t.partitionWalk fuel n p = s.partitionWalk fuel n p := by
  induction fuel generalizing n p with
  | zero => rfl
  | succ f ih => simp [State.partitionWalk, h.size, ih, State.blockLengthAt_congr h.bkLen h.bkey]

/-- Validation reads the parameters, the length registers and the block-size key, and nothing else (R70). -/
theorem State.validate_congr {s t : State} (h : s.SameOperands t) (op : Op) (m : Mode) :
    t.validate op m = s.validate op m := by
  have h1 : t.lengthMask op = s.lengthMask op := by
    simp [State.lengthMask, h.params, h.size, h.skLen, h.bkLen]
  have h2 : t.firstBadSymbol = s.firstBadSymbol := by
    simp [State.firstBadSymbol, h.bkLen, State.byte, h.bkey]
  have h3 : t.partitionVerdict = s.partitionVerdict := by
    simp [State.partitionVerdict, h.size, State.partitionWalk_congr h]
  simp only [State.validate, h1, h2, h3, h.skLen, h.bkLen, h.size]

theorem State.runSteps_congr {s t : State} (h : s.SameOperands t) (op : Op) (m : Mode) (k : Nat) :
    t.runSteps op m k = s.runSteps op m k := by
  unfold State.runSteps; rw [h.size]

theorem State.commandSteps_congr {s t : State} (h : s.SameOperands t) (op : Op) (m : Mode) :
    t.commandSteps op m = s.commandSteps op m := by
  simp [State.commandSteps, State.validate_congr h, State.runSteps_congr h]

/-! ### The length check (R65) -/

/-- The length check of an operation that reads the keys passes exactly when every length is in range. -/
theorem State.lengthMask_eq_zero (s : State) {op : Op} (h : op.readsKeys = true) :
    s.lengthMask op = 0 ↔
      s.size.toNat ≤ s.params.bufMax ∧ s.skLen.toNat ≤ s.params.skMax ∧ s.bkLen.toNat ≤ s.params.bkMax := by
  unfold State.lengthMask
  rw [h]
  by_cases h1 : s.params.bufMax < s.size.toNat <;> by_cases h2 : s.params.skMax < s.skLen.toNat <;>
    by_cases h3 : s.params.bkMax < s.bkLen.toNat <;> (simp [h1, h2, h3]; try omega)

/-- For NORM only SIZE is checked. -/
theorem State.lengthMask_norm (s : State) : s.lengthMask .norm = 0 ↔ s.size.toNat ≤ s.params.bufMax := by
  unfold State.lengthMask
  by_cases h1 : s.params.bufMax < s.size.toNat <;> (simp [Op.readsKeys, h1]; try omega)

/-! ### The partition walk (R68) -/

/-- The walk from the start of block p ends at a block boundary: at the first one at or past SIZE if the fuel lasts. -/
theorem State.partitionWalk_spec (s : State) (hpos : ∀ p, 1 ≤ s.blockLengthAt p) (fuel p : Nat)
    (hf : s.size.toNat ≤ s.blockStart p + fuel) :
    ∃ q, p ≤ q ∧ q ≤ p + fuel ∧ s.partitionWalk fuel (s.blockStart p) p = (s.blockStart q, q) ∧
      s.size.toNat ≤ s.blockStart q ∧ ∀ r, p ≤ r → r < q → s.blockStart r < s.size.toNat := by
  induction fuel generalizing p with
  | zero => exact ⟨p, Nat.le_refl _, Nat.le_refl _, rfl, by omega, fun r h1 h2 => by omega⟩
  | succ f ih =>
    by_cases h : s.blockStart p < s.size.toNat
    · have hp := hpos p
      obtain ⟨q, h1, h2, h3, h4, h5⟩ := ih (p + 1) (by simp only [State.blockStart]; omega)
      refine ⟨q, by omega, by omega, ?_, h4, fun r hr hq => ?_⟩
      · rw [State.partitionWalk, if_pos h]; exact h3
      · rcases Nat.lt_or_ge p r with hpr | hpr
        · exact h5 r hpr hq
        · rwa [Nat.le_antisymm hpr hr]
    · exact ⟨p, Nat.le_refl _, by omega, by rw [State.partitionWalk, if_neg h], by omega, fun r h1 h2 => by omega⟩

/-- Every symbol of the key is '1' to '4' exactly where R67 finds no bad one. -/
theorem State.firstBadSymbol_none (s : State) (h : s.firstBadSymbol = none) {j : Nat} (hj : j < s.bkLen.toNat) :
    ∃ L, blockLength (s.byte .bkey j) = some L := by
  have := List.find?_eq_none.1 h j (List.mem_range.2 hj)
  exact Option.ne_none_iff_exists'.1 (by simpa using this)

/-- With every symbol legal, each block of the schedule has the length the mux gives, from 1 to 4. -/
theorem State.blockLengthAt_spec (s : State) (hb : s.firstBadSymbol = none) (h0 : s.bkLen ≠ 0) (p : Nat) :
    blockLength (s.blockSymbolAt p) = some (s.blockLengthAt p) ∧ 1 ≤ s.blockLengthAt p ∧ s.blockLengthAt p ≤ 4 := by
  have hpos : 0 < s.bkLen.toNat := Nat.pos_of_ne_zero fun h => h0 (BitVec.eq_of_toNat_eq (by simpa using h))
  obtain ⟨L, hL⟩ := s.firstBadSymbol_none hb (Nat.mod_lt p hpos)
  have h := blockLength_some hL
  have e : s.blockLengthAt p = L := by
    simp only [State.blockLengthAt, State.blockSymbolAt]; omega
  rw [e]
  exact ⟨hL, h.2⟩

/-! ### A passing verdict -/

/-- What a passing validation of XFORM or CHECK in MV2 mode says of a nonempty block-size key (R65 to R68). -/
structure State.Mv2Valid (s : State) (k : Nat) : Prop where
  size_le : s.size.toNat ≤ s.params.bufMax
  sk_le   : s.skLen.toNat ≤ s.params.skMax
  bk_le   : s.bkLen.toNat ≤ s.params.bkMax
  sk_pos  : 1 ≤ s.skLen.toNat
  good    : s.firstBadSymbol = none
  total   : s.blockStart k = s.size.toNat

theorem word_ne_zero {w : Word} : w ≠ 0 ↔ 1 ≤ w.toNat := by
  constructor
  · intro h; exact Nat.pos_of_ne_zero fun e => h (BitVec.eq_of_toNat_eq (by simpa using e))
  · rintro h rfl; simp at h

theorem State.validate_mv2_ok (s : State) {op : Op} {k : Nat} (hop : op.readsKeys = true) (h0 : s.bkLen ≠ 0)
    (h : s.validate op .mv2 = .ok k) : s.Mv2Valid k := by
  have hn : op ≠ .norm := by rintro rfl; simp [Op.readsKeys] at hop
  unfold State.validate at h
  by_cases hm : s.lengthMask op ≠ 0
  · rw [if_pos hm] at h; cases h
  · rw [if_neg hm] at h
    obtain ⟨h1, h2, h3⟩ := (s.lengthMask_eq_zero hop).1 (not_not.1 hm)
    rw [if_neg hn] at h
    by_cases hs : s.skLen = 0
    · rw [if_pos hs] at h; cases h
    · rw [if_neg hs, if_neg (by decide), if_neg (fun hc => h0 hc.1)] at h
      split at h
      · cases h
      · rename_i hb
        obtain ⟨q, -, -, hw, hq, -⟩ := s.partitionWalk_spec (fun p => (s.blockLengthAt_spec hb h0 p).2.1)
          s.size.toNat 0 (Nat.le_add_left _ _)
        have hw : s.partitionWalk s.size.toNat 0 0 = (s.blockStart q, q) := hw
        simp only [State.partitionVerdict, hw] at h
        split at h
        · cases h
        · cases h
          exact ⟨h1, h2, h3, word_ne_zero.1 hs, hb, by omega⟩

/-- A passing validation of XFORM in ASCII mode: the lengths are in range, the key is not empty, and no block is
counted (R65, R66). -/
theorem State.validate_ascii_ok (s : State) {op : Op} (hop : op.readsKeys = true) (k : Nat) :
    s.validate op .ascii = .ok k ↔
      k = 0 ∧ s.size.toNat ≤ s.params.bufMax ∧ s.skLen.toNat ≤ s.params.skMax ∧ s.bkLen.toNat ≤ s.params.bkMax ∧
      1 ≤ s.skLen.toNat := by
  have hn : op ≠ .norm := by rintro rfl; simp [Op.readsKeys] at hop
  have hm := s.lengthMask_eq_zero hop
  have hs := word_ne_zero (w := s.skLen)
  unfold State.validate
  by_cases h1 : s.lengthMask op = 0
  · by_cases h2 : s.skLen = 0
    · simp [h1, h2, hn]
    · have := hm.1 h1
      have := hs.1 h2
      simp only [h1, h2, hn, ne_eq, not_true_eq_false, if_false, if_true, Verdict.ok.injEq]
      omega
  · have : ¬ (s.size.toNat ≤ s.params.bufMax ∧ s.skLen.toNat ≤ s.params.skMax ∧ s.bkLen.toNat ≤ s.params.bkMax) :=
      fun h => h1 (hm.2 h)
    simp only [h1, ne_eq, not_false_eq_true, if_true, false_iff, reduceCtorEq]
    tauto

/-- A passing validation of NORM: SIZE is in range (R65, R70). -/
theorem State.validate_norm_ok (s : State) (m : Mode) (k : Nat) :
    s.validate .norm m = .ok k ↔ k = 0 ∧ s.size.toNat ≤ s.params.bufMax := by
  have hm := s.lengthMask_norm
  unfold State.validate
  by_cases h1 : s.lengthMask .norm = 0
  · have := hm.1 h1
    simp only [h1, ne_eq, not_true_eq_false, if_false, if_true, Verdict.ok.injEq]; omega
  · have : ¬ s.size.toNat ≤ s.params.bufMax := fun h => h1 (hm.2 h)
    simp only [h1, ne_eq, not_false_eq_true, if_true, reduceCtorEq, false_iff]; tauto

/-- XFORM and CHECK share their verdict (R76). -/
theorem State.validate_check (s : State) (m : Mode) : s.validate .check m = s.validate .xform m := by
  simp [State.validate, State.lengthMask, Op.readsKeys]

/-- The block count is at most SIZE: each block has at least one byte (R68). -/
theorem State.Mv2Valid.count_le {s : State} {k : Nat} (h : s.Mv2Valid k) (h0 : s.bkLen ≠ 0) : k ≤ s.size.toNat := by
  have : ∀ p, p ≤ s.blockStart p := by
    intro p
    induction p with
    | zero => exact Nat.le_refl _
    | succ p ih =>
      have := (s.blockLengthAt_spec h.good h0 p).2.1
      rw [State.blockStart]; omega
  exact h.total ▸ this k

/-- Validation never meets a state it has no meaning for where the mode is the one BK_LEN gives. -/
theorem State.validate_ne_noMeaning (s : State) {op : Op} {m : Mode} (h : op = .norm ∨ m = s.derivedMode) :
    s.validate op m ≠ .noMeaning := by
  unfold State.validate
  split
  · simp
  · split
    · simp
    · rename_i hn
      obtain rfl := h.resolve_left hn
      split
      · simp
      · split
        · simp
        · rename_i hm
          have h0 : s.bkLen ≠ 0 := fun h => hm (by simp [State.derivedMode, h])
          rw [if_neg (fun hc => h0 hc.1)]
          split
          · simp
          · simp only [State.partitionVerdict]; split <;> simp

end Sys2Proof.Machine
end

