-- ==== Sys2Proof/Laws/Engine.lean ====
section
/-! SUPPORT. The laws of the engine: what each step does where its operands are in reach, and what it can do at all. -/

namespace Sys2Proof.Machine

/-! ### FINISH -/

/-- Everything FINISH can do (R74, R75). -/
theorem finishStep_cases {s t : State} (h : finishStep s = .next t) :
    (s.eng.ecode = 0 ∧ t = s.completeOk) ∨
    (s.eng.ecode ≠ 0 ∧ s.eng.ecode.toNat ≤ 5 ∧ t = s.completeError) := by
  unfold finishStep at h
  split at h
  · cases h; exact .inl ⟨‹_›, rfl⟩
  · split at h
    · cases h; exact .inr ⟨‹_›, ‹_›, rfl⟩
    · cases h

theorem ErrorCode.code_ne_zero (c : ErrorCode) : c.code ≠ 0 := by cases c <;> decide
theorem ErrorCode.code_le (c : ErrorCode) : c.code.toNat ≤ 5 := by cases c <;> decide

/-! ### VALIDATE -/

/-- Everything VALIDATE can do (R64). -/
theorem validateStep_cases (s : State) :
    (∃ c info, s.validate s.eng.op s.eng.mode = .err c info ∧ validateStep s = s.pendError c info) ∨
    (∃ k ph, s.validate s.eng.op s.eng.mode = .ok k ∧ s.phaseValidated k = some ph ∧
      validateStep s = { s with eng := { s.eng with nblk := BitVec.ofNat 32 k, phase := ph } }) ∨
    (validateStep s = s.markRefused ∧
      (s.validate s.eng.op s.eng.mode = .noMeaning ∨ s.eng.op = .nop ∨ s.eng.op = .illegal)) := by
  unfold validateStep
  split
  · exact .inl ⟨_, _, ‹_›, rfl⟩
  · rename_i k hk
    split
    · exact .inr (.inl ⟨_, _, hk, ‹_›, rfl⟩)
    · rename_i hp
      refine .inr (.inr ⟨rfl, .inr ?_⟩)
      unfold State.phaseValidated at hp
      split at hp
      · cases hp
      · cases hp
      · split at hp <;> cases hp
      · exact .inl ‹_›
      · exact .inr ‹_›
  · exact .inr (.inr ⟨rfl, .inl ‹_›⟩)

/-- The phase after a passing validation is a run phase exactly where there is something to run (R64). -/
theorem State.phaseValidated_ne_idle {s : State} {k : Nat} {ph : Phase} (h : s.phaseValidated k = some ph) :
    ph ≠ .idle ∧ ph ≠ .validate := by
  unfold State.phaseValidated at h
  split at h
  · cases h; decide
  · cases h; split <;> decide
  · split at h
    · cases h; split <;> decide
    · cases h; split <;> decide
  · cases h
  · cases h

/-! ### The run steps -/

theorem State.phaseAfter_eq (s : State) (n : Word) :
    s.phaseAfter n = if n.toNat = s.size.toNat then .finish else s.eng.phase := by
  simp only [State.phaseAfter, ← BitVec.toNat_inj]

theorem State.bufReady_iff (s : State) (L : Nat) :
    s.bufReady L = true ↔ s.eng.n.toNat + L ≤ s.size.toNat ∧ s.size.toNat ≤ s.params.bufMax := by
  simp [State.bufReady]

theorem State.skeyReady_iff (s : State) :
    s.skeyReady = true ↔ s.eng.kp.toNat < s.skLen.toNat ∧ s.skLen.toNat ≤ s.params.skMax := by
  simp [State.skeyReady]

theorem State.bkeyReady_iff (s : State) :
    s.bkeyReady = true ↔ s.eng.bp.toNat < s.bkLen.toNat ∧ s.bkLen.toNat ≤ s.params.bkMax := by
  simp [State.bkeyReady]

/-- Everything the NORM step can do (R93). -/
theorem normStep_cases (s : State) :
    (s.eng.n.toNat + 1 ≤ s.size.toNat ∧ s.size.toNat ≤ s.params.bufMax ∧ normStep s =
      { s with
        buf := s.buf.write s.eng.n.toNat (normalize (s.byte .buf s.eng.n.toNat))
        eng := { s.eng with n := s.eng.n + 1, phase := s.phaseAfter (s.eng.n + 1) } }) ∨
    (¬ (s.eng.n.toNat + 1 ≤ s.size.toNat ∧ s.size.toNat ≤ s.params.bufMax) ∧ normStep s = s.markRefused) := by
  unfold normStep
  split
  · rename_i h; exact .inl ⟨((s.bufReady_iff 1).1 h).1, ((s.bufReady_iff 1).1 h).2, rfl⟩
  · rename_i h; exact .inr ⟨fun hc => h ((s.bufReady_iff 1).2 hc), rfl⟩

/-- Everything the ALPHA step can do (R100). -/
theorem alphaStep_cases (s : State) :
    (s.eng.n.toNat + 1 ≤ s.size.toNat ∧ s.size.toNat ≤ s.params.bufMax ∧ s.eng.kp.toNat < s.skLen.toNat ∧
      s.skLen.toNat ≤ s.params.skMax ∧ alphaStep s =
      { s with
        buf := s.buf.write s.eng.n.toNat
          (alphaByte (normalize (s.byte .buf s.eng.n.toNat)) (s.byte .skey s.eng.kp.toNat) s.eng.dir)
        eng := { s.eng with
                 kp := wrapInc s.eng.kp s.skLen, n := s.eng.n + 1, phase := s.phaseAfter (s.eng.n + 1) } }) ∨
    (¬ (s.eng.n.toNat + 1 ≤ s.size.toNat ∧ s.size.toNat ≤ s.params.bufMax ∧ s.eng.kp.toNat < s.skLen.toNat ∧
      s.skLen.toNat ≤ s.params.skMax) ∧ alphaStep s = s.markRefused) := by
  unfold alphaStep
  have h1 := s.bufReady_iff 1
  have h2 := s.skeyReady_iff
  split
  · rename_i h
    rw [Bool.and_eq_true, h1, h2] at h
    exact .inl ⟨h.1.1, h.1.2, h.2.1, h.2.2, rfl⟩
  · rename_i h
    rw [Bool.and_eq_true, h1, h2] at h
    exact .inr ⟨fun hc => h ⟨⟨hc.1, hc.2.1⟩, hc.2.2⟩, rfl⟩

/-- Everything the BLOCK step can do (R111). -/
theorem blockStep_cases (s : State) :
    (∃ L, blockLength (s.byte .bkey s.eng.bp.toNat) = some L ∧ s.eng.bp.toNat < s.bkLen.toNat ∧
      s.bkLen.toNat ≤ s.params.bkMax ∧ s.eng.kp.toNat < s.skLen.toNat ∧ s.skLen.toNat ≤ s.params.skMax ∧
      s.eng.n.toNat + L ≤ s.size.toNat ∧ s.size.toNat ≤ s.params.bufMax ∧ blockStep s = blockStepWith s L) ∨
    ((∀ L, blockLength (s.byte .bkey s.eng.bp.toNat) = some L → ¬ (s.eng.bp.toNat < s.bkLen.toNat ∧
      s.bkLen.toNat ≤ s.params.bkMax ∧ s.eng.kp.toNat < s.skLen.toNat ∧ s.skLen.toNat ≤ s.params.skMax ∧
      s.eng.n.toNat + L ≤ s.size.toNat ∧ s.size.toNat ≤ s.params.bufMax)) ∧ blockStep s = s.markRefused) := by
  unfold blockStep
  have h2 := s.skeyReady_iff
  have h3 := s.bkeyReady_iff
  split
  · rename_i h
    rw [Bool.and_eq_true, h2, h3] at h
    split
    · rename_i L hL
      have h1 := s.bufReady_iff L
      split
      · rename_i hb
        rw [h1] at hb
        exact .inl ⟨L, hL, h.1.1, h.1.2, h.2.1, h.2.2, hb.1, hb.2, rfl⟩
      · rename_i hb
        rw [h1] at hb
        refine .inr ⟨fun L' hL' hc => hb ?_, rfl⟩
        cases hL.symm.trans hL'
        exact ⟨hc.2.2.2.2.1, hc.2.2.2.2.2⟩
    · rename_i hn
      exact .inr ⟨fun L' hL' => (nomatch hn.symm.trans hL'), rfl⟩
  · rename_i h
    rw [Bool.and_eq_true, h2, h3] at h
    exact .inr ⟨fun L' _ hc => h ⟨⟨hc.1, hc.2.1⟩, hc.2.2.1, hc.2.2.2.1⟩, rfl⟩

theorem blockStepWith_kp (s : State) (L : Nat) : (blockStepWith s L).eng.kp =
    wrapInc (wrapInc (wrapInc (wrapInc s.eng.kp s.skLen) s.skLen) s.skLen) s.skLen := by
  simp only [blockStepWith]

theorem blockStepWith_bp (s : State) (L : Nat) : (blockStepWith s L).eng.bp = wrapInc s.eng.bp s.bkLen := by
  simp only [blockStepWith]

/-- The BLOCK step where the key pointers are those of block p: the schedule's length and shift word are used, and the
pointers move on to block p + 1 (R84 to R87, R105, R111). -/
theorem blockStepWith_pointers (s : State) (L p : Nat) (hs : 0 < s.skLen.toNat) (hb : 0 < s.bkLen.toNat)
    (hk : s.eng.kp.toNat = 4 * p % s.skLen.toNat) (hp : s.eng.bp.toNat = p % s.bkLen.toNat) :
    (blockStepWith s L).buf = s.buf.writeBE s.eng.n.toNat L
      (blockAdd L s.eng.dir (Memory.readBE .buf s.buf s.eng.n.toNat L) (s.shiftWordAt p)) ∧
    (blockStepWith s L).eng.kp.toNat = 4 * (p + 1) % s.skLen.toNat ∧
    (blockStepWith s L).eng.bp.toNat = (p + 1) % s.bkLen.toNat := by
  have h1 := wrapInc_mod hs hk
  have h2 := wrapInc_mod hs h1
  have h3 := wrapInc_mod hs h2
  have h4 := wrapInc_mod hs h3
  refine ⟨?_, ?_, by rw [blockStepWith_bp]; exact wrapInc_mod hb hp⟩
  · simp only [blockStepWith, State.shiftWordAt, State.keyByteAt, ← hk, ← h1, ← h2, ← h3]
  · rw [show 4 * (p + 1) = 4 * p + 1 + 1 + 1 + 1 by omega, ← h4, blockStepWith_kp]

/-! ### One engine step -/

/-- Everything one engine step can do, by phase (R63). -/
theorem engineStep_cases {s t : State} (h : engineStep s = .next t) :
    (s.eng.phase = .idle ∧ t = s.markRefused) ∨ (s.eng.phase = .validate ∧ t = validateStep s) ∨
    (s.eng.phase = .normRun ∧ t = normStep s) ∨ (s.eng.phase = .alphaRun ∧ t = alphaStep s) ∨
    (s.eng.phase = .mv2Run ∧ t = blockStep s) ∨ (s.eng.phase = .finish ∧ finishStep s = .next t) := by
  unfold engineStep at h
  split at h <;> simp_all

end Sys2Proof.Machine
end

