-- ==== Sys2Proof/Laws/HostPort.lean ====
section
/-! SUPPORT. The laws of command submission, of the host port and of the reset event: everything each can do. -/

namespace Sys2Proof.Machine

/-! ### Submission (R17, R61) -/

theorem State.submit_busy {s : State} (h : s.status.busy = true) (w : Word) (op : Op) (d : Dir) :
    s.submit w op d = s.dropWrite := by simp [State.submit, h]

theorem State.submit_idle {s : State} (h : s.status.busy = false) (w : Word) (op : Op) (d : Dir) :
    s.submit w op d = s.accept w op d := by simp [State.submit, h]

theorem State.submitIllegal_busy {s : State} (h : s.status.busy = true) (w : Word) :
    s.submitIllegal w = s.dropWrite := by simp [State.submitIllegal, h]

theorem State.submitIllegal_idle {s : State} (h : s.status.busy = false) (w : Word) :
    s.submitIllegal w = (s.accept w .illegal .encode).pendError .illegalCommand w := by
  simp [State.submitIllegal, h]

theorem decode_encode_legal (i : Instr) : decode (encode i) = .legal i := by cases i <;> decide

/-- Every command is dropped while busy (R17). -/
theorem exec_busy {s : State} (h : s.status.busy = true) (i : Instr) : exec i s = .next s.dropWrite := by
  cases i <;> simp only [exec, execNop, execXformEnc, execXformDec, execNorm, execCheck, State.submit_busy h]

/-- Every command is accepted while idle, as the operation and direction of its word (R53, R61). -/
theorem exec_idle {s : State} (h : s.status.busy = false) (i : Instr) :
    exec i s = .next (s.accept (encode i) (operationOf (encode i)).1 (operationOf (encode i)).2) := by
  simp only [operationOf, decode_encode_legal]
  cases i <;> simp only [exec, execNop, execXformEnc, execXformDec, execNorm, execCheck, State.submit_idle h]

/-- Everything a write to CMD can do: dropped while busy, accepted while idle (R17, R61, R77). -/
theorem writeCmd_cases (w : Word) (s : State) :
    (s.status.busy = true ∧ writeCmd w s = .next s.dropWrite) ∨
    (s.status.busy = false ∧ ∃ i, decode w = .legal i ∧ writeCmd w s = exec i s ∧
      exec i s = .next (s.accept (encode i) (operationOf (encode i)).1 (operationOf (encode i)).2)) ∨
    (s.status.busy = false ∧ ∃ why, decode w = .illegal why ∧ operationOf w = (.illegal, .encode) ∧
      writeCmd w s = .next ((s.accept w .illegal .encode).pendError .illegalCommand w)) := by
  cases hb : s.status.busy <;> cases hd : decode w <;> simp only [writeCmd, hd, operationOf]
  · exact .inr (.inl ⟨trivial, _, rfl, rfl, exec_idle hb _⟩)
  · exact .inr (.inr ⟨trivial, _, rfl, trivial, by rw [State.submitIllegal_idle hb]⟩)
  · exact .inl ⟨trivial, exec_busy hb _⟩
  · exact .inl ⟨trivial, by rw [State.submitIllegal_busy hb]⟩

theorem writeCmd_busy {s : State} (h : s.status.busy = true) (w : Word) : writeCmd w s = .next s.dropWrite := by
  rcases writeCmd_cases w s with ⟨-, h'⟩ | ⟨h', -⟩ | ⟨h', -⟩
  · exact h'
  · simp [h] at h'
  · simp [h] at h'

/-! ### The address map (R39, R41) -/

theorem decodeAddress_regAddress (p : Params) (r : Reg) : decodeAddress p (regAddress r) = .reg r := by
  cases r <;> rfl

theorem memTarget_of_lt {p : Params} {sp : Space} {off : Nat} (h : off < p.capacity sp) :
    memTarget p sp off = .mem sp off := if_pos h

theorem capacity_le {p : Params} (hp : p.wf) (sp : Space) : p.capacity sp ≤ 0x01000000 := by
  obtain ⟨⟨-, h1⟩, ⟨-, h2⟩, ⟨-, h3⟩⟩ := hp
  cases sp
  · exact h2
  · exact h3
  · exact h1

theorem decodeAddress_memAddress {p : Params} (hp : p.wf) {sp : Space} {i : Nat} (hi : i < p.capacity sp) :
    decodeAddress p (memAddress sp i) = .mem sp i := by
  have hc := capacity_le hp sp
  have e : (memAddress sp i).toNat = windowBase sp + i := by
    rw [memAddress, BitVec.toNat_ofNat]
    refine Nat.mod_eq_of_lt ?_
    cases sp <;> simp only [windowBase] <;> omega
  simp only [decodeAddress, e]
  have h0 : ¬ windowBase sp + i < 0x100 := by cases sp <;> simp only [windowBase] <;> omega
  have h1 : ¬ windowBase sp + i < 0x01000000 := by cases sp <;> simp only [windowBase] <;> omega
  rw [if_neg h0, if_neg h1]
  cases sp
  · rw [if_pos (by simp only [windowBase]; omega), Nat.add_sub_cancel_left, memTarget_of_lt hi]
  · rw [if_neg (by simp only [windowBase]; omega), if_pos (by simp only [windowBase]; omega),
      Nat.add_sub_cancel_left, memTarget_of_lt hi]
  · rw [if_neg (by simp only [windowBase]; omega), if_neg (by simp only [windowBase]; omega),
      if_pos (by simp only [windowBase]; omega), Nat.add_sub_cancel_left, memTarget_of_lt hi]

theorem regTarget_ne_mem (off : Nat) (sp : Space) (i : Nat) : regTarget off ≠ .mem sp i := by
  unfold regTarget; split
  · simp
  · split <;> simp

theorem memTarget_ne_reg (p : Params) (sp : Space) (off : Nat) (r : Reg) : memTarget p sp off ≠ .reg r := by
  unfold memTarget; split <;> simp

theorem memTarget_lt {p : Params} {sp sp' : Space} {off i : Nat} (h : memTarget p sp off = .mem sp' i) :
    i < p.capacity sp' := by
  unfold memTarget at h; split at h
  · injection h with h1 h2; subst h1 h2; assumption
  · exact Target.noConfusion h

/-- An address that reaches a memory byte reaches one the memory has. -/
theorem decodeAddress_mem_lt {p : Params} {a : Word} {sp : Space} {i : Nat}
    (h : decodeAddress p a = .mem sp i) : i < p.capacity sp := by
  unfold decodeAddress at h
  simp only at h
  split at h
  · exact (regTarget_ne_mem _ _ _ h).elim
  · split at h
    · cases h
    · repeat' split at h
      all_goals first
        | exact memTarget_lt h
        | exact Target.noConfusion h

/-- An address that reaches a register is that register's address. -/
theorem decodeAddress_reg {p : Params} {a : Word} {r : Reg} (h : decodeAddress p a = .reg r) : a = regAddress r := by
  unfold decodeAddress at h
  simp only at h
  split at h
  · unfold regTarget at h
    split at h
    · cases h
    · split at h
      · rename_i r' hr
        cases h
        have := List.find?_some hr
        refine BitVec.eq_of_toNat_eq ?_
        simp only [decide_eq_true_eq] at this
        rw [← this]
        cases r <;> rfl
      · cases h
  · split at h
    · cases h
    · repeat' split at h
      all_goals first
        | exact (memTarget_ne_reg _ _ _ _ h).elim
        | cases h

/-! ### Transactions -/

/-- Everything a host READ can do: it answers, and changes nothing but the response and, for a memory byte while busy,
the draw counter (R44, R46). -/
theorem hostRead_cases (a : Word) (s : State) :
    ∃ r n, hostRead a s = { s with resp := some r, draws := n } ∧ (s.status.busy = false → n = s.draws) := by
  unfold hostRead
  split
  · exact ⟨_, s.draws, rfl, fun _ => rfl⟩
  · unfold State.loadByte
    split
    · rename_i h; exact ⟨_, _, rfl, fun h' => by simp [h] at h'⟩
    · exact ⟨_, s.draws, rfl, fun _ => rfl⟩
  · exact ⟨_, s.draws, rfl, fun _ => rfl⟩

/-- Everything a host WRITE can do while the block is busy: CTRL.IE or the write-one-to-clear bits of STATUS, or a
dropped write, or nothing; never anything the engine works on (R17, R133). -/
theorem hostWrite_busy {s t : State} {a d : Word} (hb : s.status.busy = true) (h : hostWrite a d s = .next t) :
    ∃ r, (t = { s with ie := d.getLsbD 0, resp := some r } ∧ decodeAddress s.params a = .reg .ctrl) ∨
      (t = { s with status := s.status.writeOneToClear d, resp := some r } ∧
        decodeAddress s.params a = .reg .status) ∨
      t = { s with status := { s.status with haz := true }, resp := some r } ∨ t = { s with resp := some r } := by
  have hb' : ∀ r, (s.respond r).status.busy = true := fun _ => hb
  unfold hostWrite at h
  split at h
  · rw [writeCmd_busy (hb' _)] at h
    cases h
    exact ⟨_, .inr (.inr (.inl rfl))⟩
  · rename_i r hne hr
    injection h with h
    subst h
    cases r <;> simp only [State.writeReg, hb', if_true]
    · exact ⟨_, .inr (.inr (.inr rfl))⟩
    · exact ⟨_, .inl ⟨rfl, hr⟩⟩
    · exact ⟨_, .inr (.inr (.inr rfl))⟩
    · exact ⟨_, .inr (.inl ⟨rfl, hr⟩)⟩
    all_goals first
      | exact ⟨_, .inr (.inr (.inl rfl))⟩
      | exact ⟨_, .inr (.inr (.inr rfl))⟩
  · injection h with h
    subst h
    simp only [State.storeByte, hb', if_true]
    exact ⟨_, .inr (.inr (.inl rfl))⟩
  · injection h with h
    subst h
    exact ⟨_, .inr (.inr (.inr rfl))⟩

/-- Everything a host WRITE can do while the block is idle: a command is accepted, one register field is written, one
memory byte is stored, or only the response changes (R17, R40, R61). -/
theorem hostWrite_idle {s t : State} {a d : Word} (hb : s.status.busy = false) (h : hostWrite a d s = .next t) :
    ∃ r, (decodeAddress s.params a = .reg .cmd ∧ writeCmd d (s.respond r) = .next t) ∨
      t = { s with ie := d.getLsbD 0, resp := some r } ∨
      (t = { s with status := s.status.writeOneToClear d, resp := some r } ∧
        decodeAddress s.params a = .reg .status) ∨
      t = { s with size := d, resp := some r } ∨ t = { s with skLen := d, resp := some r } ∨
      t = { s with bkLen := d, resp := some r } ∨ t = { s with resp := some r } ∨
      ∃ sp i, i < s.params.capacity sp ∧
        t = (s.respond r).setMem sp ((s.mem sp).write i (d.setWidth 8)) := by
  have hb' : ∀ r, (s.respond r).status.busy = false := fun _ => hb
  unfold hostWrite at h
  split at h
  · exact ⟨_, .inl ⟨‹_›, h⟩⟩
  · rename_i r hne hr
    injection h with h
    subst h
    refine ⟨.writeOkay, .inr ?_⟩
    cases r <;> simp only [State.writeReg, hb', Bool.false_eq_true, if_false]
    · exact .inr (.inr (.inr (.inr (.inr (.inl rfl)))))
    · exact .inl rfl
    · exact .inr (.inr (.inr (.inr (.inr (.inl rfl)))))
    · exact .inr (.inl ⟨rfl, hr⟩)
    · exact .inr (.inr (.inl rfl))
    · exact .inr (.inr (.inr (.inl rfl)))
    · exact .inr (.inr (.inr (.inr (.inl rfl))))
    all_goals exact .inr (.inr (.inr (.inr (.inr (.inl rfl)))))
  · rename_i sp i hm
    injection h with h
    subst h
    simp only [State.storeByte, hb', Bool.false_eq_true, if_false]
    refine ⟨.writeOkay, .inr (.inr (.inr (.inr (.inr (.inr (.inr ⟨sp, i, decodeAddress_mem_lt hm, ?_⟩))))))⟩
    cases sp <;> rfl
  · injection h with h
    subst h
    exact ⟨_, .inr (.inr (.inr (.inr (.inr (.inr (.inl rfl))))))⟩

/-- No host transaction stops the machine (R37): each is answered. -/
theorem hostStep_answers (t : HostTxn) (s : State) : ∃ u, hostStep t s = .next u := by
  cases t with
  | read a => exact ⟨_, rfl⟩
  | write a d =>
    change ∃ u, hostWrite a d s = .next u
    unfold hostWrite
    split
    · rcases writeCmd_cases d (s.respond .writeOkay) with ⟨-, h⟩ | ⟨-, i, -, h, h'⟩ | ⟨-, _, -, -, h⟩
      · exact ⟨_, h⟩
      · exact ⟨_, h.trans h'⟩
      · exact ⟨_, h⟩
    · exact ⟨_, rfl⟩
    · exact ⟨_, rfl⟩
    · exact ⟨_, rfl⟩

/-! ### Reset -/

theorem State.abandonedBytes_le (s : State) : s.abandonedBytes ≤ s.params.bufMax := by
  unfold State.abandonedBytes; split
  · exact Nat.min_le_right _ _
  · exact Nat.zero_le _

@[simp] theorem resetEvent_params (s : State) : (resetEvent s).params = s.params := rfl
@[simp] theorem resetEvent_status (s : State) : (resetEvent s).status = Status.reset := rfl
@[simp] theorem resetEvent_eng (s : State) : (resetEvent s).eng = Engine.reset := rfl
@[simp] theorem resetEvent_skey (s : State) : (resetEvent s).skey = s.skey := rfl
@[simp] theorem resetEvent_bkey (s : State) : (resetEvent s).bkey = s.bkey := rfl
@[simp] theorem resetEvent_buf (s : State) : (resetEvent s).buf = s.buf.redraw s.abandonedBytes s.draws := rfl
@[simp] theorem resetEvent_refused (s : State) : (resetEvent s).refused = s.refused := rfl

end Sys2Proof.Machine
end

