-- ==== Sys2Proof/Laws/Step.lean ====
section
/-! SUPPORT. The laws of one step of the machine and of runs. -/

namespace Sys2Proof.Machine

/-- Everything one step can do (R11): the engine's step while busy, a wait while idle, a host transaction, a reset. -/
theorem step_cases {s t : State} (h : step s = .next t) :
    (s.status.busy = true ∧ (s.inputs = [] ∨ ∃ es, s.inputs = .engine :: es) ∧
      engineStep (s.withInputs s.inputs.tail) = .next t) ∨
    (s.status.busy = false ∧ (s.inputs = [] ∨ ∃ es, s.inputs = .engine :: es) ∧
      t = s.withInputs s.inputs.tail) ∨
    (∃ x es, s.inputs = .host x :: es ∧ hostStep x (s.withInputs es) = .next t) ∨
    (∃ es, s.inputs = .reset :: es ∧ t = resetEvent (s.withInputs es)) := by
  unfold step at h
  split at h
  · rename_i hi
    have e : s.withInputs s.inputs.tail = s := by rw [hi]; exact (hi ▸ rfl : s.withInputs [] = s)
    rw [e]
    split at h
    · exact .inl ⟨‹_›, .inl hi, h⟩
    · cases h; exact .inr (.inl ⟨Bool.eq_false_iff.2 ‹¬ s.status.busy = true›, .inl hi, rfl⟩)
  · rename_i es hi
    split at h
    · exact .inl ⟨‹_›, .inr ⟨es, hi⟩, by rw [hi]; exact h⟩
    · cases h; exact .inr (.inl ⟨Bool.eq_false_iff.2 ‹¬ s.status.busy = true›, .inr ⟨es, hi⟩, by rw [hi]; rfl⟩)
  · rename_i x es hi
    exact .inr (.inr (.inl ⟨x, es, hi, h⟩))
  · rename_i es hi
    cases h
    exact .inr (.inr (.inr ⟨es, hi, rfl⟩))

/-- A busy block with no event scheduled takes its engine's step (R63, R137). -/
theorem step_busy_alone {s : State} (hb : s.status.busy = true) (hi : s.inputs = []) : step s = engineStep s := by
  simp [step, hi, hb]

theorem steps_succ {s t : State} (k : Nat) (h : step s = .next t) : steps (k + 1) s = steps k t := by
  simp [steps, h]

/-- Runs join end to end. -/
theorem steps_add {s t : State} (j k : Nat) (h : steps j s = .next t) : steps (j + k) s = steps k t := by
  induction j generalizing s with
  | zero => cases h; rw [Nat.zero_add]
  | succ j ih =>
    rw [Nat.succ_add, steps]
    rw [steps] at h
    split at h
    · exact ih h
    · cases h
    · cases h

end Sys2Proof.Machine
end

