-- ==== Sys2Proof/Laws/Assembler.lean ====
section
/-! SUPPORT. The laws of the host assembly notation: how an expansion goes on from its responses, and how `wait` ends. -/

namespace Sys2Proof.Machine

/-! ### Expansions -/

@[simp] theorem loadFrom_length (sp : Space) (bs : List Byte) : ∀ i, (loadFrom sp i bs).length = bs.length := by
  induction bs with
  | nil => exact fun _ => rfl
  | cons b bs ih => exact fun i => congrArg (· + 1) (ih (i + 1))

/-- Byte k of a `load` goes to offset i + k (R59). -/
theorem loadFrom_getElem? (sp : Space) (bs : List Byte) : ∀ i k : Nat, (loadFrom sp i bs)[k]? =
    bs[k]?.map fun b => HostTxn.write (memAddress sp (i + k)) (b.setWidth 32) := by
  induction bs with
  | nil => intro i k; simp [loadFrom]
  | cons b bs ih =>
    intro i k
    cases k with
    | zero => simp [loadFrom]
    | succ k => simp [loadFrom, ih, Nat.add_assoc, Nat.add_comm 1 k]

@[simp] theorem HostResp.bitClear_readOkay (bit : Nat) (w : Word) :
    (HostResp.readOkay w).bitClear bit = !w.getLsbD bit := rfl

@[simp] theorem HostResp.bitClear_writeOkay (bit : Nat) : HostResp.writeOkay.bitClear bit = false := rfl

/-- The word of a BUSERR response is 0, so each of its bits is (R37). -/
@[simp] theorem HostResp.bitClear_busErr (bit : Nat) : HostResp.busErr.bitClear bit = true := by
  simp [HostResp.bitClear, HostResp.hrdata]

/-- An ASCII string is the bytes of its characters' codes (R59). -/
theorem asciiBytes_of_ascii {text : String} (h : ∀ c ∈ text.toList, c.toNat < 128) :
    asciiBytes text = some (text.toList.map fun c => BitVec.ofNat 8 c.toNat) :=
  if_pos (List.all_eq_true.2 fun c hc => decide_eq_true (h c hc))

/-- A string with a character above 127 has no bytes (log 12). -/
theorem asciiBytes_of_not_ascii {text : String} {c : Char} (hc : c ∈ text.toList) (h : 128 ≤ c.toNat) :
    asciiBytes text = none :=
  if_neg fun ha => by
    have := of_decide_eq_true (List.all_eq_true.1 ha c hc)
    omega

@[simp] theorem Expansion.next_repeat_nil (a : Word) (bit : Nat) :
    (Expansion.repeatUntilClear a bit).next [] = some (.read a) := rfl

@[simp] theorem Expansion.next_repeat_concat (a : Word) (bit : Nat) (rs : List HostResp) (r : HostResp) :
    (Expansion.repeatUntilClear a bit).next (rs ++ [r]) = if r.bitClear bit then none else some (.read a) := by
  simp [Expansion.next]

/-! ### Polling STATUS -/

/-- Bit 0 of STATUS is BUSY (R22). -/
theorem Status.word_getLsbD_zero (st : Status) : st.word.getLsbD 0 = st.busy := by
  obtain ⟨b, d, e, m, c, z⟩ := st
  cases b <;> cases d <;> cases e <;> cases m <;> cases z <;> revert c <;> decide

/-- A READ of STATUS answers its word and changes nothing but the response (R46). -/
theorem hostStep_read_status (s : State) : hostStep (.read (regAddress .status)) s =
    .next (s.respond (.readOkay s.status.word)) := by
  simp only [hostStep, hostRead, decodeAddress_regAddress, State.readReg]

/-- One poll of `wait`, the next event of the schedule: the response is the STATUS word, and nothing else changes. -/
theorem steps_poll (s : State) : steps 1 (s.withInputs [.host (.read (regAddress .status))]) =
    .next ((s.withInputs []).respond (.readOkay s.status.word)) := by
  change (match hostStep (.read (regAddress .status)) (s.withInputs []) with
    | .next t => steps 0 t | .fault r => .fault r | .refused r => .refused r) = _
  rw [hostStep_read_status]
  rfl

end Sys2Proof.Machine
end

