-- ==== Sys2Proof/Laws/PerInstr.lean ====
section
/-! SUPPORT. What holds of each instruction as syntax: its command word, field by field (R52, R54). -/

namespace Sys2Proof.Laws.Encoding

/-- The word of an instruction has RSV = 0 (R54), an OP below 4 (R52), DIR = 1 only with XFORM (R53), decodes to that
instruction, and is the word its command mnemonic writes to CMD at address 8 (R60). -/
def Statement (i : Instr) : Prop :=
  i.wf = true ∧ cmdRsv (encode i) = 0 ∧ (cmdOp (encode i)).toNat < 4 ∧
  (cmdDir (encode i) = 1 → cmdOp (encode i) = 1) ∧ decode (encode i) = .legal i ∧
  (Machine.Stmt.command i).assemble = some (.once [.write 0x00000008 (encode i)])

theorem nop : Statement .nop := by unfold Statement; decide
theorem xformEnc : Statement .xformEnc := by unfold Statement; decide
theorem xformDec : Statement .xformDec := by unfold Statement; decide
theorem norm : Statement .norm := by unfold Statement; decide
theorem check : Statement .check := by unfold Statement; decide

end Sys2Proof.Laws.Encoding
end

