-- ==== Sys2Proof/Tests/Slice0.lean ====
section
/-! SUPPORT. Tests from the spec's own vectors (95_test_vectors.md), the smoke test of the well-formedness checks, and a
witness for the hypotheses of every obligation that has any. -/

namespace Sys2Proof.Tests

open Sys2Proof.Machine

/-! ### Decode: words written out from R52, R53 and the opcode table -/

theorem test_decode_nop : decode 0b00000000000000000000000000000000 = .legal .nop := by decide
theorem test_decode_xformEnc : decode 0b00000000000000000000000000000001 = .legal .xformEnc := by decide
theorem test_decode_xformDec : decode 0b00000000000000000000000000010001 = .legal .xformDec := by decide
theorem test_decode_norm : decode 0b00000000000000000000000000000010 = .legal .norm := by decide
theorem test_decode_check : decode 0b00000000000000000000000000000011 = .legal .check := by decide

/-- The illegal words of R53, R77 and V-DEC, with the case of R53 each falls under. -/
theorem test_decode_illegal :
    decode 0x00000010 = .illegal .direction ∧ decode 0x00000012 = .illegal .direction ∧
    decode 0x00000013 = .illegal .direction ∧ decode 0x00000004 = .illegal .reservedOp ∧
    decode 0x0000000F = .illegal .reservedOp ∧ decode 0x00000021 = .illegal .reservedBits ∧
    decode 0x80000001 = .illegal .reservedBits ∧ decode 0xFFFFFFFF = .illegal .reservedBits := by decide

/-- The command words of R60. -/
theorem test_encode : encode .nop = 0x00000000 ∧ encode .xformEnc = 0x00000001 ∧ encode .xformDec = 0x00000011 ∧
    encode .norm = 0x00000002 ∧ encode .check = 0x00000003 := by decide

/-- The rows of spec/opcode_table.json, by its bit numbering. -/
theorem test_decodeTableWord : decodeTableWord 32 0 = some .nop ∧ decodeTableWord 32 1 = some .xformEnc ∧
    decodeTableWord 32 17 = some .xformDec ∧ decodeTableWord 32 2 = some .norm ∧ decodeTableWord 32 3 = some .check ∧
    decodeTableWord 32 4 = none ∧ decodeTableWord 64 (2 ^ 40) = none := by decide

/-! ### Well-formedness: each bound of R6 refuses what lies outside it -/

theorem smoke_wf_bounds : Params.wf ⟨16, 8, 4⟩ ∧ Params.wf ⟨2 ^ 24, 2 ^ 24, 2 ^ 24⟩ := by decide
theorem smoke_bufMax_low : ¬ Params.wf ⟨15, 8, 4⟩ := by decide
theorem smoke_bufMax_high : ¬ Params.wf ⟨2 ^ 24 + 1, 8, 4⟩ := by decide
theorem smoke_skMax_low : ¬ Params.wf ⟨16, 7, 4⟩ := by decide
theorem smoke_skMax_high : ¬ Params.wf ⟨16, 2 ^ 24 + 1, 4⟩ := by decide
theorem smoke_bkMax_low : ¬ Params.wf ⟨16, 8, 3⟩ := by decide
theorem smoke_bkMax_high : ¬ Params.wf ⟨16, 8, 2 ^ 24 + 1⟩ := by decide
/-- A command has no operand, so every `Instr` is well-formed (R52): no ill-formed instruction can be written. -/
theorem smoke_instr_wf : ∀ i : Instr, i.wf = true := by intro i; cases i <;> decide

/-! ### States to test on -/

/-- Bytes at consecutive offsets from 0. -/
def bytes : Nat → List Byte → Memory
  | _, [] => []
  | a, b :: bs => (a, b) :: bytes (a + 1) bs

/-- The smallest instance, idle, with a buffer, a shift key and a block-size key loaded (R132). -/
def loaded (b k bk : List Byte) : State :=
  { State.reset with
    buf := bytes 0 b, skey := bytes 0 k, bkey := bytes 0 bk
    size := BitVec.ofNat 32 b.length, skLen := BitVec.ofNat 32 k.length, bkLen := BitVec.ofNat 32 bk.length }

/-- The state a next outcome holds. -/
def after (s : State) (o : Host.Outcome State Fault Refusal) : State :=
  match o with
  | .next t => t
  | .fault _ => s
  | .refused _ => s

/-- `s` after the command `i` is accepted and `k` engine steps are taken. -/
def ran (k : Nat) (i : Instr) (s : State) : State := after s (steps k (after s (exec i s)))

/-! ### The commands -/

/-- R71: `nop` leaves STATUS = 0x00000002 after one engine step. -/
theorem test_nop : (ran 1 .nop State.reset).status.word = 0x00000002 := by decide

/-- R73: "a1-Z" becomes "A  Z". -/
theorem test_norm : (ran 6 .norm (loaded [0x61, 0x31, 0x2D, 0x5A] [] [])).buf = bytes 0 [0x41, 0x20, 0x20, 0x5A] := by
  decide

/-- E7: "ABCABC" under the key "ABC" becomes "BDFBDF". -/
theorem test_xformEnc_ascii :
    (ran 8 .xformEnc (loaded [0x41, 0x42, 0x43, 0x41, 0x42, 0x43] [0x41, 0x42, 0x43] [])).buf =
      bytes 0 [0x42, 0x44, 0x46, 0x42, 0x44, 0x46] := by decide

/-- E2: P2's encode: 00 FF FF 10 20 30 under 01 02 03 04 05 and "12" becomes 04 02 02 12 25 31. -/
theorem test_xformEnc_mv2 :
    (ran 6 .xformEnc (loaded [0x00, 0xFF, 0xFF, 0x10, 0x20, 0x30] [1, 2, 3, 4, 5] [0x31, 0x32])).buf =
      bytes 0 [0x04, 0x02, 0x02, 0x12, 0x25, 0x31] := by decide

/-- E2: P2's decode gives the buffer back. -/
theorem test_xformDec_mv2 :
    (ran 6 .xformDec (loaded [0x04, 0x02, 0x02, 0x12, 0x25, 0x31] [1, 2, 3, 4, 5] [0x31, 0x32])).buf =
      bytes 0 [0x00, 0xFF, 0xFF, 0x10, 0x20, 0x30] := by decide

/-- E6b: "IFM" under the key "AAA" decodes to "HEL". -/
theorem test_xformDec_ascii : (ran 5 .xformDec (loaded [0x49, 0x46, 0x4D] [0x41, 0x41, 0x41] [])).buf =
    bytes 0 [0x48, 0x45, 0x4C] := by decide

/-- R76 / P3: CHECK of SIZE = 6 under "4": TRUNCATED_BLOCK with info 1. -/
theorem test_check : let u := ran 2 .check (loaded [0, 0, 0, 0, 0, 0] [1, 2, 3, 4] [0x34])
    u.status.word = 0x0000003C ∧ u.errinfo = 1 := by decide

/-! ### The datapath -/

/-- V-NORM: the boundaries of every row. -/
theorem test_normalize : [0x00, 0x40, 0x41, 0x5A, 0x5B, 0x60, 0x61, 0x7A, 0x7B, 0x7F, 0x80, 0xFF].map normalize =
    [0x20, 0x20, 0x41, 0x5A, 0x20, 0x20, 0x41, 0x5A, 0x20, 0x20, 0x80, 0xFF] := by decide

/-- V-CYC: wraps, the extreme amounts, and bytes above 127. -/
theorem test_cyc : cyc 0x5A 1 .encode = 0x41 ∧ cyc 0x41 1 .decode = 0x5A ∧ cyc 0x51 26 .encode = 0x51 ∧
    cyc 0x41 (-64) .encode = 0x4F ∧ cyc 0x41 (-64) .decode = 0x4D ∧ cyc 0x80 0 .encode = 0x4C ∧
    cyc 0xFF 0 .encode = 0x49 ∧ cyc 0x41 191 .encode = 0x4A ∧ cyc 0x41 191 .decode = 0x52 ∧
    cyc 0x41 27 .decode = 0x5A ∧ cyc 0x41 (-27) .encode = 0x5A := by decide

/-- V-ADD: each width, with a wrap or an ignored high part. -/
theorem test_blockAdd : blockAdd 1 .encode 0xFF 1 = 0 ∧ blockAdd 1 .decode 0x10 0x12345678 = 0x98 ∧
    blockAdd 2 .decode 0 0x00010001 = 0xFFFF ∧ blockAdd 3 .encode 0xABCDEF 0x00123456 = 0xBE0245 ∧
    blockAdd 3 .decode 0 0xFF000001 = 0xFFFFFF ∧ blockAdd 4 .encode 0x01234567 0xDEADBEEF = 0xDFD10456 ∧
    blockAdd 4 .decode 0xDFD10456 0xDEADBEEF = 0x01234567 ∧ blockAdd 1 .decode 0 0x00000200 = 0 := by decide

/-- Shift-word assembly: the rows K = 3 and K = 5. -/
theorem test_shiftWord :
    (List.range 3).map (loaded [] [0x10, 0x20, 0x30] []).shiftWordAt = [0x10203010, 0x20301020, 0x30102030] ∧
    (List.range 5).map (loaded [] [1, 2, 3, 4, 5] []).shiftWordAt =
      [0x01020304, 0x05010203, 0x04050102, 0x03040501, 0x02030405] := by decide

/-- V-KEYIDX: `wrap_inc` from 0 with lengths 1 and 3. -/
theorem test_wrapInc : wrapIter 1 3 0 = 0 ∧ (List.range 7).map (fun k => wrapIter 3 k 0) = [0, 1, 2, 0, 1, 2, 0] := by
  decide

/-! ### Validation: rows of V-VAL -/

/-- The state of a V-VAL row. -/
def valRow (size : Word) (bk : List Byte) (skLen : Word) : State :=
  { loaded [] [0x41] bk with size := size, skLen := skLen }

theorem test_validate_ok : (valRow 8 [0x34] 1).validate .xform .mv2 = .ok 2 ∧
    (valRow 0 [0x34] 1).validate .xform .mv2 = .ok 0 ∧ (valRow 7 [0x31, 0x32] 1).validate .xform .mv2 = .ok 5 ∧
    (valRow 10 [0x31, 0x32, 0x33, 0x34] 1).validate .check .mv2 = .ok 4 ∧
    (valRow 0 [] 1).validate .xform .ascii = .ok 0 ∧ (valRow 16 [] 0).validate .norm .ascii = .ok 0 := by decide

theorem test_validate_err : (valRow 6 [0x34] 1).validate .xform .mv2 = .err .truncatedBlock 1 ∧
    (valRow 5 [0x31, 0x32, 0x33] 1).validate .xform .mv2 = .err .truncatedBlock 2 ∧
    (valRow 1 [0x31, 0x35] 1).validate .xform .mv2 = .err .bkSymbol 1 ∧
    (valRow 4 [0x34] 0).validate .xform .mv2 = .err .skEmpty 0 ∧
    (valRow 17 [] 0).validate .norm .ascii = .err .lengthRange 1 ∧
    (valRow 16 [0x34] 9).validate .check .mv2 = .err .lengthRange 2 ∧
    (valRow 17 [0x34] 9).validate .check .mv2 = .err .lengthRange 3 := by decide

/-! ### Registers, the host port and reset -/

/-- R19, R22: ID, and a STATUS word with every field set. -/
theorem test_registers : State.reset.readReg .id = 0x4D563201 ∧
    Status.word ⟨false, true, false, .mv2, 0, false⟩ = 0x0000000A ∧
    Status.word ⟨true, true, true, .mv2, 15, true⟩ = 0x000001FF := by decide

/-- R22: 1 in bits 1, 2 and 8 clears; BUSY, MODE and ECODE stay. -/
theorem test_w1c : (Status.writeOneToClear ⟨true, true, true, .mv2, 3, true⟩ 0x00000006).word = 0x00000139 ∧
    (Status.writeOneToClear ⟨true, true, true, .mv2, 3, true⟩ 0xFFFFFFFF).word = 0x00000039 := by decide

/-- R41, V-PORT: addresses that get BUSERR beside the last ones that do not. -/
theorem test_addresses : decodeAddress Config.smallest 0x0000002C = .reg .bkMax ∧
    decodeAddress Config.smallest 0x00000002 = .busErr ∧ decodeAddress Config.smallest 0x00000030 = .busErr ∧
    decodeAddress Config.smallest 0x00000100 = .busErr ∧ decodeAddress Config.smallest 0x0300000F = .mem .buf 15 ∧
    decodeAddress Config.smallest 0x03000010 = .busErr ∧ decodeAddress Config.smallest 0x04000000 = .busErr := by decide

/-- R34, U8: a BLOCK step on a symbol the mux has no length for sets the mark and changes nothing else. -/
theorem test_refused_mark :
    let s := { loaded [1] [1] [0x35] with eng := { Engine.reset with phase := .mv2Run, op := .xform, mode := .mv2 } }
    blockStep s = { s with refused := true } := by decide

/-- R59: a quoted string of `load` stands for its ASCII bytes. -/
theorem test_loadText : (Stmt.loadText .skey "A5").assemble =
    some (.once [.write 0x01000000 0x00000041, .write 0x01000001 0x00000035]) := by decide

/-- R59, R71: `wait` on a NOP that takes its one engine step before the second poll reads STATUS twice: busy, then DONE. -/
theorem test_wait : (Expansion.repeatUntilClear 0x0000000C 0).run [[], [.engine], [.engine]] []
      (State.reset.accept 0x00000000 .nop .encode) =
    .next ⟨((State.reset.accept 0x00000000 .nop .encode).completeOk).respond (.readOkay 0x00000002),
      [.readOkay 0x00000001, .readOkay 0x00000002], true⟩ := by rfl

/-- The word the host places is the very next thing the machine takes. -/
theorem test_withFetchWord : after State.reset (step (State.reset.withFetchWord 32 2)) =
    (State.reset.respond .writeOkay).accept 0x00000002 .norm .encode := by decide

/-! ### Busy states, one for each phase, and the invariant in each -/

/-- Two ASCII letters, the key "A". -/
def ascii2 : State := loaded [0x48, 0x69] [0x41] []

/-- Three blocks of 1, 2 and 1 bytes, a five-byte key. -/
def mv2x3 : State := loaded [1, 2, 3, 4] [1, 2, 3, 4, 5] [0x31, 0x32]

def validating : State := mv2x3.accept 0x00000011 .xform .decode
def inNormRun : State := validateStep (ascii2.accept 0x00000002 .norm .encode)
def inAlphaRun : State := validateStep (ascii2.accept 0x00000001 .xform .encode)
def inMv2Run : State := validateStep validating
def finishingOk : State := State.reset.accept 0x00000000 .nop .encode
def finishingChecked : State := validateStep (mv2x3.accept 0x00000003 .check .encode)
def finishingIllegal : State := State.reset.submitIllegal 0x00000004
def finishingError : State := validateStep (State.reset.accept 0x00000001 .xform .encode)

/-- The parts of the invariant that are decided outright. -/
theorem inv_of {s : State}
    (h : s.params.wf ∧ Memory.wf s.buf ∧ (∀ c ∈ s.buf, c.1 < s.params.bufMax) ∧
      Memory.wf s.skey ∧ (∀ c ∈ s.skey, c.1 < s.params.skMax) ∧ Memory.wf s.bkey ∧ (∀ c ∈ s.bkey, c.1 < s.params.bkMax))
    (h' : s.status.ecode.toNat ≤ 5 ∧ ¬ (s.status.done = true ∧ s.status.err = true) ∧
      (s.status.done = true → s.status.ecode = 0) ∧ (s.status.busy = true ↔ s.eng.phase ≠ .idle) ∧
      (s.status.busy = true → s.status.done = false ∧ s.status.err = false ∧ s.status.ecode = 0 ∧ s.nblk = 0 ∧
        s.errinfo = 0))
    (he : s.status.busy = true → s.EngineOk) : s.Inv :=
  ⟨h.1, ⟨h.2.1, h.2.2.1⟩, ⟨h.2.2.2.1, h.2.2.2.2.1⟩, h.2.2.2.2.2, h'.1, h'.2.1, h'.2.2.1, h'.2.2.2.1, h'.2.2.2.2, he⟩

theorem validating_inv : validating.Inv := inv_of (by decide) (by decide) fun _ =>
  ⟨by decide, by decide, by decide, by decide, by decide, by decide, by decide, by decide, by decide, by decide⟩
theorem inNormRun_inv : inNormRun.Inv := inv_of (by decide) (by decide) fun _ =>
  ⟨by decide, by decide, by decide, by decide, by decide, by decide, by decide⟩
theorem inAlphaRun_inv : inAlphaRun.Inv := inv_of (by decide) (by decide) fun _ =>
  ⟨by decide, by decide, by decide, by decide, by decide, by decide, by decide, by decide, by decide⟩
theorem inMv2Run_inv : inMv2Run.Inv := inv_of (by decide) (by decide) fun _ =>
  ⟨by decide, by decide, by decide, by decide, by decide, by decide, by decide, by decide, by decide, by decide,
    by decide⟩
theorem finishingOk_inv : finishingOk.Inv := inv_of (by decide) (by decide) fun _ =>
  ⟨by decide, by decide, by decide, .inl ⟨by decide, .inl (by decide)⟩⟩
theorem finishingChecked_inv : finishingChecked.Inv := inv_of (by decide) (by decide) fun _ =>
  ⟨by decide, by decide, by decide, .inl ⟨by decide, .inr (by decide)⟩⟩
theorem finishingIllegal_inv : finishingIllegal.Inv := inv_of (by decide) (by decide) fun _ =>
  ⟨by decide, by decide, by decide, .inr (.inl (by decide))⟩
theorem finishingError_inv : finishingError.Inv := inv_of (by decide) (by decide) fun _ =>
  ⟨by decide, by decide, by decide, .inr (.inr ⟨by decide, by decide, .skEmpty, by decide⟩)⟩
theorem idle_inv : mv2x3.Inv := inv_of (by decide) (by decide) fun h => absurd h (by decide)

/-! ### Witnesses: for each obligation with hypotheses, data that meets all of them, at the bounds of each clause -/

/-- A full buffer of the smallest instance. -/
def full (k bk : List Byte) : State := loaded (List.replicate 16 0x41) k bk

/-- The largest instance R6 allows. -/
def largest : State := State.powerOn ⟨2 ^ 24, 2 ^ 24, 2 ^ 24⟩

theorem witness_DecodeOfEveryWord : cmdRsv 0x00000020 ≠ 0 ∧ 4 ≤ (cmdOp 0x00000004).toNat ∧
    (cmdDir 0x00000010 = 1 ∧ cmdOp 0x00000010 ≠ 1) ∧ State.reset.status.busy = false ∧ State.reset.inputs = [] ∧
    operationOf 0x00000004 = (.illegal, .encode) := by decide

/-- A `load` of two bytes, an ASCII string up to code 127 and one with the code 128, and the last register and memory of each table. -/
theorem witness_AssemblyNotationExpands : (0 < [(1 : Byte), 2].length ∧ 1 < [(1 : Byte), 2].length) ∧
    ((Reg.bkMax, (0x0000002C : Word)) ∈ ([(.id, 0x00000000), (.ctrl, 0x00000004), (.cmd, 0x00000008),
      (.status, 0x0000000C), (.size, 0x00000010), (.skLen, 0x00000014), (.bkLen, 0x00000018), (.nblk, 0x0000001C),
      (.errinfo, 0x00000020), (.bufMax, 0x00000024), (.skMax, 0x00000028), (.bkMax, 0x0000002C)] : List (Reg × Word))) ∧
    ((Space.buf, 0x03000000) ∈ ([(.skey, 0x01000000), (.bkey, 0x02000000), (.buf, 0x03000000)] : List (Space × Nat))) ∧
    (∀ c ∈ "A\x7F".toList, c.toNat < 128) ∧ (∃ c ∈ "A\u0080".toList, 128 ≤ c.toNat) :=
  ⟨by decide, by decide, by decide, by simp, by simp⟩

theorem witness_StepRunsDecodedCommand :
    (State.reset.withInputs [.host (.write 0x00000008 1)]).inputs = .host (.write 0x00000008 1) :: [] ∧
    decode 1 = .legal .xformEnc ∧
    (State.reset.withInputs [.host (.write 0x00000008 4), .engine]).inputs = .host (.write 0x00000008 4) :: [.engine] ∧
    decode 4 = .illegal .reservedOp ∧
    (State.reset.withInputs [.host (.read 0x03000000)]).inputs = .host (.read 0x03000000) :: [] ∧
    (validating.status.busy = true ∧ validating.inputs = []) ∧
    (validating.withInputs [.engine]).inputs = .engine :: [] := by decide

theorem witness_CommandAcceptance : State.reset.status.busy = false ∧ validating.status.busy = true := by decide

theorem witness_CommandDroppedWhileBusy : validating.status.busy = true := by decide

theorem witness_NopCompletes : State.reset.Ready := by unfold State.Ready; decide

theorem witness_IllegalWordCompletes : State.reset.Ready ∧ ∀ i, (0x00000004 : Word) ≠ encode i ∧
    (0x00000010 : Word) ≠ encode i ∧ (0x00000020 : Word) ≠ encode i ∧ (0xFFFFFFFF : Word) ≠ encode i :=
  ⟨witness_NopCompletes, by intro i; cases i <;> decide⟩

theorem full_ready (k bk : List Byte) : (full k bk).Ready := ⟨rfl, rfl⟩

theorem witness_NormCompletes : State.reset.Ready ∧ State.reset.size.toNat ≤ State.reset.params.bufMax ∧
    (full [] []).Ready ∧ (full [] []).size.toNat = (full [] []).params.bufMax :=
  ⟨witness_NopCompletes, by decide, full_ready _ _, by decide⟩

theorem witness_AsciiTransformCompletes :
    let s := full [0x41] []
    let t := full (List.replicate 8 0x42) []
    s.Ready ∧ s.bkLen = 0 ∧ s.size.toNat ≤ s.params.bufMax ∧ 1 ≤ s.skLen.toNat ∧ s.skLen.toNat ≤ s.params.skMax ∧
    t.Ready ∧ t.bkLen = 0 ∧ t.size.toNat ≤ t.params.bufMax ∧ 1 ≤ t.skLen.toNat ∧ t.skLen.toNat = t.params.skMax ∧
    -- both clauses on a byte: a space and a letter
    Machine.normalize 0x2D = 0x20 ∧ Machine.normalize (s.byte .buf 15) ≠ 0x20 :=
  ⟨full_ready _ _, by decide, by decide, by decide, by decide, full_ready _ _, by decide, by decide, by decide,
    by decide, by decide, by decide⟩

theorem witness_Mv2TransformCompletes : mv2x3.Ready ∧ mv2x3.bkLen ≠ 0 ∧ mv2x3.validate .xform .mv2 = .ok 3 ∧
    (full [1] [0x31]).validate .xform .mv2 = .ok 16 ∧ (valRow 0 [0x34] 1).validate .xform .mv2 = .ok 0 :=
  ⟨⟨rfl, rfl⟩, by decide, by decide, by decide, by decide⟩

theorem witness_CheckCompletes : mv2x3.Ready ∧ mv2x3.validate .check mv2x3.derivedMode = .ok 3 ∧
    ascii2.Ready ∧ ascii2.bkLen = 0 ∧ ascii2.validate .check ascii2.derivedMode = .ok 0 :=
  ⟨⟨rfl, rfl⟩, by decide, ⟨rfl, rfl⟩, by decide, by decide⟩

theorem witness_FailedValidationLeavesMemoriesUnchanged : (valRow 6 [0x34] 1).Ready ∧
    (valRow 6 [0x34] 1).validate .xform (valRow 6 [0x34] 1).derivedMode = .err .truncatedBlock 1 ∧
    State.reset.validate .xform State.reset.derivedMode = .err .skEmpty 0 ∧
    (valRow 17 [] 1).validate .norm .ascii = .err .lengthRange 1 :=
  ⟨⟨rfl, rfl⟩, by decide, by decide, by decide⟩

theorem witness_CheckAgreesWithTransform : mv2x3.Ready ∧ State.reset.Ready := ⟨⟨rfl, rfl⟩, ⟨rfl, rfl⟩⟩

/-- Power-on, a reset of a busy engine, a reset of an idle one with memories written, and an illegal word. -/
theorem witness_CommandsStraightAfterReset : State.reset = State.powerOn Config.smallest ∧
    (validating.inputs = [] ∧ validating.status.busy = true) ∧ (mv2x3.inputs = [] ∧ mv2x3.status.busy = false) ∧
    ∀ i, (0x00000010 : Word) ≠ encode i := ⟨rfl, by decide, by decide, by intro i; cases i <;> decide⟩

theorem witness_LengthRangeCheck :
    (valRow 17 [] 1).params.bufMax < (valRow 17 [] 1).size.toNat ∧
    (valRow 16 [] 9).params.skMax < (valRow 16 [] 9).skLen.toNat ∧
    (valRow 16 (List.replicate 5 0x31) 8).params.bkMax < (valRow 16 (List.replicate 5 0x31) 8).bkLen.toNat := by decide

theorem witness_ShiftKeyCheck :
    let s := valRow 16 (List.replicate 4 0x31) 0
    let t := valRow 16 (List.replicate 4 0x31) 8
    (s.size.toNat ≤ s.params.bufMax ∧ s.skLen.toNat ≤ s.params.skMax ∧ s.bkLen.toNat ≤ s.params.bkMax ∧ s.skLen = 0) ∧
    (t.size.toNat ≤ t.params.bufMax ∧ t.skLen.toNat ≤ t.params.skMax ∧ t.bkLen.toNat ≤ t.params.bkMax ∧ t.skLen ≠ 0) := by
  decide

theorem witness_BlockSymbolCheck :
    let s := valRow 1 [0x31, 0x34, 0x31, 0x35] 1
    let t := valRow 1 [0x30, 0x30] 1
    (s.size.toNat ≤ s.params.bufMax ∧ s.skLen.toNat ≤ s.params.skMax ∧ s.bkLen.toNat ≤ s.params.bkMax ∧ s.skLen ≠ 0 ∧
      3 < s.bkLen.toNat ∧ ¬ (0x31 ≤ (s.byte .bkey 3).toNat ∧ (s.byte .bkey 3).toNat ≤ 0x34) ∧
      ∀ i, i < 3 → 0x31 ≤ (s.byte .bkey i).toNat ∧ (s.byte .bkey i).toNat ≤ 0x34) ∧
    (0 < t.bkLen.toNat ∧ ¬ (0x31 ≤ (t.byte .bkey 0).toNat ∧ (t.byte .bkey 0).toNat ≤ 0x34)) := by decide

theorem witness_PartitionCheck :
    let s := valRow 3 [0x31, 0x32] 1
    let t := valRow 2 [0x31, 0x32] 1
    (s.size.toNat ≤ s.params.bufMax ∧ s.skLen.toNat ≤ s.params.skMax ∧ s.bkLen.toNat ≤ s.params.bkMax ∧ s.skLen ≠ 0 ∧
      s.bkLen ≠ 0 ∧ (∀ i, i < s.bkLen.toNat → 0x31 ≤ (s.byte .bkey i).toNat ∧ (s.byte .bkey i).toNat ≤ 0x34) ∧
      s.blockStart 2 = s.size.toNat) ∧
    (∀ i, i < t.bkLen.toNat → 0x31 ≤ (t.byte .bkey i).toNat ∧ (t.byte .bkey i).toNat ≤ 0x34) ∧
    t.blockStart 1 < t.size.toNat ∧ t.size.toNat < t.blockStart 2 := by decide

theorem witness_ValidateStepRunsValidation : validating.Inv ∧ validating.status.busy = true ∧
    validating.eng.phase = .validate ∧ validating.validate validating.eng.op validating.eng.mode = .ok 3 ∧
    (State.reset.accept 1 .xform .encode).Inv ∧
    (State.reset.accept 1 .xform .encode).validate .xform .ascii = .err .skEmpty 0 :=
  ⟨validating_inv, by decide, by decide, by decide, inv_of (by decide) (by decide) fun _ =>
    ⟨by decide, by decide, by decide, by decide, by decide, by decide, by decide, by decide, by decide, by decide⟩,
    by decide⟩

theorem witness_BlocksPartitionTheBuffer : mv2x3.bkLen ≠ 0 ∧ mv2x3.validate .xform .mv2 = .ok 3 ∧
    0 < mv2x3.size.toNat ∧ 3 < mv2x3.size.toNat ∧ mv2x3.blockStart 2 ≤ 3 ∧ 3 < mv2x3.blockStart 3 := by decide

theorem witness_NormalizeTable : (∃ b : Byte, b.toNat ≤ 64) ∧ (∃ b : Byte, 65 ≤ b.toNat ∧ b.toNat ≤ 90) ∧
    (∃ b : Byte, 91 ≤ b.toNat ∧ b.toNat ≤ 96) ∧ (∃ b : Byte, 97 ≤ b.toNat ∧ b.toNat ≤ 122) ∧
    (∃ b : Byte, 123 ≤ b.toNat ∧ b.toNat ≤ 127) ∧ ∃ b : Byte, 128 ≤ b.toNat :=
  ⟨⟨64, by decide⟩, ⟨90, by decide⟩, ⟨96, by decide⟩, ⟨122, by decide⟩, ⟨127, by decide⟩, ⟨128, by decide⟩⟩

theorem witness_NormalizationIsIdempotent : (full [] []).Ready ∧
    (full [] []).size.toNat ≤ (full [] []).params.bufMax := ⟨full_ready _ _, by decide⟩

theorem witness_CyclicalAdderLaws : 65 ≤ (0x41 : Byte).toNat ∧ (0x5A : Byte).toNat ≤ 90 ∧
    (-26 : Int) % 26 = 26 % 26 ∧ (26 : Int) % 26 = 0 ∧ 128 ≤ (0x80 : Byte).toNat := by decide

theorem witness_WrapCounterCountsModulo : 1 ≤ (1 : Word).toNat ∧ 1 ≤ (0xFFFFFFFF : Word).toNat := by decide

theorem witness_KeySchedulePeriod : 1 ≤ mv2x3.skLen.toNat ∧ 1 ≤ mv2x3.bkLen.toNat := by decide

theorem witness_BlockSizeMux : blockLength 0x31 = some 1 ∧ blockLength 0x34 = some 4 ∧
    let s := { inMv2Run with bkey := bytes 0 [0x30, 0x35] }
    s.eng.phase = .mv2Run ∧ blockLength (s.byte .bkey s.eng.bp.toNat) = none := by decide

theorem witness_BlockAdderReferenceAgrees : (255 < 2 ^ (8 * 1) ∧ 0xFFFFFFFF < 2 ^ (8 * 4)) ∧
    (0x12345678 : Word).toNat % 2 ^ (8 * 1) = (0x00000078 : Word).toNat % 2 ^ (8 * 1) := by decide

theorem witness_BlockAdderLaws : (0xFFFF < 2 ^ (8 * 2)) ∧ (0x01010101 : Word).toNat % 256 = 1 ∧
    (0xFFFF0000 : Word).toNat % 2 ^ (8 * 2) = 0 := by decide

theorem witness_BlocksAreBigEndian : (0 < 4 ∧ 3 < 4) ∧ ((4 : Nat) < 5 ∨ 5 + 4 ≤ 4) ∧ ((9 : Nat) < 5 ∨ 5 + 4 ≤ 9) := by
  decide

theorem witness_NormStepNormalizesOneByte : inNormRun.Inv ∧ inNormRun.status.busy = true ∧
    inNormRun.eng.phase = .normRun := ⟨inNormRun_inv, by decide, by decide⟩

theorem witness_AlphaStepShiftsOneByte : inAlphaRun.Inv ∧ inAlphaRun.status.busy = true ∧
    inAlphaRun.eng.phase = .alphaRun := ⟨inAlphaRun_inv, by decide, by decide⟩

theorem witness_BlockStepShiftsOneBlock : inMv2Run.Inv ∧ inMv2Run.status.busy = true ∧
    inMv2Run.eng.phase = .mv2Run := ⟨inMv2Run_inv, by decide, by decide⟩

/-- The FINISH step of a reserved code, which no reachable state holds, is a clause too. -/
theorem witness_FinishStepReports : (finishingOk.eng.phase = .finish ∧ finishingOk.eng.ecode = 0) ∧
    (finishingError.eng.phase = .finish ∧ finishingError.eng.ecode = ErrorCode.skEmpty.code) ∧
    (finishingIllegal.eng.phase = .finish ∧ finishingIllegal.eng.ecode = ErrorCode.illegalCommand.code) ∧
    let s := { finishingOk with eng := { finishingOk.eng with ecode := 6 } }
    s.eng.phase = .finish ∧ 6 ≤ s.eng.ecode.toNat := by decide

theorem witness_EngineStepFrame : engineStep validating = .next inMv2Run ∧
    engineStep inMv2Run = .next (blockStep inMv2Run) ∧ inMv2Run.size.toNat ≤ 4 := ⟨rfl, rfl, by decide⟩

theorem witness_EngineReadsOnlyItsOperands :
    let s := inMv2Run
    let s' := { inMv2Run with buf := s.buf.write 4 9, skey := s.skey.write 5 9, bkey := s.bkey.write 2 9 }
    s' = { s with buf := s'.buf, skey := s'.skey, bkey := s'.bkey } ∧
    (∀ a, a < s.size.toNat → s'.byte .buf a = s.byte .buf a) ∧
    (∀ a, a < s.skLen.toNat → s'.byte .skey a = s.byte .skey a) ∧
    (∀ a, a < s.bkLen.toNat → s'.byte .bkey a = s.byte .bkey a) ∧ engineStep s = .next (blockStep s) :=
  ⟨rfl, by decide, by decide, by decide, rfl⟩

theorem witness_AddressMap : Config.smallest.wf ∧ largest.params.wf := by decide

/-- The first and the last address of each kind R41 lists, in the smallest instance. -/
theorem witness_BusErrorChangesNothing : State.reset.params.wf ∧
    (0x100 ≤ (0x100 : Word).toNat ∧ (0xFFFFFF : Word).toNat < 0x01000000) ∧
    (0x04000000 ≤ (0x04000000 : Word).toNat ∧ 0x04000000 ≤ (0xFFFFFFFF : Word).toNat) ∧
    ((0x01 : Word).toNat < 0x100 ∧ (0x01 : Word).toNat % 4 ≠ 0 ∧ (0xFF : Word).toNat % 4 ≠ 0) ∧
    (0x30 ≤ (0x30 : Word).toNat ∧ (0xFC : Word).toNat ≤ 0xFC) ∧
    (0x01000000 + State.reset.params.skMax ≤ (0x01000008 : Word).toNat ∧ (0x01FFFFFF : Word).toNat < 0x02000000) ∧
    (0x02000000 + State.reset.params.bkMax ≤ (0x02000004 : Word).toNat ∧ (0x02FFFFFF : Word).toNat < 0x03000000) ∧
    (0x03000000 + State.reset.params.bufMax ≤ (0x03000010 : Word).toNat ∧ (0x03FFFFFF : Word).toNat < 0x04000000) := by
  decide

theorem witness_RegisterReads : State.reset.params.wf ∧ largest.params.wf := by decide

theorem witness_RegisterWritesWhileIdle : State.reset.status.busy = false := by decide

theorem witness_HostMemoryAccessWhileIdle : State.reset.params.wf ∧ State.reset.status.busy = false ∧
    (15 < State.reset.params.capacity .buf ∧ 7 < State.reset.params.capacity .skey ∧
      3 < State.reset.params.capacity .bkey ∧ 0 < State.reset.params.capacity .buf) := by decide

theorem witness_HostAccessWhileBusy : validating.status.busy = true ∧ validating.params.wf ∧
    15 < validating.params.capacity .buf ∧ decodeAddress validating.params 0x00000030 = .busErr := by decide

theorem witness_MemoryReadWhileBusyIsADraw : validating.params.wf ∧ validating.status.busy = true ∧
    7 < validating.params.capacity .skey := by decide

/-- HAZ is cleared by the write, and by the reset. -/
theorem witness_HazIsSticky :
    let s := State.reset.dropWrite.withInputs [.host (.write (regAddress .status) 0x00000100)]
    let r := State.reset.dropWrite.withInputs [.reset]
    (step s = .next (after s (step s)) ∧ s.status.haz = true ∧ (after s (step s)).status.haz = false) ∧
    (step r = .next (after r (step r)) ∧ r.status.haz = true ∧ (after r (step r)).status.haz = false) :=
  ⟨⟨rfl, by decide, by decide⟩, ⟨rfl, by decide, by decide⟩⟩

/-- BUSY rises at acceptance, and falls at FINISH and at reset. -/
theorem witness_BusyChangesOnlyAtAcceptanceAndFinish :
    let s := State.reset.withInputs [.host (.write 0x00000008 0)]
    let r := validating.withInputs [.reset]
    (step s = .next (after s (step s)) ∧ s.status.busy = false ∧ (after s (step s)).status.busy = true) ∧
    (step finishingOk = .next finishingOk.completeOk ∧ finishingOk.status.busy = true ∧
      finishingOk.completeOk.status.busy = false) ∧
    (step r = .next (after r (step r)) ∧ r.status.busy = true ∧ (after r (step r)).status.busy = false) :=
  ⟨⟨rfl, by decide, by decide⟩, ⟨rfl, by decide, by decide⟩, ⟨rfl, by decide, by decide⟩⟩

theorem witness_InterruptOutput : finishingError.eng.phase = .finish ∧
    engineStep finishingError = .next finishingError.completeError ∧ State.reset.status.busy = false :=
  ⟨by decide, rfl, by decide⟩

theorem witness_ResetValues : (validating.withInputs [.reset, .engine]).inputs = .reset :: [.engine] := by decide

theorem witness_ResetAndTheBuffer : (inMv2Run.withInputs [.reset, .engine]).inputs = .reset :: [.engine] ∧
    (mv2x3.status.busy = false) ∧
    (finishingChecked.status.busy = true ∧ finishingChecked.eng.op ≠ .xform ∧ finishingChecked.eng.op ≠ .norm) ∧
    (inMv2Run.status.busy = true ∧ inMv2Run.eng.op = .xform ∧ 0 < inMv2Run.size.toNat ∧ 3 < inMv2Run.size.toNat ∧
      3 < inMv2Run.params.bufMax ∧ inMv2Run.size.toNat ≤ 4) ∧
    (inNormRun.status.busy = true ∧ inNormRun.eng.op = .norm) := by decide

theorem witness_ResetMeetsInvariant : Config.smallest.wf ∧ largest.params.wf := by decide

theorem witness_StepKeepsInvariant : validating.Inv ∧ step validating = .next inMv2Run ∧ mv2x3.Inv ∧
    step (mv2x3.withInputs [.host (.write 0x00000008 1)]) = .next
      (after mv2x3 (step (mv2x3.withInputs [.host (.write 0x00000008 1)]))) :=
  ⟨validating_inv, rfl, idle_inv, rfl⟩

theorem witness_StepNeverStops : mv2x3.Inv ∧ inAlphaRun.Inv ∧ finishingError.Inv ∧ finishingIllegal.Inv ∧
    finishingOk.Inv ∧ finishingChecked.Inv :=
  ⟨idle_inv, inAlphaRun_inv, finishingError_inv, finishingIllegal_inv, finishingOk_inv, finishingChecked_inv⟩

/-- A busy block left alone, in each phase, and an acceptance of each operation. -/
theorem witness_EveryCommandTerminates :
    (validating.Inv ∧ validating.status.busy = true ∧ validating.inputs = [] ∧ validating.stepsLeft = 5 ∧
      0 < validating.stepsLeft) ∧
    (inNormRun.stepsLeft = 3 ∧ inAlphaRun.stepsLeft = 3 ∧ finishingOk.stepsLeft = 1) ∧
    (mv2x3.status.busy = false ∧ writeCmd 0 mv2x3 = .next (mv2x3.accept 0 .nop .encode) ∧ (operationOf 0).1 = .nop ∧
      (operationOf 4).1 = .illegal ∧ (operationOf 3).1 = .check ∧ (operationOf 2).1 = .norm ∧
      (operationOf 17).1 = .xform) :=
  ⟨⟨validating_inv, by decide, by decide, by decide, by decide⟩, by decide, by decide, rfl, by decide⟩

/-- A schedule of four engine steps with a dropped write, a CTRL write and a memory read between them. -/
theorem witness_HostActivityCannotChangeAResult :
    let es : List Event := [.host (.write 0x00000010 9), .engine, .host (.write 0x00000004 1), .engine,
      .host (.read 0x03000000), .engine, .engine]
    validating.Inv ∧ validating.status.busy = true ∧ (∀ e ∈ es, e ≠ .reset) ∧
    es.countP (· = .engine) + 1 = validating.stepsLeft :=
  ⟨validating_inv, by decide, by decide, by decide⟩

theorem witness_Mv2RoundTrip : mv2x3.Ready ∧ mv2x3.bkLen ≠ 0 ∧ mv2x3.validate .xform .mv2 = .ok 3 :=
  ⟨⟨rfl, rfl⟩, by decide, by decide⟩

/-- A normalized-ASCII buffer of the full size, and one that is not normalized with every byte below 128. -/
theorem witness_AsciiRoundTrip :
    let s := full [0x42, 0x5A] []
    (s.Ready ∧ s.bkLen = 0 ∧ s.size.toNat ≤ s.params.bufMax ∧ 1 ≤ s.skLen.toNat ∧ s.skLen.toNat ≤ s.params.skMax) ∧
    (∀ a, a < s.size.toNat → s.byte .buf a = 32 ∨ (65 ≤ (s.byte .buf a).toNat ∧ (s.byte .buf a).toNat ≤ 90)) ∧
    (∀ a, a < ascii2.size.toNat → (ascii2.byte .buf a).toNat < 128) :=
  ⟨⟨full_ready _ _, by decide, by decide, by decide, by decide⟩, by decide, by decide⟩

/-- An expansion that ends, with the polls before the last; and gaps of engine steps alone that hold as many as the
command still takes, for a busy block and for an idle one. -/
theorem witness_WaitPollsUntilNotBusy :
    (Expansion.run (.repeatUntilClear 0x0000000C 0) [[], [.engine]] [] finishingOk =
      .next ⟨finishingOk.completeOk.respond (.readOkay 0x00000002), [.readOkay 0x00000001, .readOkay 0x00000002], true⟩) ∧
    (let gaps : List (List Event) := [[.engine], [], [.engine, .engine], [.engine, .engine]]
     validating.Inv ∧ gaps ≠ [] ∧ (∀ g ∈ gaps, ∀ e ∈ g, e = .engine) ∧
       validating.stepsLeft = (gaps.map List.length).sum) ∧
    (mv2x3.Inv ∧ mv2x3.stepsLeft ≤ (([[]] : List (List Event)).map List.length).sum) :=
  ⟨rfl, ⟨validating_inv, by decide, by decide, by decide⟩, idle_inv, by decide⟩

end Sys2Proof.Tests
end

section
/-! PROOFS. The byte order of a block (R9, R42). -/

namespace Sys2Proof.Machine

variable (sp : Space) (m : Memory)

/-- Storing a block's last byte leaves a read of the bytes before it as it was. -/
theorem Memory.readBE_write_end (a n : Nat) (b : Byte) :
    Memory.readBE sp (Memory.write m (a + n) b) a n = Memory.readBE sp m a n :=
  Memory.readBE_congr sp fun _ _ h => Memory.read_write_other sp m b (Nat.ne_of_lt h)

/-- The low n + 1 bytes of a value are the low n bytes of what lies above its last byte, then that byte. -/
theorem mod_pow_succ_byte (v n : Nat) : v / 256 % 256 ^ n * 256 + v % 256 = v % 256 ^ (n + 1) := by
  rw [Nat.pow_succ', Nat.mod_mul, Nat.mul_comm, Nat.add_comm]

/-- A block reads back as what was written to it, modulo the block's size. -/
theorem Memory.readBE_writeBE (a n v : Nat) :
    Memory.readBE sp (Memory.writeBE m a n v) a n = v % 256 ^ n := by
  induction n generalizing v with
  | zero => simp [Memory.readBE, Nat.mod_one]
  | succ n ih =>
    rw [Memory.readBE, Memory.writeBE, Memory.readBE_write_end, Memory.read_write_same, ih, BitVec.toNat_ofNat]
    exact mod_pow_succ_byte v n

/-- Byte k of a written block is the (n − 1 − k)-th byte of the value from the right. -/
theorem Memory.read_writeBE_inside (a n v : Nat) {k : Nat} (h : k < n) :
    (Memory.read sp (Memory.writeBE m a n v) (a + k)).toNat = v / 256 ^ (n - 1 - k) % 256 := by
  induction n generalizing v with
  | zero => omega
  | succ n ih =>
    rw [Memory.writeBE]
    obtain hk | rfl := Nat.lt_succ_iff_lt_or_eq.1 h
    · have hexp : n + 1 - 1 - k = n - 1 - k + 1 := by omega
      rw [Memory.read_write_other sp _ _ (by omega), ih _ hk, Nat.div_div_eq_div_mul, hexp, Nat.pow_succ']
    · simp

end Sys2Proof.Machine

open Sys2Proof.Machine in
/-- Settles O33: the round trip and the place of each byte by induction on the bytes written, the last one at the
block's end; the frame is `Memory.read_writeBE_outside`. -/
theorem blocksAreBigEndian : Obligations.BlocksAreBigEndian := fun sp m a n v =>
  ⟨Memory.readBE_writeBE sp m a n v,
    fun _ hk => Memory.read_writeBE_inside sp m a n v hk,
    fun _ hb => Memory.read_writeBE_outside sp m a n v hb⟩
end

section
/-! PROOFS. A step runs the event at the head of the schedule (R11, R63). -/

namespace Sys2Proof.Machine

/-- A scheduled host transaction is the step, with the event taken. -/
theorem step_host {s : State} {x : HostTxn} {es : List Event} (h : s.inputs = .host x :: es) :
    step s = hostStep x (s.withInputs es) := by
  simp [step, h]

/-- A scheduled engine event is the engine's step while busy, with the event taken. -/
theorem step_engine_busy {s : State} {es : List Event} (hb : s.status.busy = true) (h : s.inputs = .engine :: es) :
    step s = engineStep (s.withInputs es) := by
  simp [step, h, hb]

/-- A host write to CMD's address answers OKAY and is the write to CMD (R21, R37). -/
theorem hostStep_write_cmd (w : Word) (s : State) :
    hostStep (.write (regAddress .cmd) w) s = writeCmd w (s.respond .writeOkay) := by
  simp [hostStep, hostWrite, decodeAddress_regAddress]

theorem writeCmd_legal {w : Word} {i : Instr} (h : decode w = .legal i) (s : State) : writeCmd w s = exec i s := by
  simp [writeCmd, h]

theorem writeCmd_illegal {w : Word} {why : IllegalWord} (h : decode w = .illegal why) (s : State) :
    writeCmd w s = .next (s.submitIllegal w) := by
  simp [writeCmd, h]

/-- A scheduled write to CMD is the step: the event taken, the response OKAY given, the word written to CMD. -/
theorem step_write_cmd {s : State} {w : Word} {es : List Event}
    (h : s.inputs = .host (.write (regAddress .cmd) w) :: es) :
    step s = writeCmd w ((s.withInputs es).respond .writeOkay) := by
  rw [step_host h, hostStep_write_cmd]

end Sys2Proof.Machine

open Sys2Proof.Machine in
/-- Settles O6, one lemma per kind of event: address 8 is CMD's, so a write there is `writeCmd`, which answers by the
word's decoding. -/
theorem stepRunsDecodedCommand : Obligations.StepRunsDecodedCommand :=
  ⟨fun _ _ _ h =>
      ⟨fun _ hd => (step_write_cmd h).trans (writeCmd_legal hd _),
        fun _ hd => (step_write_cmd h).trans (writeCmd_illegal hd _)⟩,
    fun _ _ _ h => step_host h,
    fun _ _ hb h => step_engine_busy hb h,
    fun _ hb h => step_busy_alone hb h⟩
end

section
/-! PROOFS. The host's reads and writes of the registers (R16 to R28). -/

namespace Sys2Proof.Machine

/-! ### Reads -/

/-- A READ of a register answers its value and changes nothing but the response, busy or not (R46). -/
theorem hostStep_read_reg (r : Reg) (s : State) :
    hostStep (.read (regAddress r)) s = .next (s.respond (.readOkay (s.readReg r))) := by
  simp only [hostStep, hostRead, decodeAddress_regAddress]

/-- Placing a word above another weighs it by the other's width. -/
theorem toNat_append_eq_add {n m : Nat} (x : BitVec n) (y : BitVec m) :
    (x ++ y).toNat = x.toNat * 2 ^ m + y.toNat := by
  rw [BitVec.toNat_append, ← Nat.shiftLeft_add_eq_or_of_lt y.isLt, Nat.shiftLeft_eq]

/-- A bit as a number. -/
theorem toNat_bool_eq_ite (b : Bool) : b.toNat = if b then 1 else 0 := by cases b <;> rfl

theorem Mode.bit_eq_true (m : Mode) : m.bit = true ↔ m = .mv2 := by cases m <;> decide

/-- STATUS as a number: each field at the weight of its lowest bit (R22). -/
theorem Status.toNat_word (st : Status) : st.word.toNat =
    (if st.busy then 1 else 0) + (if st.done then 2 else 0) + (if st.err then 4 else 0) +
      (if st.mode = .mv2 then 8 else 0) + 16 * st.ecode.toNat + (if st.haz then 256 else 0) := by
  simp only [Status.word, toNat_append_eq_add, BitVec.toNat_ofBool, toNat_bool_eq_ite, Mode.bit_eq_true,
    BitVec.ofNat_eq_ofNat, BitVec.toNat_ofNat]
  rw [← mul_boole _ 2, ← mul_boole _ 4, ← mul_boole _ 8, ← mul_boole _ 256]
  omega

/-- CTRL as a number: IE in bit 0 alone (R20). -/
theorem toNat_ctrlWord (ie : Bool) : (ctrlWord ie).toNat = if ie then 1 else 0 := by
  cases ie <;> rfl

/-- A capacity R6 allows fits the register that shows it (R28). -/
theorem toNat_ofNat_capacity {p : Params} (hp : p.wf) (sp : Space) :
    (BitVec.ofNat 32 (p.capacity sp)).toNat = p.capacity sp := by
  have := capacity_le hp sp
  rw [BitVec.toNat_ofNat]
  omega

/-! ### Writes -/

/-- A WRITE to a register other than CMD is answered OKAY and takes R17's effect on it. -/
theorem hostStep_write_reg {r : Reg} (hr : r ≠ .cmd) (w : Word) (s : State) :
    hostStep (.write (regAddress r) w) s = .next ((s.respond .writeOkay).writeReg r w) := by
  cases r <;> first | exact absurd rfl hr | simp only [hostStep, hostWrite, decodeAddress_regAddress]

/-- The registers R17 makes read-only as a whole. -/
def readOnlyRegs : List Reg := [.id, .nblk, .errinfo, .bufMax, .skMax, .bkMax]

/-- A WRITE to a read-only register is answered OKAY and ignored, busy or not (R17). -/
theorem hostStep_write_readOnly {r : Reg} (hr : r ∈ readOnlyRegs) (w : Word) (s : State) :
    hostStep (.write (regAddress r) w) s = .next (s.respond .writeOkay) := by
  cases r <;> first | exact hostStep_write_reg (by decide) w s | exact absurd hr (by decide)

/-- A bit that a write of 1 clears. -/
theorem and_not_eq_ite (bit clear : Bool) : (bit && !clear) = if clear then false else bit := by
  cases clear <;> simp

/-- A WRITE to STATUS as a choice on each written bit (R22). -/
theorem Status.writeOneToClear_eq (st : Status) (w : Word) : st.writeOneToClear w =
    { st with
      done := if w.getLsbD 1 then false else st.done
      err  := if w.getLsbD 2 then false else st.err
      haz  := if w.getLsbD 8 then false else st.haz } := by
  simp only [Status.writeOneToClear, and_not_eq_ite]

end Sys2Proof.Machine

open Sys2Proof.Machine in
/-- Settles O42: the literal offsets are the registers' addresses, where `hostStep_read_reg` gives the response; STATUS
and CTRL are read as sums of their fields. -/
theorem registerReads : Obligations.RegisterReads := by
  intro s
  refine ⟨fun q hq => ?_, rfl, rfl, rfl, rfl, rfl, rfl, rfl, fun hp => ?_, toNat_ctrlWord s.ie, s.status.toNat_word⟩
  · obtain ⟨r, -, rfl⟩ := List.mem_map.1 (show q ∈ allRegs.map fun r => (regAddress r, r) from hq)
    exact hostStep_read_reg r s
  · exact ⟨toNat_ofNat_capacity hp .buf, toNat_ofNat_capacity hp .skey, toNat_ofNat_capacity hp .bkey⟩

open Sys2Proof.Machine in
/-- Settles O8: `exec` and the write to CMD both come to `State.dropWrite` while busy. -/
theorem commandDroppedWhileBusy : Obligations.CommandDroppedWhileBusy := fun _ hb =>
  ⟨exec_busy hb, writeCmd_busy hb⟩

open Sys2Proof.Machine in
/-- Settles O43: R17's effect at each register's address, the lengths taking the branch of an idle block. -/
theorem registerWritesWhileIdle : Obligations.RegisterWritesWhileIdle := by
  intro s w hb
  have idle : ¬ (s.respond .writeOkay).status.busy = true := by simp [hb]
  refine ⟨hostStep_write_reg (r := .ctrl) (by decide) w s,
    (hostStep_write_reg (r := .size) (by decide) w s).trans (congrArg _ (if_neg idle)),
    (hostStep_write_reg (r := .skLen) (by decide) w s).trans (congrArg _ (if_neg idle)),
    (hostStep_write_reg (r := .bkLen) (by decide) w s).trans (congrArg _ (if_neg idle)), fun a ha => ?_⟩
  obtain ⟨r, hr, rfl⟩ := List.mem_map.1 (show a ∈ readOnlyRegs.map regAddress from ha)
  exact hostStep_write_readOnly hr w s

open Sys2Proof.Machine in
/-- Settles O44: a write to STATUS is `Status.writeOneToClear`, bit by bit a choice on the written bit. -/
theorem statusWriteOneToClear : Obligations.StatusWriteOneToClear := by
  intro s w
  rw [← Status.writeOneToClear_eq]
  exact hostStep_write_reg (r := .status) (by decide) w s
end

section
/-! PROOFS. The interrupt output (R31). -/

namespace Sys2Proof.Machine

theorem State.irq_iff (s : State) :
    s.irq = true ↔ s.ie = true ∧ (s.status.done = true ∨ s.status.err = true) := by
  simp [State.irq]

/-- Either completion raises DONE or ERR, so irq follows IE (R74, R75). -/
theorem irq_of_finishStep {s t : State} (h : finishStep s = .next t) : t.irq = s.ie := by
  rcases finishStep_cases h with ⟨-, rfl⟩ | ⟨-, -, rfl⟩ <;> simp [State.irq]

/-- Acceptance clears DONE and ERR, and with them irq (R61). -/
@[simp] theorem State.irq_accept (s : State) (w : Word) (op : Op) (dir : Dir) : (s.accept w op dir).irq = false := by
  simp [State.irq]

/-- While idle a write of any word to CMD is accepted and leaves irq 0 (R61, R77). -/
theorem writeCmd_idle_irq {s : State} (hb : s.status.busy = false) (w : Word) :
    ∃ t, writeCmd w s = .next t ∧ t.irq = false := by
  rcases writeCmd_cases w s with ⟨hbusy, -⟩ | ⟨-, i, -, hw, hi⟩ | ⟨-, why, -, -, hw⟩
  · simp [hb] at hbusy
  · exact ⟨_, hw.trans hi, State.irq_accept ..⟩
  · exact ⟨_, hw, State.irq_accept s w .illegal .encode⟩

end Sys2Proof.Machine

open Sys2Proof.Machine in
/-- Settles O50: FINISH raises DONE or ERR, acceptance clears both, and reset clears IE. -/
theorem interruptOutput : Obligations.InterruptOutput := by
  refine ⟨State.irq_iff, fun s t hp h => ?_, fun s i hb => ⟨_, exec_idle hb i, State.irq_accept ..⟩,
    fun s w hb => writeCmd_idle_irq hb w, fun s => rfl⟩
  have hfin : engineStep s = finishStep s := by simp [engineStep, hp]
  exact irq_of_finishStep (hfin ▸ h)
end

section
/-! PROOFS. What the invariant says of an idle and of a busy block, and which updates keep it (R22, R33, R38). -/

namespace Sys2Proof.Machine

/-! ### The parts of the invariant -/

/-- R6 allows the parameters, and each memory is canonical and inside its capacity (R38). -/
def State.StorageOk (s : State) : Prop := s.params.wf ∧ ∀ sp, (s.mem sp).fits (s.params.capacity sp)

/-- What STATUS keeps, idle or busy: no reserved code, DONE and ERR not both 1, no code with DONE (R22, R115). -/
def Status.Ok (st : Status) : Prop :=
  st.ecode.toNat ≤ 5 ∧ ¬ (st.done = true ∧ st.err = true) ∧ (st.done = true → st.ecode = 0)

/-- DONE, ERR, ECODE, NBLK and ERRINFO are 0, as acceptance leaves them (R22, R61). -/
def State.ResultsClear (s : State) : Prop :=
  s.status.done = false ∧ s.status.err = false ∧ s.status.ecode = 0 ∧ s.nblk = 0 ∧ s.errinfo = 0

/-- The clauses of the invariant on the parameters and the three memories. -/
theorem State.Inv.storageOk {s : State} (h : s.Inv) : s.StorageOk :=
  ⟨h.params_wf, fun sp => by cases sp <;> [exact h.skey_fits; exact h.bkey_fits; exact h.buf_fits]⟩

theorem Status.ok_of_clear {st : Status} (hd : st.done = false) (hc : st.ecode = 0) : st.Ok := by
  simp [Status.Ok, hd, hc]

/-- A consistent engine is at work (R63). -/
theorem State.EngineOk.phase_ne_idle {s : State} (h : s.EngineOk) : s.eng.phase ≠ .idle := fun hp => by
  simp [State.EngineOk, hp] at h

/-- The invariant of an idle block. -/
theorem State.inv_iff_of_idle {s : State} (hb : s.status.busy = false) :
    s.Inv ↔ s.StorageOk ∧ s.status.Ok ∧ s.eng.phase = .idle := by
  constructor
  · intro h
    have hp : ¬ s.eng.phase ≠ .idle := fun hp => by simp [h.busy_iff.2 hp] at hb
    exact ⟨h.storageOk, ⟨h.ecode_le, h.done_err, h.done_ecode⟩, not_not.1 hp⟩
  · rintro ⟨⟨hw, hm⟩, ⟨h1, h2, h3⟩, hp⟩
    exact ⟨hw, hm .buf, hm .skey, hm .bkey, h1, h2, h3, by simp [hb, hp], by simp [hb], by simp [hb]⟩

/-- The invariant of a busy block. -/
theorem State.inv_iff_of_busy {s : State} (hb : s.status.busy = true) :
    s.Inv ↔ s.StorageOk ∧ s.ResultsClear ∧ s.EngineOk := by
  constructor
  · exact fun h => ⟨h.storageOk, h.busy_clear hb, h.engine_ok hb⟩
  · rintro ⟨⟨hw, hm⟩, hr, he⟩
    obtain ⟨hdone, -, hcode, -⟩ := id hr
    obtain ⟨h1, h2, h3⟩ := Status.ok_of_clear hdone hcode
    exact ⟨hw, hm .buf, hm .skey, hm .bkey, h1, h2, h3, by simp [hb, he.phase_ne_idle], fun _ => hr, fun _ => he⟩

/-! ### Updates that keep the parts -/

/-- Storage depends on the parameters and the memories alone. -/
theorem State.StorageOk.congr {s t : State} (h : s.StorageOk) (hp : t.params = s.params)
    (hm : ∀ sp, t.mem sp = s.mem sp) : t.StorageOk := by
  simpa only [State.StorageOk, hp, hm] using h

/-- The buffer may be replaced by another that fits. -/
theorem State.StorageOk.of_buf {s t : State} (h : s.StorageOk) (hp : t.params = s.params) (hk : t.skey = s.skey)
    (hbk : t.bkey = s.bkey) (hf : t.buf.fits s.params.bufMax) : t.StorageOk := by
  refine ⟨hp ▸ h.1, fun sp => hp ▸ ?_⟩
  cases sp
  · simpa [hk] using h.2 .skey
  · simpa [hbk] using h.2 .bkey
  · exact hf

/-- One memory may be replaced by another that fits. -/
theorem State.StorageOk.setMem {s : State} (h : s.StorageOk) {sp : Space} {m : Memory}
    (hm : m.fits (s.params.capacity sp)) : (s.setMem sp m).StorageOk := by
  refine ⟨by simpa using h.1, fun sp' => ?_⟩
  by_cases he : sp' = sp
  · subst he
    simpa using hm
  · simpa [State.mem_setMem_other s m he] using h.2 sp'

/-- Writing ones to STATUS only clears bits (R22). -/
theorem Status.Ok.writeOneToClear {st : Status} (h : st.Ok) (w : Word) : (st.writeOneToClear w).Ok := by
  obtain ⟨hc, hde, hdc⟩ := h
  refine ⟨hc, fun hb => hde ?_, fun hd => hdc ?_⟩
  · simp only [Status.writeOneToClear, Bool.and_eq_true] at hb
    exact ⟨hb.1.1, hb.2.1⟩
  · simp only [Status.writeOneToClear, Bool.and_eq_true] at hd
    exact hd.1

/-- An engine's consistency depends on its registers, the operands of validation and STATUS.MODE alone. -/
theorem State.EngineOk.congr {s t : State} (hs : s.EngineOk) (h : s.SameOperands t) (he : t.eng = s.eng)
    (hm : t.status.mode = s.status.mode) : t.EngineOk := by
  simpa only [State.EngineOk, he, hm, State.derivedMode_congr h, State.validate_congr h, h.size, h.skLen, h.bkLen,
    State.blockStart_congr h.bkLen h.bkey] using hs

/-- The invariant reads nothing but the engine's view. -/
theorem State.inv_engineView (s : State) : s.engineView.Inv ↔ s.Inv := by
  constructor <;> rintro ⟨hw, hbuf, hskey, hbkey, h1, h2, h3, h4, h5, he⟩ <;>
    exact ⟨hw, hbuf, hskey, hbkey, h1, h2, h3, h4, h5, fun hb => (he hb).congr ⟨rfl, rfl, rfl, rfl, rfl⟩ rfl rfl⟩

/-- Two states with one engine's view meet the invariant together. -/
theorem State.Inv.of_engineView {s t : State} (hs : s.Inv) (h : t.engineView = s.engineView) : t.Inv :=
  t.inv_engineView.1 (h ▸ s.inv_engineView.2 hs)

/-- The engine's view shows the refusal mark. -/
theorem State.refused_of_engineView {s t : State} (h : t.engineView = s.engineView) : t.refused = s.refused :=
  (congrArg State.refused h : t.engineView.refused = s.engineView.refused)

/-! ### What an engine step moves -/

/-- The state after an engine step that leaves `b` in BUF and `e` in the working registers: before FINISH no engine
step changes anything else (R64, R93, R100, R111). -/
def State.moveEngine (s : State) (b : Memory) (e : Engine) : State := { s with buf := b, eng := e }

section
variable (s : State) (b : Memory) (e : Engine)

@[simp] theorem State.moveEngine_size : (s.moveEngine b e).size = s.size := rfl
@[simp] theorem State.moveEngine_skLen : (s.moveEngine b e).skLen = s.skLen := rfl
@[simp] theorem State.moveEngine_bkLen : (s.moveEngine b e).bkLen = s.bkLen := rfl
@[simp] theorem State.moveEngine_eng : (s.moveEngine b e).eng = e := rfl

theorem State.sameOperands_moveEngine : s.SameOperands (s.moveEngine b e) := ⟨rfl, rfl, rfl, rfl, rfl⟩

@[simp] theorem State.validate_moveEngine (op : Op) (m : Mode) :
    (s.moveEngine b e).validate op m = s.validate op m := State.validate_congr (s.sameOperands_moveEngine b e) op m

@[simp] theorem State.blockStart_moveEngine (p : Nat) : (s.moveEngine b e).blockStart p = s.blockStart p :=
  State.blockStart_congr (s.sameOperands_moveEngine b e).bkLen (s.sameOperands_moveEngine b e).bkey p

end

/-- A busy block keeps the invariant where the new buffer fits and the new registers are consistent. -/
theorem State.Inv.moveEngine {s : State} (hs : s.Inv) (hb : s.status.busy = true) {b : Memory} {e : Engine}
    (hf : b.fits s.params.bufMax) (he : (s.moveEngine b e).EngineOk) : (s.moveEngine b e).Inv :=
  (State.inv_iff_of_busy (s := s.moveEngine b e) hb).2 ⟨hs.storageOk.of_buf rfl rfl rfl hf, hs.busy_clear hb, he⟩

end Sys2Proof.Machine
end

section
/-! PROOFS. Each engine step of a busy block keeps the invariant and the refusal mark (R33, R34, R64, R74, R75, R93,
R100, R111). -/

namespace Sys2Proof.Machine

/-- A cursor that stays at or below a word does not overflow. -/
theorem toNat_add_ofNat {a b : Word} {k : Nat} (h : a.toNat + k ≤ b.toNat) :
    (a + BitVec.ofNat 32 k).toNat = a.toNat + k := by
  have := b.isLt
  rw [BitVec.toNat_add, BitVec.toNat_ofNat]
  omega

/-! ### VALIDATE -/

/-- Where each phase after a passing validation comes from (R64). -/
theorem State.phaseValidated_cases {s : State} {k : Nat} {ph : Phase} (h : s.phaseValidated k = some ph) :
    ph = .finish ∨ (ph = .normRun ∧ s.eng.op = .norm ∧ s.size ≠ 0) ∨
    (ph = .alphaRun ∧ s.eng.op = .xform ∧ s.eng.mode = .ascii ∧ s.size ≠ 0) ∨
    (ph = .mv2Run ∧ s.eng.op = .xform ∧ s.eng.mode = .mv2 ∧ k ≠ 0) := by
  unfold State.phaseValidated at h
  split at h
  · simp_all
  · split at h <;> simp_all
  · split at h <;> split at h <;> simp_all
  · cases h
  · cases h

/-- A busy engine in MV2 mode has a nonempty block-size key (R29). -/
theorem State.EngineOk.bkLen_ne_zero {s : State} (h : s.EngineOk) (hop : s.eng.op = .norm ∨ s.eng.op.readsKeys = true)
    (hm : s.eng.mode = .mv2) : s.bkLen ≠ 0 := by
  obtain ⟨-, hkeys, hnorm, -⟩ := h
  rcases hop with hop | hop
  · exact absurd (hm.symm.trans (hnorm hop).1) (by decide)
  · intro h0
    have hmv2 : .mv2 = s.derivedMode := hm.symm.trans (hkeys hop).1
    simp [State.derivedMode, h0] at hmv2

/-- A passing validation's block count fits a word: it is 0 or at most SIZE. -/
theorem State.validate_ok_lt {s : State} {op : Op} {m : Mode} {k : Nat} (hop : op = .norm ∨ op.readsKeys = true)
    (hm : m = .mv2 → s.bkLen ≠ 0) (h : s.validate op m = .ok k) : k < 2 ^ 32 := by
  rcases hop with rfl | hop
  · have := ((s.validate_norm_ok m k).1 h).1
    omega
  cases m with
  | ascii =>
    have := ((s.validate_ascii_ok hop k).1 h).1
    omega
  | mv2 =>
    have := (s.validate_mv2_ok hop (hm rfl) h).count_le (hm rfl)
    have := s.size.isLt
    omega

/-- VALIDATE goes to FINISH with the verdict's error, or starts the run with every cursor and pointer at 0. -/
theorem validateStep_keeps {s : State} (hs : s.Inv) (hb : s.status.busy = true) (hp : s.eng.phase = .validate) :
    (validateStep s).Inv ∧ (validateStep s).refused = s.refused := by
  obtain ⟨hcmd, hkeys, hnorm, hphase⟩ := hs.engine_ok hb
  simp only [hp] at hphase
  obtain ⟨hop, hec, hn, hblk, hkp, hbp, -⟩ := hphase
  have hkind : s.eng.op = .norm ∨ s.eng.op.readsKeys = true := by
    rcases hop with h | h | h <;> simp [h, Op.readsKeys]
  obtain ⟨hnop, hill⟩ : s.eng.op ≠ .nop ∧ s.eng.op ≠ .illegal := by
    rcases hop with h | h | h <;> simp [h]
  rcases validateStep_cases s with ⟨c, info, hv, e⟩ | ⟨k, ph, hv, hph, e⟩ | ⟨-, hno⟩
  · have he : (s.moveEngine s.buf { s.eng with ecode := c.code, einfo := info, phase := .finish }).EngineOk :=
      ⟨hcmd, hkeys, hnorm, Or.inr (Or.inr ⟨hnop, hill, c, rfl, by simpa using hv⟩)⟩
    exact ⟨e ▸ hs.moveEngine hb hs.buf_fits he, e ▸ rfl⟩
  · have hk : (BitVec.ofNat 32 k).toNat = k := by
      rw [BitVec.toNat_ofNat]
      exact Nat.mod_eq_of_lt (s.validate_ok_lt hkind ((hs.engine_ok hb).bkLen_ne_zero hkind) hv)
    generalize BitVec.ofNat 32 k = blocks at hk e
    subst hk
    have he : (s.moveEngine s.buf { s.eng with nblk := blocks, phase := ph }).EngineOk := by
      have hpos : s.size ≠ 0 → s.eng.n.toNat < s.size.toNat := fun hz => hn ▸ word_ne_zero.1 hz
      refine ⟨hcmd, hkeys, hnorm, ?_⟩
      rcases State.phaseValidated_cases hph with rfl | ⟨rfl, ho, hz⟩ | ⟨rfl, ho, hm, hz⟩ | ⟨rfl, ho, hm, hz⟩
      · exact Or.inl ⟨hec, Or.inr ⟨hill, by simpa using hv⟩⟩
      · exact ⟨ho, hec, by simpa [ho, (hnorm ho).1] using hv, hpos hz⟩
      · exact ⟨ho, hm, hec, by simpa [ho, hm] using hv, hpos hz, by simp [hn, hkp]⟩
      · exact ⟨ho, hm, hec, by simpa [ho, hm] using hv, by simpa [hblk] using Nat.pos_of_ne_zero hz,
          by simp [hn, hblk, State.blockStart], by simp [hkp, hblk], by simp [hbp, hblk]⟩
    exact ⟨e ▸ hs.moveEngine hb hs.buf_fits he, e ▸ rfl⟩
  · rcases hno with h | h | h
    · exact (s.validate_ne_noMeaning (hkind.imp id fun h => (hkeys h).1) h).elim
    · exact (hnop h).elim
    · exact (hill h).elim

/-! ### The run steps -/

/-- A run goes on until the cursor reaches SIZE (R93, R100, R111). -/
theorem State.phaseAfter_cases (s : State) (n : Word) :
    (n.toNat = s.size.toNat ∧ s.phaseAfter n = .finish) ∨ (n.toNat ≠ s.size.toNat ∧ s.phaseAfter n = s.eng.phase) := by
  rw [State.phaseAfter_eq]
  split
  · exact .inl ⟨‹_›, rfl⟩
  · exact .inr ⟨‹_›, rfl⟩

/-- The NORM step has its operand in reach and moves the cursor on. -/
theorem normStep_keeps {s : State} (hs : s.Inv) (hb : s.status.busy = true) (hp : s.eng.phase = .normRun) :
    (normStep s).Inv ∧ (normStep s).refused = s.refused := by
  obtain ⟨hcmd, hkeys, hnorm, hphase⟩ := hs.engine_ok hb
  simp only [hp] at hphase
  obtain ⟨ho, hec, hv, hlt⟩ := hphase
  have hsize := ((s.validate_norm_ok _ _).1 hv).2
  obtain ⟨-, -, e⟩ := (normStep_cases s).resolve_right fun h => h.1 ⟨hlt, hsize⟩
  have hn : (s.eng.n + 1).toNat = s.eng.n.toNat + 1 := toNat_add_ofNat hlt
  have he : (s.moveEngine (s.buf.write s.eng.n.toNat (normalize (s.byte .buf s.eng.n.toNat)))
      { s.eng with n := s.eng.n + 1, phase := s.phaseAfter (s.eng.n + 1) }).EngineOk := by
    refine ⟨hcmd, hkeys, hnorm, ?_⟩
    rcases s.phaseAfter_cases (s.eng.n + 1) with ⟨-, hph⟩ | ⟨hmore, hph⟩ <;> rw [hph]
    · exact Or.inl ⟨hec, Or.inr ⟨by simp [ho], by simpa [ho, (hnorm ho).1] using hv⟩⟩
    · rw [hp]
      exact ⟨ho, hec, by simpa using hv, Nat.lt_of_le_of_ne (hn ▸ hlt) hmore⟩
  exact ⟨e ▸ hs.moveEngine hb (Memory.fits_write hs.buf_fits (by omega) _) he, e ▸ rfl⟩

/-- The ALPHA step has its operands in reach; the key pointer goes on counting modulo SK_LEN. -/
theorem alphaStep_keeps {s : State} (hs : s.Inv) (hb : s.status.busy = true) (hp : s.eng.phase = .alphaRun) :
    (alphaStep s).Inv ∧ (alphaStep s).refused = s.refused := by
  obtain ⟨hcmd, hkeys, hnorm, hphase⟩ := hs.engine_ok hb
  simp only [hp] at hphase
  obtain ⟨ho, hm, hec, hv, hlt, hkp⟩ := hphase
  obtain ⟨-, hsize, hsk, -, hskpos⟩ := (s.validate_ascii_ok rfl _).1 hv
  have hkplt : s.eng.kp.toNat < s.skLen.toNat := hkp ▸ Nat.mod_lt _ hskpos
  obtain ⟨-, -, -, -, e⟩ := (alphaStep_cases s).resolve_right fun h => h.1 ⟨hlt, hsize, hkplt, hsk⟩
  have hn : (s.eng.n + 1).toNat = s.eng.n.toNat + 1 := toNat_add_ofNat hlt
  have he : (s.moveEngine (s.buf.write s.eng.n.toNat
        (alphaByte (normalize (s.byte .buf s.eng.n.toNat)) (s.byte .skey s.eng.kp.toNat) s.eng.dir))
      { s.eng with
        kp := wrapInc s.eng.kp s.skLen, n := s.eng.n + 1, phase := s.phaseAfter (s.eng.n + 1) }).EngineOk := by
    refine ⟨hcmd, hkeys, hnorm, ?_⟩
    rcases s.phaseAfter_cases (s.eng.n + 1) with ⟨-, hph⟩ | ⟨hmore, hph⟩ <;> rw [hph]
    · exact Or.inl ⟨hec, Or.inr ⟨by simp [ho], by simpa [ho, hm] using hv⟩⟩
    · rw [hp]
      exact ⟨ho, hm, hec, by simpa using hv, Nat.lt_of_le_of_ne (hn ▸ hlt) hmore, hn ▸ wrapInc_mod hskpos hkp⟩
  exact ⟨e ▸ hs.moveEngine hb (Memory.fits_write hs.buf_fits (by omega) _) he, e ▸ rfl⟩

/-- In the phase of a busy MV2 run the BLOCK step is the datapath's, with the schedule's length of block E.p, which ends
inside the buffer (R106, R111). -/
theorem State.EngineOk.blockStep_eq {s : State} (h : s.EngineOk) (hp : s.eng.phase = .mv2Run) :
    blockStep s = blockStepWith s (s.blockLengthAt s.eng.p.toNat) ∧
    s.eng.n.toNat + s.blockLengthAt s.eng.p.toNat ≤ s.size.toNat ∧ s.Mv2Valid s.eng.nblk.toNat := by
  obtain ⟨-, -, -, hphase⟩ := id h
  simp only [hp] at hphase
  obtain ⟨ho, hm, -, hv, hlt, hn, hkp, hbp⟩ := hphase
  have h0 := h.bkLen_ne_zero (.inr (by simp [ho, Op.readsKeys])) hm
  have hM := s.validate_mv2_ok rfl h0 hv
  have hL := (s.blockLengthAt_spec hM.good h0 s.eng.p.toNat).1
  have hend : s.eng.n.toNat + s.blockLengthAt s.eng.p.toNat ≤ s.size.toNat :=
    hn ▸ hM.total ▸ s.blockStart_mono hlt
  rw [State.blockSymbolAt, ← hbp] at hL
  have hbplt : s.eng.bp.toNat < s.bkLen.toNat := hbp ▸ Nat.mod_lt _ (word_ne_zero.1 h0)
  have hkplt : s.eng.kp.toNat < s.skLen.toNat := hkp ▸ Nat.mod_lt _ hM.sk_pos
  obtain ⟨L, hL', -, -, -, -, -, -, e⟩ := (blockStep_cases s).resolve_right fun hno =>
    hno.1 _ hL ⟨hbplt, hM.bk_le, hkplt, hM.sk_le, hend, hM.size_le⟩
  cases hL.symm.trans hL'
  exact ⟨e, hend, hM⟩

/-- The BLOCK step as a move of the engine (R111). -/
theorem blockStepWith_eq_moveEngine (s : State) (L : Nat) : blockStepWith s L =
    s.moveEngine (blockStepWith s L).buf
      { s.eng with
        bp := (blockStepWith s L).eng.bp, kp := (blockStepWith s L).eng.kp, n := s.eng.n + BitVec.ofNat 32 L
        p := s.eng.p + 1, phase := s.phaseAfter (s.eng.n + BitVec.ofNat 32 L) } := by
  simp only [blockStepWith, State.moveEngine]

/-- The BLOCK step moves every cursor and pointer from block E.p to the next; the last block ends at SIZE. -/
theorem blockStep_keeps {s : State} (hs : s.Inv) (hb : s.status.busy = true) (hp : s.eng.phase = .mv2Run) :
    (blockStep s).Inv ∧ (blockStep s).refused = s.refused := by
  obtain ⟨e, hend, hM⟩ := (hs.engine_ok hb).blockStep_eq hp
  obtain ⟨hcmd, hkeys, hnorm, hphase⟩ := hs.engine_ok hb
  simp only [hp] at hphase
  obtain ⟨ho, hm, hec, hv, hlt, hn, hkp, hbp⟩ := hphase
  have h0 := (hs.engine_ok hb).bkLen_ne_zero (.inr (by simp [ho, Op.readsKeys])) hm
  obtain ⟨hbuf, hkp', hbp'⟩ := blockStepWith_pointers s (s.blockLengthAt s.eng.p.toNat) s.eng.p.toNat hM.sk_pos
    (word_ne_zero.1 h0) hkp hbp
  have hn' := toNat_add_ofNat hend
  have hp' : (s.eng.p + 1).toNat = s.eng.p.toNat + 1 := toNat_add_ofNat hlt
  have hfits := Memory.fits_writeBE hs.buf_fits (Nat.le_trans hend hM.size_le)
  rw [e, blockStepWith_eq_moveEngine]
  refine ⟨hs.moveEngine hb (hbuf ▸ hfits _) ⟨hcmd, hkeys, hnorm, ?_⟩, rfl⟩
  rcases s.phaseAfter_cases (s.eng.n + BitVec.ofNat 32 (s.blockLengthAt s.eng.p.toNat)) with
    ⟨-, hph⟩ | ⟨hmore, hph⟩ <;> rw [hph]
  · exact Or.inl ⟨hec, Or.inr ⟨by simp [ho], by simpa [ho, hm] using hv⟩⟩
  · have hlast : s.eng.p.toNat + 1 ≠ s.eng.nblk.toNat := fun hk => hmore (by
      rw [hn', hn, ← hM.total, ← hk, State.blockStart])
    rw [hp]
    refine ⟨ho, hm, hec, by simpa using hv, ?_, ?_, ?_, ?_⟩
    · simp only [State.moveEngine_eng, hp']
      omega
    · simp only [State.moveEngine_eng, hp', hn', hn, State.blockStart_moveEngine, State.blockStart]
    · simp only [State.moveEngine_eng, State.moveEngine_skLen, hp', hkp']
    · simp only [State.moveEngine_eng, State.moveEngine_bkLen, hp', hbp']

/-! ### FINISH -/

/-- A consistent engine never holds a reserved code at FINISH (R115). -/
theorem State.EngineOk.ecode_le {s : State} (h : s.EngineOk) (hp : s.eng.phase = .finish) : s.eng.ecode.toNat ≤ 5 := by
  obtain ⟨-, -, -, hphase⟩ := h
  simp only [hp] at hphase
  rcases hphase with ⟨hc, -⟩ | ⟨-, hc, -⟩ | ⟨-, -, c, hc, -⟩
  · simp [hc]
  · exact hc ▸ ErrorCode.code_le _
  · exact hc ▸ ErrorCode.code_le c

/-- FINISH without a pending error leaves an idle block that reports DONE alone (R74). -/
theorem State.Inv.completeOk {s : State} (hs : s.Inv) (hb : s.status.busy = true) : s.completeOk.Inv := by
  obtain ⟨hm, ⟨-, herr, hcode, -⟩, -⟩ := (State.inv_iff_of_busy hb).1 hs
  exact (State.inv_iff_of_idle rfl).2 ⟨hm.congr rfl fun sp => rfl, by simp [Status.Ok, herr, hcode], rfl⟩

/-- FINISH with a pending error of R115 leaves an idle block that reports ERR alone (R75). -/
theorem State.Inv.completeError {s : State} (hs : s.Inv) (hb : s.status.busy = true) (hc : s.eng.ecode.toNat ≤ 5) :
    s.completeError.Inv := by
  obtain ⟨hm, ⟨hdone, -⟩, -⟩ := (State.inv_iff_of_busy hb).1 hs
  exact (State.inv_iff_of_idle rfl).2 ⟨hm.congr rfl fun sp => rfl, by simp [Status.Ok, hdone, hc], rfl⟩

/-- FINISH completes with DONE or with ERR and never faults. -/
theorem finishStep_keeps {s : State} (hs : s.Inv) (hb : s.status.busy = true) (hp : s.eng.phase = .finish) :
    ∃ t, finishStep s = .next t ∧ t.Inv ∧ t.refused = s.refused := by
  have hle := (hs.engine_ok hb).ecode_le hp
  by_cases hc : s.eng.ecode = 0
  · exact ⟨_, if_pos hc, hs.completeOk hb, rfl⟩
  · exact ⟨_, (if_neg hc).trans (if_pos hle), hs.completeError hb hle, rfl⟩

/-! ### One engine step -/

/-- Every phase of a busy engine: its step answers a next state that meets the invariant, the mark as before. -/
theorem engineStep_keeps {s : State} (hs : s.Inv) (hb : s.status.busy = true) :
    ∃ t, engineStep s = .next t ∧ t.Inv ∧ t.refused = s.refused := by
  unfold engineStep
  split
  · exact (hs.busy_iff.1 hb ‹_›).elim
  · exact ⟨_, rfl, validateStep_keeps hs hb ‹_›⟩
  · exact ⟨_, rfl, normStep_keeps hs hb ‹_›⟩
  · exact ⟨_, rfl, alphaStep_keeps hs hb ‹_›⟩
  · exact ⟨_, rfl, blockStep_keeps hs hb ‹_›⟩
  · exact finishStep_keeps hs hb ‹_›

end Sys2Proof.Machine
end

section
/-! PROOFS. Host transactions, reset and every step keep the invariant and the refusal mark (R17, R34, R61, R131). -/

namespace Sys2Proof.Machine

/-! ### Acceptance -/

/-- No instruction's word is illegal (R53). -/
theorem operationOf_encode_ne_illegal (i : Instr) : (operationOf (encode i)).1 ≠ .illegal := by
  cases i <;> decide

/-- Acceptance of a legal word leaves a consistent engine in the phase R61 gives it. -/
theorem State.engineOk_accept (s : State) {w : Word} {op : Op} {dir : Dir} (hw : (op, dir) = operationOf w)
    (hop : op ≠ .illegal) : (s.accept w op dir).EngineOk := by
  cases op
  case nop => exact ⟨hw, nofun, nofun, Or.inl ⟨rfl, Or.inl rfl⟩⟩
  case xform => exact ⟨hw, fun _ => ⟨rfl, rfl⟩, nofun, Or.inl rfl, rfl, rfl, rfl, rfl, rfl, rfl⟩
  case norm => exact ⟨hw, nofun, fun _ => ⟨rfl, rfl⟩, Or.inr (Or.inl rfl), rfl, rfl, rfl, rfl, rfl, rfl⟩
  case check => exact ⟨hw, fun _ => ⟨rfl, rfl⟩, nofun, Or.inr (Or.inr rfl), rfl, rfl, rfl, rfl, rfl, rfl⟩
  case illegal => exact absurd rfl hop

/-- Acceptance of an illegal word leaves the error pending, with the word as its info (R77). -/
theorem State.engineOk_acceptIllegal (s : State) {w : Word} (hw : operationOf w = (.illegal, .encode)) :
    ((s.accept w .illegal .encode).pendError .illegalCommand w).EngineOk :=
  ⟨hw.symm, nofun, nofun, Or.inr (Or.inl ⟨rfl, rfl, rfl⟩)⟩

/-- A write of any word to CMD keeps the invariant while idle. -/
theorem writeCmd_idle_keeps {s t : State} (hs : s.Inv) (hb : s.status.busy = false) {w : Word}
    (h : writeCmd w s = .next t) : t.Inv ∧ t.refused = s.refused := by
  rcases writeCmd_cases w s with ⟨hbusy, -⟩ | ⟨-, i, -, hw, hi⟩ | ⟨-, why, -, hop, hw⟩
  · simp [hb] at hbusy
  · cases h.symm.trans (hw.trans hi)
    exact ⟨(State.inv_iff_of_busy rfl).2 ⟨hs.storageOk.congr rfl fun sp => rfl, ⟨rfl, rfl, rfl, rfl, rfl⟩,
      s.engineOk_accept rfl (operationOf_encode_ne_illegal i)⟩, rfl⟩
  · cases h.symm.trans hw
    exact ⟨(State.inv_iff_of_busy rfl).2 ⟨hs.storageOk.congr rfl fun sp => rfl, ⟨rfl, rfl, rfl, rfl, rfl⟩,
      s.engineOk_acceptIllegal hop⟩, rfl⟩

/-! ### Host transactions -/

/-- A READ is outside the engine's view, idle or busy (R44, R46). -/
theorem hostRead_engineView (a : Word) (s : State) : (hostRead a s).engineView = s.engineView := by
  obtain ⟨r, n, e, -⟩ := hostRead_cases a s
  rw [e]
  rfl

/-- With DONE and ERR clear, a write of ones to STATUS can clear nothing but HAZ. -/
theorem Status.writeOneToClear_of_clear {st : Status} (hd : st.done = false) (he : st.err = false) (w : Word) :
    st.writeOneToClear w = { st with haz := st.haz && !w.getLsbD 8 } := by
  simp [Status.writeOneToClear, hd, he]

/-- No WRITE to a busy block reaches the engine's view (R17, R133). -/
theorem hostWrite_busy_engineView {s t : State} {a d : Word} (hs : s.Inv) (hb : s.status.busy = true)
    (h : hostWrite a d s = .next t) : t.engineView = s.engineView := by
  obtain ⟨hd, he, -⟩ := hs.busy_clear hb
  obtain ⟨r, ⟨rfl, -⟩ | ⟨rfl, -⟩ | rfl | rfl⟩ := hostWrite_busy hb h
  · rfl
  · rw [Status.writeOneToClear_of_clear hd he]
    rfl
  · rfl
  · rfl

/-- An idle block keeps the invariant where its engine is left alone. -/
theorem State.Inv.of_idle_update {s t : State} (hs : s.Inv) (hb : s.status.busy = false)
    (hb' : t.status.busy = false) (hm : t.StorageOk) (hst : t.status.Ok) (he : t.eng = s.eng) : t.Inv :=
  (State.inv_iff_of_idle hb').2 ⟨hm, hst, he ▸ ((State.inv_iff_of_idle hb).1 hs).2.2⟩

/-- Every WRITE to an idle block keeps the invariant: it is a command, or a register or a memory byte of the host's. -/
theorem hostWrite_idle_keeps {s t : State} {a d : Word} (hs : s.Inv) (hb : s.status.busy = false)
    (h : hostWrite a d s = .next t) : t.Inv ∧ t.refused = s.refused := by
  obtain ⟨hm, hst, -⟩ := (State.inv_iff_of_idle hb).1 hs
  obtain ⟨r, ⟨-, hcmd⟩ | rfl | ⟨rfl, -⟩ | rfl | rfl | rfl | rfl | ⟨sp, i, hi, rfl⟩⟩ := hostWrite_idle hb h
  · exact writeCmd_idle_keeps (s := s.respond r) (hs.of_engineView rfl) hb hcmd
  · exact ⟨hs.of_idle_update hb hb (hm.congr rfl fun _ => rfl) hst rfl, rfl⟩
  · exact ⟨hs.of_idle_update hb hb (hm.congr rfl fun _ => rfl) (hst.writeOneToClear d) rfl, rfl⟩
  · exact ⟨hs.of_idle_update hb hb (hm.congr rfl fun _ => rfl) hst rfl, rfl⟩
  · exact ⟨hs.of_idle_update hb hb (hm.congr rfl fun _ => rfl) hst rfl, rfl⟩
  · exact ⟨hs.of_idle_update hb hb (hm.congr rfl fun _ => rfl) hst rfl, rfl⟩
  · exact ⟨hs.of_idle_update hb hb (hm.congr rfl fun _ => rfl) hst rfl, rfl⟩
  · have hm' : (s.respond r).StorageOk := hm.congr rfl fun _ => rfl
    exact ⟨hs.of_idle_update hb (by simpa using hb) (hm'.setMem (Memory.fits_write (hm.2 sp) hi _)) (by simpa using hst)
      (by simp), by simp⟩

/-- Every host transaction keeps the invariant, idle or busy, and the refusal mark. -/
theorem hostStep_keeps {s t : State} {x : HostTxn} (hs : s.Inv) (h : hostStep x s = .next t) :
    t.Inv ∧ t.refused = s.refused := by
  cases x with
  | read a =>
    cases h
    exact ⟨hs.of_engineView (hostRead_engineView a s), State.refused_of_engineView (hostRead_engineView a s)⟩
  | write a d =>
    cases hb : s.status.busy with
    | false => exact hostWrite_idle_keeps hs hb h
    | true =>
      have hv := hostWrite_busy_engineView hs hb h
      exact ⟨hs.of_engineView hv, State.refused_of_engineView hv⟩

/-! ### Reset and the step -/

/-- Reset leaves an idle block with its memories inside their capacities (R129, R131). -/
theorem State.Inv.resetEvent {s : State} (hs : s.Inv) : (resetEvent s).Inv :=
  (State.inv_iff_of_idle rfl).2 ⟨hs.storageOk.of_buf rfl rfl rfl (Memory.fits_redraw hs.buf_fits s.abandonedBytes_le _),
    Status.ok_of_clear rfl rfl, rfl⟩

/-- The machine goes on from every state that meets the invariant, to one that meets it, the refusal mark as before. -/
theorem step_keeps {s : State} (hs : s.Inv) : ∃ t, step s = .next t ∧ t.Inv ∧ t.refused = s.refused := by
  have htaken (es : List Event) : (s.withInputs es).Inv := hs.of_engineView rfl
  unfold step
  split
  · split
    · exact engineStep_keeps hs ‹_›
    · exact ⟨s, rfl, hs, rfl⟩
  · split
    · exact engineStep_keeps (htaken _) ‹_›
    · exact ⟨_, rfl, htaken _, rfl⟩
  · rename_i x es _
    obtain ⟨t, ht⟩ := hostStep_answers x (s.withInputs es)
    obtain ⟨hinv, hmark⟩ := hostStep_keeps (htaken es) ht
    exact ⟨t, ht, hinv, hmark⟩
  · exact ⟨_, rfl, (htaken _).resetEvent, rfl⟩

end Sys2Proof.Machine

open Sys2Proof.Machine in
/-- Settles O54: the one next state `step_keeps` gives meets the invariant. -/
theorem stepKeepsInvariant : Obligations.StepKeepsInvariant := by
  intro s t hs h
  obtain ⟨u, hu, hinv, -⟩ := step_keeps hs
  cases h.symm.trans hu
  exact hinv

open Sys2Proof.Machine in
/-- Settles O55: `step_keeps`, whatever the next event. -/
theorem stepNeverStops : Obligations.StepNeverStops := by
  intro s hs
  obtain ⟨t, ht, -, hmark⟩ := step_keeps hs
  exact ⟨t, ht, hmark⟩
end

section
/-! PROOFS. What one engine step can do at all, and what no engine step changes (R38, R50, R63). -/

namespace Sys2Proof.Machine

/-- A move of the engine (`State.moveEngine`) that leaves the command's own registers (R61) and every byte of BUF at or
above SIZE (R38) as they are. -/
structure State.EngineMove (s t : State) : Prop where
  moved : ∃ b e, t = s.moveEngine b e
  cmd   : t.eng.cmd = s.eng.cmd
  op    : t.eng.op = s.eng.op
  dir   : t.eng.dir = s.eng.dir
  mode  : t.eng.mode = s.eng.mode
  above : ∀ a, s.size.toNat ≤ a → t.byte .buf a = s.byte .buf a

/-- VALIDATE writes no memory (R64). -/
theorem validateStep_moves (s : State) : validateStep s = s.markRefused ∨ s.EngineMove (validateStep s) := by
  rcases validateStep_cases s with ⟨_, _, -, e⟩ | ⟨_, _, -, -, e⟩ | ⟨e, -⟩
  · exact .inr (e ▸ ⟨⟨_, _, rfl⟩, rfl, rfl, rfl, rfl, fun _ _ => rfl⟩)
  · exact .inr (e ▸ ⟨⟨_, _, rfl⟩, rfl, rfl, rfl, rfl, fun _ _ => rfl⟩)
  · exact .inl e

/-- The NORM step writes below SIZE alone (R93). -/
theorem normStep_moves (s : State) : normStep s = s.markRefused ∨ s.EngineMove (normStep s) := by
  rcases normStep_cases s with ⟨hn, -, e⟩ | ⟨-, e⟩
  · exact .inr (e ▸ ⟨⟨_, _, rfl⟩, rfl, rfl, rfl, rfl, fun a ha => Memory.read_write_other .buf _ _ (by omega)⟩)
  · exact .inl e

/-- The ALPHA step writes below SIZE alone (R100). -/
theorem alphaStep_moves (s : State) : alphaStep s = s.markRefused ∨ s.EngineMove (alphaStep s) := by
  rcases alphaStep_cases s with ⟨hn, -, -, -, e⟩ | ⟨-, e⟩
  · exact .inr (e ▸ ⟨⟨_, _, rfl⟩, rfl, rfl, rfl, rfl, fun a ha => Memory.read_write_other .buf _ _ (by omega)⟩)
  · exact .inl e

/-- The BLOCK step writes below SIZE alone (R111). -/
theorem blockStep_moves (s : State) : blockStep s = s.markRefused ∨ s.EngineMove (blockStep s) := by
  rcases blockStep_cases s with ⟨L, -, -, -, -, -, hn, -, e⟩ | ⟨-, e⟩
  · refine .inr (e ▸ ⟨⟨_, _, rfl⟩, rfl, rfl, rfl, rfl, fun a ha => ?_⟩)
    exact Memory.read_writeBE_outside .buf s.buf _ _ _ (.inr (by omega))
  · exact .inl e

/-- Everything one engine step can do: it sets the refusal mark, makes a move of the engine, or completes the command
(R63, R74, R75). -/
theorem engineStep_moves {s t : State} (h : engineStep s = .next t) :
    (t = s.markRefused ∨ s.EngineMove t) ∨ t = s.completeOk ∨ t = s.completeError := by
  rcases engineStep_cases h with ⟨-, rfl⟩ | ⟨-, rfl⟩ | ⟨-, rfl⟩ | ⟨-, rfl⟩ | ⟨-, rfl⟩ | ⟨-, hf⟩
  · exact .inl (.inl rfl)
  · exact .inl (validateStep_moves s)
  · exact .inl (normStep_moves s)
  · exact .inl (alphaStep_moves s)
  · exact .inl (blockStep_moves s)
  · exact .inr ((finishStep_cases hf).imp (·.2) (·.2.2))

/-- What no engine step changes (R17, R38, R50): the parameters, CTRL, the length registers, both key memories, HAZ, MODE,
the command's own registers, the model's own fields, and every byte of BUF at or above SIZE. -/
structure State.EngineFrame (s t : State) : Prop where
  params : t.params = s.params
  ie     : t.ie = s.ie
  size   : t.size = s.size
  skLen  : t.skLen = s.skLen
  bkLen  : t.bkLen = s.bkLen
  skey   : t.skey = s.skey
  bkey   : t.bkey = s.bkey
  haz    : t.status.haz = s.status.haz
  mode   : t.status.mode = s.status.mode
  cmd    : t.eng.cmd = s.eng.cmd
  op     : t.eng.op = s.eng.op
  dir    : t.eng.dir = s.eng.dir
  emode  : t.eng.mode = s.eng.mode
  inputs : t.inputs = s.inputs
  resp   : t.resp = s.resp
  draws  : t.draws = s.draws
  above  : ∀ a, s.size.toNat ≤ a → t.byte .buf a = s.byte .buf a

theorem State.EngineMove.frame {s t : State} (h : s.EngineMove t) : s.EngineFrame t := by
  obtain ⟨⟨b, e, rfl⟩, hc, ho, hd, hm, ha⟩ := h
  exact ⟨rfl, rfl, rfl, rfl, rfl, rfl, rfl, rfl, rfl, hc, ho, hd, hm, rfl, rfl, rfl, ha⟩

theorem engineStep_frame {s t : State} (h : engineStep s = .next t) : s.EngineFrame t := by
  rcases engineStep_moves h with (rfl | hm) | rfl | rfl
  case inl.inr => exact hm.frame
  all_goals exact ⟨rfl, rfl, rfl, rfl, rfl, rfl, rfl, rfl, rfl, rfl, rfl, rfl, rfl, rfl, rfl, rfl, fun _ _ => rfl⟩

end Sys2Proof.Machine

open Sys2Proof.Machine in
/-- Settles O38: a mark and a completion change none of it, and a move of the engine keeps its frame. -/
theorem engineStepFrame : Obligations.EngineStepFrame := fun _ _ h =>
  have f := engineStep_frame h
  ⟨f.params, f.ie, f.size, f.skLen, f.bkLen, f.skey, f.bkey, f.haz, f.mode, f.cmd, f.op, f.dir, f.emode, f.inputs,
    f.resp, f.draws, f.above⟩
end

section
/-! PROOFS. An engine step works on the engine's view alone, and a host transaction while busy stays outside it (R17,
R46, R133). -/

namespace Sys2Proof.Machine

/-! ### The engine's step -/

theorem State.sameOperands_engineView (s : State) : s.SameOperands s.engineView := ⟨rfl, rfl, rfl, rfl, rfl⟩

theorem validateStep_engineView (s : State) : validateStep s.engineView = (validateStep s).engineView := by
  have hv := State.validate_congr s.sameOperands_engineView s.eng.op s.eng.mode
  have hp : s.engineView.phaseValidated = s.phaseValidated := rfl
  simp only [validateStep, State.engineView_eng, hv, hp]
  split
  · rfl
  · split <;> rfl
  · rfl

theorem normStep_engineView (s : State) : normStep s.engineView = (normStep s).engineView := by
  have hbuf : s.engineView.bufReady = s.bufReady := rfl
  simp only [normStep, hbuf]
  split <;> rfl

theorem alphaStep_engineView (s : State) : alphaStep s.engineView = (alphaStep s).engineView := by
  have hbuf : s.engineView.bufReady = s.bufReady := rfl
  have hskey : s.engineView.skeyReady = s.skeyReady := rfl
  simp only [alphaStep, hbuf, hskey]
  split <;> rfl

theorem blockStep_engineView (s : State) : blockStep s.engineView = (blockStep s).engineView := by
  have hbuf : s.engineView.bufReady = s.bufReady := rfl
  have hskey : s.engineView.skeyReady = s.skeyReady := rfl
  have hbkey : s.engineView.bkeyReady = s.bkeyReady := rfl
  have hsym : s.engineView.byte .bkey s.engineView.eng.bp.toNat = s.byte .bkey s.eng.bp.toNat := rfl
  simp only [blockStep, hbuf, hskey, hbkey, hsym]
  split
  · split
    · split <;> rfl
    · rfl
  · rfl

theorem finishStep_engineView {s t : State} (h : finishStep s = .next t) :
    finishStep s.engineView = .next t.engineView := by
  rcases finishStep_cases h with ⟨hc, rfl⟩ | ⟨hc, hle, rfl⟩
  · exact if_pos hc
  · exact (if_neg hc).trans (if_pos hle)

/-- An engine step takes the engine's view to the engine's view of the next state. -/
theorem engineStep_engineView {s t : State} (h : engineStep s = .next t) :
    engineStep s.engineView = .next t.engineView := by
  rcases engineStep_cases h with ⟨hp, rfl⟩ | ⟨hp, rfl⟩ | ⟨hp, rfl⟩ | ⟨hp, rfl⟩ | ⟨hp, rfl⟩ | ⟨hp, hf⟩ <;>
    simp only [engineStep, State.engineView_eng, hp]
  · rfl
  · rw [validateStep_engineView]
  · rw [normStep_engineView]
  · rw [alphaStep_engineView]
  · rw [blockStep_engineView]
  · exact finishStep_engineView hf

/-- Two busy blocks that meet the invariant and share the engine's view step to blocks that share it again. -/
theorem engineStep_of_engineView {s w t : State} (hs : s.Inv) (hb : s.status.busy = true)
    (hv : w.engineView = s.engineView) (h : engineStep s = .next t) :
    ∃ u, engineStep w = .next u ∧ u.engineView = t.engineView := by
  have hbw : w.status.busy = true := (congrArg (·.status.busy) hv : _).trans hb
  obtain ⟨u, hu, -⟩ := engineStep_keeps (hs.of_engineView hv) hbw
  have e := (engineStep_engineView hu).symm.trans (hv ▸ engineStep_engineView h)
  exact ⟨u, hu, Host.Outcome.next.inj e⟩

/-! ### The host's transactions -/

/-- A host transaction while busy keeps the engine's view and the events still to come (R133). -/
theorem hostStep_busy {s t : State} {x : HostTxn} (hs : s.Inv) (hb : s.status.busy = true)
    (h : hostStep x s = .next t) : t.engineView = s.engineView ∧ t.inputs = s.inputs := by
  cases x with
  | read a =>
    cases h
    obtain ⟨r, n, e, -⟩ := hostRead_cases a s
    exact ⟨hostRead_engineView a s, e ▸ rfl⟩
  | write a d =>
    refine ⟨hostWrite_busy_engineView hs hb h, ?_⟩
    obtain ⟨r, ⟨rfl, -⟩ | ⟨rfl, -⟩ | rfl | rfl⟩ := hostWrite_busy hb h <;> rfl

end Sys2Proof.Machine
end

section
/-! PROOFS. Each engine step takes one from the steps R79 counts (R63, R79). -/

namespace Sys2Proof.Machine

theorem State.stepsLeft_engineView (s : State) : s.engineView.stepsLeft = s.stepsLeft := by
  have hc := State.commandSteps_congr s.sameOperands_engineView s.eng.op s.eng.mode
  simp only [State.stepsLeft, State.engineView_eng, hc]
  rfl

theorem State.stepsLeft_of_engineView {s t : State} (h : t.engineView = s.engineView) : t.stepsLeft = s.stepsLeft := by
  rw [← t.stepsLeft_engineView, h, s.stepsLeft_engineView]

@[simp] theorem State.stepsLeft_withInputs (s : State) (es : List Event) :
    (s.withInputs es).stepsLeft = s.stepsLeft := State.stepsLeft_of_engineView rfl

/-- A completion leaves no step. -/
theorem finishStep_stepsLeft {s t : State} (h : finishStep s = .next t) : t.stepsLeft = 0 := by
  rcases finishStep_cases h with ⟨-, rfl⟩ | ⟨-, -, rfl⟩ <;> rfl

/-- What a busy engine validates: a command that reaches VALIDATE, from the first byte and the first block (R61, R64). -/
theorem State.EngineOk.at_validate {s : State} (h : s.EngineOk) (hp : s.eng.phase = .validate) :
    (s.eng.op = .norm ∨ s.eng.op.readsKeys = true) ∧ s.eng.n = 0 ∧ s.eng.p = 0 := by
  obtain ⟨-, -, -, hphase⟩ := h
  simp only [hp] at hphase
  obtain ⟨hop, -, hn, hblk, -⟩ := hphase
  refine ⟨?_, hn, hblk⟩
  rcases hop with h | h | h <;> simp [h, Op.readsKeys]

/-- The verdict on a busy engine's command is an error, or a count of blocks that fits a word and the phase that comes
next (R64). -/
theorem State.EngineOk.validateStep_cases {s : State} (h : s.EngineOk) (hp : s.eng.phase = .validate) :
    (∃ c info, s.validate s.eng.op s.eng.mode = .err c info ∧ validateStep s = s.pendError c info) ∨
    (∃ k ph, s.validate s.eng.op s.eng.mode = .ok k ∧ k < 2 ^ 32 ∧ s.phaseValidated k = some ph ∧
      validateStep s = { s with eng := { s.eng with nblk := BitVec.ofNat 32 k, phase := ph } }) := by
  obtain ⟨hkind, -⟩ := h.at_validate hp
  rcases Machine.validateStep_cases s with herr | ⟨k, ph, hv, hph, e⟩ | ⟨-, hno | hno | hno⟩
  · exact .inl herr
  · exact .inr ⟨k, ph, hv, s.validate_ok_lt hkind (h.bkLen_ne_zero hkind) hv, hph, e⟩
  · obtain ⟨-, hkeys, -⟩ := h
    exact (s.validate_ne_noMeaning (hkind.imp id fun hr => (hkeys hr).1) hno).elim
  · simp [hno, Op.readsKeys] at hkind
  · simp [hno, Op.readsKeys] at hkind

/-- The run a passing validation starts has R79's steps: one a byte, one a block, or none. -/
theorem State.phaseValidated_runSteps {s : State} {k : Nat} {ph : Phase} (h : s.phaseValidated k = some ph) :
    (ph = .finish ∧ s.runSteps s.eng.op s.eng.mode k = 0) ∨
    ((ph = .normRun ∨ ph = .alphaRun) ∧ s.runSteps s.eng.op s.eng.mode k = s.size.toNat) ∨
    (ph = .mv2Run ∧ s.runSteps s.eng.op s.eng.mode k = k) := by
  unfold State.phaseValidated at h
  unfold State.runSteps
  split at h
  · simp_all
  · split at h <;> simp_all
  · split at h <;> split at h <;> simp_all
  · cases h
  · cases h

/-- After VALIDATE the steps left are the run's and FINISH (R79). -/
theorem validateStep_stepsLeft {s : State} (hs : s.EngineOk) (hp : s.eng.phase = .validate) :
    (validateStep s).stepsLeft + 1 = s.stepsLeft := by
  obtain ⟨-, hn, hblk⟩ := hs.at_validate hp
  rcases hs.validateStep_cases hp with ⟨c, info, hv, e⟩ | ⟨k, ph, hv, hk, hph, e⟩
  · simp only [e, State.stepsLeft, State.commandSteps, hp, hv, State.pendError_eng]
  · rcases State.phaseValidated_runSteps hph with ⟨rfl, hr⟩ | ⟨rfl | rfl, hr⟩ | ⟨rfl, hr⟩ <;>
      simp only [e, State.stepsLeft, State.commandSteps, hp, hv, hr, hn, hblk, BitVec.ofNat_eq_ofNat,
        BitVec.toNat_ofNat] <;> omega

/-- A step of a byte run leaves one byte less to run over (R93, R100). -/
theorem stepsLeft_of_byteStep {s t : State} (hp : s.eng.phase = .normRun ∨ s.eng.phase = .alphaRun)
    (hlt : s.eng.n.toNat < s.size.toNat) (hsize : t.size = s.size) (hn : t.eng.n = s.eng.n + 1)
    (ht : t.eng.phase = s.phaseAfter (s.eng.n + 1)) : t.stepsLeft + 1 = s.stepsLeft := by
  have hn' : (s.eng.n + 1).toNat = s.eng.n.toNat + 1 := toNat_add_ofNat hlt
  rcases s.phaseAfter_cases (s.eng.n + 1) with ⟨hend, hph⟩ | ⟨-, hph⟩ <;> rcases hp with hp | hp <;>
    simp only [State.stepsLeft, ht, hph, hp, hn, hsize] <;> omega

theorem normStep_stepsLeft {s : State} (hs : s.EngineOk) (hp : s.eng.phase = .normRun) :
    (normStep s).stepsLeft + 1 = s.stepsLeft := by
  obtain ⟨-, -, -, hphase⟩ := hs
  simp only [hp] at hphase
  obtain ⟨-, -, hv, hlt⟩ := hphase
  have hsize := ((s.validate_norm_ok _ _).1 hv).2
  obtain ⟨-, -, e⟩ := (normStep_cases s).resolve_right fun h => h.1 ⟨hlt, hsize⟩
  exact e ▸ stepsLeft_of_byteStep (.inl hp) hlt rfl rfl rfl

theorem alphaStep_stepsLeft {s : State} (hs : s.EngineOk) (hp : s.eng.phase = .alphaRun) :
    (alphaStep s).stepsLeft + 1 = s.stepsLeft := by
  obtain ⟨-, -, -, hphase⟩ := hs
  simp only [hp] at hphase
  obtain ⟨-, -, -, hv, hlt, hkp⟩ := hphase
  obtain ⟨-, hsize, hsk, -, hskpos⟩ := (s.validate_ascii_ok rfl _).1 hv
  have hkplt : s.eng.kp.toNat < s.skLen.toNat := hkp ▸ Nat.mod_lt _ hskpos
  obtain ⟨-, -, -, -, e⟩ := (alphaStep_cases s).resolve_right fun h => h.1 ⟨hlt, hsize, hkplt, hsk⟩
  exact e ▸ stepsLeft_of_byteStep (.inr hp) hlt rfl rfl rfl

/-- Block p ends at SIZE exactly where it is the last (R68, R112). -/
theorem State.Mv2Valid.blockStart_succ_eq_size {s : State} {k p : Nat} (h : s.Mv2Valid k) (h0 : s.bkLen ≠ 0)
    (hp : p < k) : s.blockStart (p + 1) = s.size.toNat ↔ p + 1 = k := by
  constructor
  · intro hend
    by_contra hne
    have hmono := s.blockStart_mono (show p + 2 ≤ k by omega)
    have hpos := (s.blockLengthAt_spec h.good h0 (p + 1)).2.1
    rw [h.total, State.blockStart] at hmono
    omega
  · rintro rfl
    exact h.total

theorem blockStep_stepsLeft {s : State} (hs : s.EngineOk) (hp : s.eng.phase = .mv2Run) :
    (blockStep s).stepsLeft + 1 = s.stepsLeft := by
  obtain ⟨e, hend, hM⟩ := hs.blockStep_eq hp
  obtain ⟨-, -, -, hphase⟩ := id hs
  simp only [hp] at hphase
  obtain ⟨ho, hm, -, -, hlt, hn, -⟩ := hphase
  have h0 := hs.bkLen_ne_zero (.inr (by simp [ho, Op.readsKeys])) hm
  have hlast := hM.blockStart_succ_eq_size h0 hlt
  have hn' := toNat_add_ofNat hend
  have hp' : (s.eng.p + 1).toNat = s.eng.p.toNat + 1 := toNat_add_ofNat hlt
  rw [State.blockStart, ← hn, ← hn'] at hlast
  rw [e, blockStepWith_eq_moveEngine]
  rcases s.phaseAfter_cases (s.eng.n + BitVec.ofNat 32 (s.blockLengthAt s.eng.p.toNat)) with
    ⟨hsz, hph⟩ | ⟨hmore, hph⟩ <;> simp only [State.stepsLeft, State.moveEngine_eng, hph, hp, hp']
  · have := hlast.1 hsz
    omega
  · have := mt hlast.2 hmore
    omega

/-- An engine step of a busy block takes one from the steps left. -/
theorem engineStep_stepsLeft {s t : State} (hs : s.Inv) (hb : s.status.busy = true) (h : engineStep s = .next t) :
    t.stepsLeft + 1 = s.stepsLeft := by
  have he := hs.engine_ok hb
  rcases engineStep_cases h with ⟨hp, -⟩ | ⟨hp, rfl⟩ | ⟨hp, rfl⟩ | ⟨hp, rfl⟩ | ⟨hp, rfl⟩ | ⟨hp, hf⟩
  · exact (he.phase_ne_idle hp).elim
  · exact validateStep_stepsLeft he hp
  · exact normStep_stepsLeft he hp
  · exact alphaStep_stepsLeft he hp
  · exact blockStep_stepsLeft he hp
  · rw [finishStep_stepsLeft hf, State.stepsLeft, hp]

/-- No step is left exactly where the block is idle (R63, R79). -/
theorem State.Inv.stepsLeft_eq_zero {s : State} (hs : s.Inv) : s.stepsLeft = 0 ↔ s.status.busy = false := by
  cases hb : s.status.busy with
  | false => simp [State.stepsLeft, ((State.inv_iff_of_idle hb).1 hs).2.2]
  | true =>
    obtain ⟨t, ht, -⟩ := engineStep_keeps hs hb
    simp [← engineStep_stepsLeft hs hb ht]

/-- A block with a step left is busy. -/
theorem State.Inv.busy_of_stepsLeft {s : State} (hs : s.Inv) {k : Nat} (h : s.stepsLeft = k + 1) :
    s.status.busy = true :=
  Bool.of_not_eq_false fun hb => by simp [hs.stepsLeft_eq_zero.2 hb] at h

end Sys2Proof.Machine
end

section
/-! PROOFS. The host cannot disturb a running command (R11, R46, R47, R133). -/

namespace Sys2Proof.Machine

/-- A block with a schedule, and one with the same engine's view and nothing scheduled: the engine left alone. -/
structure State.Shadows (w s : State) : Prop where
  view  : w.engineView = s.engineView
  alone : w.inputs = []

/-- An engine event of a busy block's schedule is a step of the engine left alone; both then have one step less. -/
theorem State.Shadows.step_engine {s w : State} {es : List Event} (h : w.Shadows s) (hs : s.Inv)
    (hb : s.status.busy = true) (hi : s.inputs = .engine :: es) :
    ∃ t u, step s = .next t ∧ step w = .next u ∧ u.Shadows t ∧ t.Inv ∧ t.inputs = es ∧
      t.stepsLeft + 1 = s.stepsLeft := by
  have hs' : (s.withInputs es).Inv := hs.of_engineView rfl
  obtain ⟨t, ht, hinv, -⟩ := engineStep_keeps hs' hb
  obtain ⟨u, hu, hv⟩ := engineStep_of_engineView hs' hb h.view ht
  have hbw : w.status.busy = true := (congrArg (·.status.busy) h.view : _).trans hb
  exact ⟨t, u, (step_engine_busy hb hi).trans ht, (step_busy_alone hbw h.alone).trans hu,
    ⟨hv, (engineStep_frame hu).inputs.trans h.alone⟩, hinv, (engineStep_frame ht).inputs,
    (engineStep_stepsLeft hs' hb ht).trans (s.stepsLeft_withInputs es)⟩

/-- A host event of a busy block's schedule is no step of the engine left alone; the steps left are as many. -/
theorem State.Shadows.step_host {s w : State} {x : HostTxn} {es : List Event} (h : w.Shadows s) (hs : s.Inv)
    (hb : s.status.busy = true) (hi : s.inputs = .host x :: es) :
    ∃ t, step s = .next t ∧ w.Shadows t ∧ t.Inv ∧ t.inputs = es ∧ t.stepsLeft = s.stepsLeft := by
  have hs' : (s.withInputs es).Inv := hs.of_engineView rfl
  obtain ⟨t, ht⟩ := hostStep_answers x (s.withInputs es)
  obtain ⟨hv, hin⟩ := hostStep_busy hs' hb ht
  exact ⟨t, (Machine.step_host hi).trans ht, ⟨h.view.trans hv.symm, h.alone⟩, hs'.of_engineView hv, hin,
    (State.stepsLeft_of_engineView hv).trans (s.stepsLeft_withInputs es)⟩

/-- A schedule without a reset whose engine events are the steps left, the last one at its end, runs the block to the
state the engine reaches alone, as far as the engine's view shows, and completes the command. -/
theorem State.Shadows.steps_schedule {es : List Event} (hes : ∀ e ∈ es, e ≠ .reset) {s w : State} (h : w.Shadows s)
    (hs : s.Inv) (hi : s.inputs = es ++ [.engine]) (hk : es.countP (· = .engine) + 1 = s.stepsLeft) :
    ∃ u v, steps (es.length + 1) s = .next u ∧ steps s.stepsLeft w = .next v ∧ v.Shadows u ∧
      u.status.busy = false := by
  induction es generalizing s w with
  | nil =>
    obtain ⟨t, u, ht, hu, hsh, hinv, -, hleft⟩ := h.step_engine hs (hs.busy_of_stepsLeft hk.symm) hi
    have h0 : t.stepsLeft = 0 := Nat.succ.inj (hleft.trans hk.symm)
    exact ⟨t, u, steps_succ 0 ht, hk ▸ steps_succ 0 hu, hsh, hinv.stepsLeft_eq_zero.1 h0⟩
  | cons e es ih =>
    have hb := hs.busy_of_stepsLeft hk.symm
    have hes' := fun e he => hes e (List.mem_cons_of_mem _ he)
    cases e with
    | reset => exact absurd rfl (hes .reset (List.mem_cons_self ..))
    | engine =>
      obtain ⟨t, u, ht, hu, hsh, hinv, hin, hleft⟩ := h.step_engine hs hb hi
      have hk' : es.countP (· = .engine) + 1 = t.stepsLeft := by
        rw [← hleft] at hk
        simpa using hk
      rw [← hleft, steps_succ _ hu, List.length_cons, steps_succ _ ht]
      exact ih hes' hsh hinv hin hk'
    | host x =>
      obtain ⟨t, ht, hsh, hinv, hin, hleft⟩ := h.step_host hs hb hi
      have hk' : es.countP (· = .engine) + 1 = t.stepsLeft := by
        rw [hleft]
        simpa using hk
      rw [← hleft, List.length_cons, steps_succ _ ht]
      exact ih hes' hsh hinv hin hk'

end Sys2Proof.Machine

open Sys2Proof.Machine in
/-- Settles O57, by induction on the schedule: an engine event is a step of both blocks, a host event of one alone,
outside the engine's view. -/
theorem hostActivityCannotChangeAResult : Obligations.HostActivityCannotChangeAResult := by
  intro s es hs _ hes hk
  have hshadow : (s.withInputs []).Shadows (s.withInputs (es ++ [.engine])) := ⟨rfl, rfl⟩
  obtain ⟨u, v, hu, hv, hsh, hdone⟩ := hshadow.steps_schedule hes (hs.of_engineView rfl) rfl (by simpa using hk)
  exact ⟨u, v, hu, by simpa using hv, hsh.view.symm, hdone⟩
end

section
/-! PROOFS. The address map, both ways (R16, R39, R41), and the transactions that get BUSERR. -/

namespace Sys2Proof.Machine

/-- An address reaches a register exactly when it is the register's offset. -/
theorem decodeAddress_eq_reg_iff (p : Params) (a : Word) (r : Reg) :
    decodeAddress p a = .reg r ↔ a.toNat = r.offset := by
  have haddr : (regAddress r).toNat = r.offset := by cases r <;> rfl
  rw [← haddr, BitVec.toNat_inj]
  refine ⟨decodeAddress_reg, ?_⟩
  rintro rfl
  exact decodeAddress_regAddress p r

theorem memTarget_eq_mem {p : Params} {sp sp' : Space} {off i : Nat} (h : memTarget p sp off = .mem sp' i) :
    sp' = sp ∧ i = off := by
  unfold memTarget at h
  split at h
  · cases h
    exact ⟨rfl, rfl⟩
  · cases h

/-- An address that reaches a memory byte is the base of that memory's window plus the byte's offset. -/
theorem decodeAddress_mem_toNat {p : Params} {a : Word} {sp : Space} {i : Nat}
    (h : decodeAddress p a = .mem sp i) : a.toNat = windowBase sp + i := by
  unfold decodeAddress at h
  dsimp only at h
  split at h
  · exact (regTarget_ne_mem _ _ _ h).elim
  split at h
  · cases h
  iterate 3
    split at h
    · obtain ⟨rfl, hi⟩ := memTarget_eq_mem h
      simp only [windowBase] at hi ⊢
      omega
  cases h

/-- An address reaches byte i of a memory exactly when it is the window's base plus i, with i below the memory's size. -/
theorem decodeAddress_eq_mem_iff {p : Params} (hp : p.wf) (a : Word) (sp : Space) (i : Nat) :
    decodeAddress p a = .mem sp i ↔ i < p.capacity sp ∧ a.toNat = windowBase sp + i := by
  constructor
  · exact fun h => ⟨decodeAddress_mem_lt h, decodeAddress_mem_toNat h⟩
  · rintro ⟨hi, ha⟩
    have e : a = memAddress sp i := by rw [memAddress, ← ha, BitVec.ofNat_toNat, BitVec.setWidth_eq]
    rw [e]
    exact decodeAddress_memAddress hp hi

/-- The registers' offsets are the multiples of 4 up to 0x2C (R16). -/
theorem exists_reg_offset_iff (n : Nat) : (∃ r : Reg, n = r.offset) ↔ n % 4 = 0 ∧ n ≤ 0x2C := by
  constructor
  · rintro ⟨r, rfl⟩
    cases r <;> decide
  · rintro ⟨h4, hle⟩
    obtain ⟨k, rfl⟩ := Nat.dvd_of_mod_eq_zero h4
    obtain ⟨r, -, hr⟩ := (by decide : ∀ k < 12, ∃ r ∈ allRegs, 4 * k = r.offset) k (by omega)
    exact ⟨r, hr⟩

/-- An address reaches byte i of a memory for some i exactly when it is in the part of the window the memory fills. -/
theorem exists_decodeAddress_eq_mem_iff {p : Params} (hp : p.wf) (a : Word) (sp : Space) :
    (∃ i, decodeAddress p a = .mem sp i) ↔ windowBase sp ≤ a.toNat ∧ a.toNat < windowBase sp + p.capacity sp := by
  simp only [decodeAddress_eq_mem_iff hp]
  constructor
  · rintro ⟨i, hi, ha⟩
    omega
  · rintro ⟨hle, hlt⟩
    exact ⟨a.toNat - windowBase sp, by omega, by omega⟩

/-- BUSERR is what reaches neither a register nor a memory byte. -/
theorem Target.eq_busErr_iff (x : Target) :
    x = .busErr ↔ ¬ ((∃ r, x = .reg r) ∨ (∃ i, x = .mem .skey i) ∨ (∃ i, x = .mem .bkey i) ∨ ∃ i, x = .mem .buf i) := by
  cases x with
  | reg r => simp
  | mem sp i => cases sp <;> simp
  | busErr => simp

/-- An address gets BUSERR exactly when it is no register's offset and in no memory's part of its window (R41). -/
theorem decodeAddress_eq_busErr_iff {p : Params} (hp : p.wf) (a : Word) :
    decodeAddress p a = .busErr ↔
      ¬ ((a.toNat % 4 = 0 ∧ a.toNat ≤ 0x2C) ∨ (0x01000000 ≤ a.toNat ∧ a.toNat < 0x01000000 + p.skMax) ∨
        (0x02000000 ≤ a.toNat ∧ a.toNat < 0x02000000 + p.bkMax) ∨
        (0x03000000 ≤ a.toNat ∧ a.toNat < 0x03000000 + p.bufMax)) := by
  rw [Target.eq_busErr_iff]
  simp only [decodeAddress_eq_reg_iff, exists_reg_offset_iff, exists_decodeAddress_eq_mem_iff hp, windowBase,
    Params.capacity]

/-- A transaction at an address that gets BUSERR changes nothing but the response (R41). -/
theorem hostStep_busErr {s : State} {a : Word} (h : decodeAddress s.params a = .busErr) (d : Word) :
    hostStep (.read a) s = .next (s.respond .busErr) ∧ hostStep (.write a d) s = .next (s.respond .busErr) := by
  simp only [hostStep, hostRead, hostWrite, h, and_self]

end Sys2Proof.Machine

open Sys2Proof.Machine in
/-- Settles O40: `decodeAddress_eq_reg_iff` at each register, `decodeAddress_eq_mem_iff` at each memory, and what is left
gets BUSERR. -/
theorem addressMap : Obligations.AddressMap := fun p a hp =>
  have reg := decodeAddress_eq_reg_iff p a
  have mem := decodeAddress_eq_mem_iff hp a
  ⟨reg .id, reg .ctrl, reg .cmd, reg .status, reg .size, reg .skLen, reg .bkLen, reg .nblk, reg .errinfo, reg .bufMax,
    reg .skMax, reg .bkMax, mem .skey, mem .bkey, mem .buf, decodeAddress_eq_busErr_iff hp a⟩

open Sys2Proof.Machine in
/-- Settles O41: each of R41's four kinds of address is outside the map of `decodeAddress_eq_busErr_iff`. -/
theorem busErrorChangesNothing : Obligations.BusErrorChangesNothing := by
  intro s a d hp hout
  obtain ⟨⟨-, hbuf⟩, ⟨-, hsk⟩, ⟨-, hbk⟩⟩ := id hp
  have herr : decodeAddress s.params a = .busErr := (decodeAddress_eq_busErr_iff hp a).2 (by omega)
  obtain ⟨hr, hw⟩ := hostStep_busErr herr d
  exact ⟨hr, hw, rfl, rfl⟩
end

section
/-! PROOFS. The host's access to a memory byte, idle and busy (R40, R46). -/

namespace Sys2Proof.Machine

/-- A READ at a memory byte's address is `State.loadByte`. -/
theorem hostStep_read_mem {s : State} (hp : s.params.wf) {sp : Space} {i : Nat} (hi : i < s.params.capacity sp) :
    hostStep (.read (memAddress sp i)) s = .next (s.loadByte sp i) := by
  simp only [hostStep, hostRead, decodeAddress_memAddress hp hi]

/-- A WRITE at a memory byte's address is answered OKAY and is `State.storeByte`. -/
theorem hostStep_write_mem {s : State} (hp : s.params.wf) {sp : Space} {i : Nat} (hi : i < s.params.capacity sp)
    (d : Word) :
    hostStep (.write (memAddress sp i) d) s = .next ((s.respond .writeOkay).storeByte sp i d) := by
  simp only [hostStep, hostWrite, decodeAddress_memAddress hp hi]

theorem State.loadByte_idle {s : State} (hb : s.status.busy = false) (sp : Space) (i : Nat) :
    s.loadByte sp i = s.respond (.readOkay ((s.byte sp i).setWidth 32)) := by
  simp [State.loadByte, hb]

theorem State.loadByte_busy {s : State} (hb : s.status.busy = true) (sp : Space) (i : Nat) :
    s.loadByte sp i =
      { s with resp := some (.readOkay ((Config.drawByte s.draws).setWidth 32)), draws := s.draws + 1 } := by
  simp [State.loadByte, hb]

theorem State.storeByte_idle {s : State} (hb : s.status.busy = false) (sp : Space) (i : Nat) (d : Word) :
    s.storeByte sp i d = s.setMem sp ((s.mem sp).write i (d.setWidth 8)) := by
  simp [State.storeByte, hb]

/-- Only the three memories can change where one is replaced. -/
theorem State.setMem_eq_update (s : State) (sp : Space) (m : Memory) :
    s.setMem sp m =
      { s with buf := (s.setMem sp m).buf, skey := (s.setMem sp m).skey, bkey := (s.setMem sp m).bkey } := by
  cases sp <;> rfl

theorem State.byte_setMem_write (s : State) (sp : Space) (i : Nat) (b : Byte) :
    (s.setMem sp ((s.mem sp).write i b)).byte sp i = b := by
  simp [State.byte]

/-- A stored byte leaves every other byte of every memory as it was. -/
theorem State.byte_setMem_write_other (s : State) {sp sp' : Space} {i a : Nat} (b : Byte) (h : ¬ (sp' = sp ∧ a = i)) :
    (s.setMem sp ((s.mem sp).write i b)).byte sp' a = s.byte sp' a := by
  by_cases hsp : sp' = sp
  · subst hsp
    simp only [State.byte, State.mem_setMem_same]
    exact Memory.read_write_other sp' _ _ fun ha => h ⟨rfl, ha⟩
  · exact State.byte_congr (s.mem_setMem_other _ hsp) a

end Sys2Proof.Machine

open Sys2Proof.Machine in
/-- Settles O45: a READ is `State.loadByte`, a WRITE is `State.storeByte`, which replaces one memory and one byte of it. -/
theorem hostMemoryAccessWhileIdle : Obligations.HostMemoryAccessWhileIdle := by
  intro s sp i d hp hb hi
  refine ⟨(hostStep_read_mem hp hi).trans (congrArg _ (State.loadByte_idle hb sp i)), _,
    (hostStep_write_mem hp hi d).trans (congrArg _ (State.storeByte_idle (s := s.respond .writeOkay) hb sp i d)),
    State.setMem_eq_update .., ?_, fun sp' a h => State.byte_setMem_write_other (s.respond .writeOkay) _ h⟩
  rw [State.byte_setMem_write, BitVec.toNat_setWidth]

open Sys2Proof Sys2Proof.Machine in
/-- Settles O47: the READ is `State.loadByte`, which while busy draws; widening the drawn byte keeps its value. -/
theorem memoryReadWhileBusyIsADraw : Obligations.MemoryReadWhileBusyIsADraw := by
  intro s sp i hp hb hi
  refine ⟨(Config.drawByte s.draws).setWidth 32, ?_,
    (hostStep_read_mem hp hi).trans (congrArg _ (State.loadByte_busy hb sp i))⟩
  exact BitVec.toNat_setWidth_of_le (by decide)
end

section
/-! PROOFS. The engine reaches only the bytes below the length registers (R38). -/

namespace Sys2Proof.Machine

/-- A wrap counter inside its key stays inside it (R81). -/
theorem wrapInc_lt {ptr len : Word} (hp : ptr.toNat < len.toNat) : (wrapInc ptr len).toNat < len.toNat :=
  wrapInc_toNat hp ▸ Nat.mod_lt _ (Nat.zero_lt_of_lt hp)

/-! ### Bytes that agree -/

/-- The first `n` bytes of two memories of a space agree. -/
def Memory.AgreeBelow (sp : Space) (n : Nat) (m m' : Memory) : Prop :=
  ∀ a, a < n → Memory.read sp m' a = Memory.read sp m a

section
variable {sp : Space} {n : Nat} {m m' : Memory} (h : Memory.AgreeBelow sp n m m')
include h

theorem Memory.AgreeBelow.write (i : Nat) (b : Byte) : Memory.AgreeBelow sp n (m.write i b) (m'.write i b) := by
  intro a ha
  simp only [Memory.read_write, h a ha]

theorem Memory.AgreeBelow.writeBE (i k v : Nat) : Memory.AgreeBelow sp n (m.writeBE i k v) (m'.writeBE i k v) := by
  induction k generalizing v with
  | zero => exact h
  | succ k ih => exact (ih _).write _ _

theorem Memory.AgreeBelow.readBE {i k : Nat} (hk : i + k ≤ n) : Memory.readBE sp m' i k = Memory.readBE sp m i k :=
  Memory.readBE_congr sp fun b _ hb => h b (by omega)

end

/-! ### States that differ in their memories -/

/-- The state with all three memories replaced. -/
def State.withMems (s : State) (buf skey bkey : Memory) : State := { s with buf := buf, skey := skey, bkey := bkey }

/-- The three memories hold the state's own bytes below the length registers. -/
structure State.Agrees (s : State) (buf skey bkey : Memory) : Prop where
  buf  : Memory.AgreeBelow .buf s.size.toNat s.buf buf
  skey : Memory.AgreeBelow .skey s.skLen.toNat s.skey skey
  bkey : Memory.AgreeBelow .bkey s.bkLen.toNat s.bkey bkey

/-- `t'` is `t` but for its memories: the key memories given, and a buffer that agrees with `t`'s below SIZE. -/
def State.Mirrors (t' t : State) (skey bkey : Memory) : Prop :=
  ∃ buf, t' = t.withMems buf skey bkey ∧ Memory.AgreeBelow .buf t.size.toNat t.buf buf

section
variable (s : State) (b k q : Memory)

@[simp] theorem State.withMems_size : (s.withMems b k q).size = s.size := rfl
@[simp] theorem State.withMems_skLen : (s.withMems b k q).skLen = s.skLen := rfl
@[simp] theorem State.withMems_bkLen : (s.withMems b k q).bkLen = s.bkLen := rfl
@[simp] theorem State.withMems_eng : (s.withMems b k q).eng = s.eng := rfl
@[simp] theorem State.withMems_buf : (s.withMems b k q).buf = b := rfl
@[simp] theorem State.lengthMask_withMems (op : Op) : (s.withMems b k q).lengthMask op = s.lengthMask op := rfl
@[simp] theorem State.phaseValidated_withMems (n : Nat) :
    (s.withMems b k q).phaseValidated n = s.phaseValidated n := rfl

end

section
variable {s : State} {b k q : Memory} (h : s.Agrees b k q)
include h

theorem State.Agrees.byte_buf {a : Nat} (ha : a < s.size.toNat) :
    (s.withMems b k q).byte .buf a = s.byte .buf a := h.buf a ha

theorem State.Agrees.byte_skey {a : Nat} (ha : a < s.skLen.toNat) :
    (s.withMems b k q).byte .skey a = s.byte .skey a := h.skey a ha

theorem State.Agrees.byte_bkey {a : Nat} (ha : a < s.bkLen.toNat) :
    (s.withMems b k q).byte .bkey a = s.byte .bkey a := h.bkey a ha

/-! ### VALIDATE -/

theorem State.Agrees.firstBadSymbol : (s.withMems b k q).firstBadSymbol = s.firstBadSymbol :=
  List.find?_congr fun _ hj => by rw [h.byte_bkey (List.mem_range.1 hj)]

/-- The walk reads symbols of a nonempty key below its length (R68, R86). -/
theorem State.Agrees.partitionWalk (h0 : s.bkLen ≠ 0) (fuel n p : Nat) :
    (s.withMems b k q).partitionWalk fuel n p = s.partitionWalk fuel n p := by
  have hL (p : Nat) : (s.withMems b k q).blockLengthAt p = s.blockLengthAt p := by
    have hp : p % s.bkLen.toNat < s.bkLen.toNat := Nat.mod_lt _ (word_ne_zero.1 h0)
    simp only [State.blockLengthAt, State.blockSymbolAt, State.withMems_bkLen, h.byte_bkey hp]
  induction fuel generalizing n p with
  | zero => rfl
  | succ fuel ih => simp only [State.partitionWalk, State.withMems_size, hL, ih]

/-- With an empty buffer the walk reads nothing (R68). -/
theorem State.Agrees.partitionVerdict (hr : ¬ (s.bkLen = 0 ∧ s.size ≠ 0)) :
    (s.withMems b k q).partitionVerdict = s.partitionVerdict := by
  have hw : (s.withMems b k q).partitionWalk s.size.toNat 0 0 = s.partitionWalk s.size.toNat 0 0 := by
    by_cases h0 : s.bkLen = 0
    · have hz : s.size = 0 := not_not.1 fun hz => hr ⟨h0, hz⟩
      rw [hz]
      rfl
    · exact h.partitionWalk h0 ..
  simp only [State.partitionVerdict, State.withMems_size, hw]

theorem State.Agrees.validate (op : Op) (m : Mode) : (s.withMems b k q).validate op m = s.validate op m := by
  by_cases hr : s.bkLen = 0 ∧ s.size ≠ 0
  · obtain ⟨h0, hz⟩ := hr
    simp only [State.validate, State.lengthMask_withMems, State.withMems_skLen, State.withMems_bkLen,
      State.withMems_size, h0, hz, ne_eq, not_false_eq_true, and_self, if_true]
  · simp only [State.validate, State.lengthMask_withMems, State.withMems_skLen, State.withMems_bkLen,
      State.withMems_size, h.firstBadSymbol, h.partitionVerdict hr]

/-! ### The steps -/

/-- A step that leaves all memories alone is mirrored with the same buffer. -/
theorem State.Agrees.mirrors {t t' : State} (ht : t' = t.withMems b k q) (hsize : t.size = s.size)
    (hbuf : t.buf = s.buf) : t'.Mirrors t k q :=
  ⟨b, ht, hsize ▸ hbuf ▸ h.buf⟩

theorem State.Agrees.validateStep : (validateStep (s.withMems b k q)).Mirrors (validateStep s) k q := by
  simp only [Machine.validateStep, State.withMems_eng, h.validate, State.phaseValidated_withMems]
  split
  · exact h.mirrors rfl rfl rfl
  · split <;> exact h.mirrors rfl rfl rfl
  · exact h.mirrors rfl rfl rfl

theorem State.Agrees.normStep : (normStep (s.withMems b k q)).Mirrors (normStep s) k q := by
  rcases normStep_cases s with ⟨hn, hsz, e⟩ | ⟨hno, e⟩
  · obtain ⟨-, -, e'⟩ := (normStep_cases (s.withMems b k q)).resolve_right fun hc => hc.1 ⟨hn, hsz⟩
    simp only [e, e', State.withMems_eng, h.byte_buf hn]
    exact ⟨_, rfl, h.buf.write _ _⟩
  · obtain ⟨-, e'⟩ := (normStep_cases (s.withMems b k q)).resolve_left fun ⟨hn, hsz, _⟩ => hno ⟨hn, hsz⟩
    rw [e, e']
    exact h.mirrors rfl rfl rfl

theorem State.Agrees.alphaStep : (alphaStep (s.withMems b k q)).Mirrors (alphaStep s) k q := by
  rcases alphaStep_cases s with ⟨hn, hsz, hkp, hsk, e⟩ | ⟨hno, e⟩
  · obtain ⟨-, -, -, -, e'⟩ := (alphaStep_cases (s.withMems b k q)).resolve_right fun hc => hc.1 ⟨hn, hsz, hkp, hsk⟩
    simp only [e, e', State.withMems_eng, h.byte_buf hn, h.byte_skey hkp]
    exact ⟨_, rfl, h.buf.write _ _⟩
  · obtain ⟨-, e'⟩ := (alphaStep_cases (s.withMems b k q)).resolve_left
      fun ⟨hn, hsz, hkp, hsk, _⟩ => hno ⟨hn, hsz, hkp, hsk⟩
    rw [e, e']
    exact h.mirrors rfl rfl rfl

/-- The four key bytes and the block are read below the lengths: each wrap keeps the pointer inside the key (R84). -/
theorem State.Agrees.blockStepWith {L : Nat} (hkp : s.eng.kp.toNat < s.skLen.toNat)
    (hn : s.eng.n.toNat + L ≤ s.size.toNat) :
    (blockStepWith (s.withMems b k q) L).Mirrors (blockStepWith s L) k q := by
  have hkp1 := wrapInc_lt hkp
  have hkp2 := wrapInc_lt hkp1
  have hkp3 := wrapInc_lt hkp2
  simp only [Machine.blockStepWith, State.withMems_eng, State.withMems_skLen, State.withMems_buf, h.byte_skey hkp,
    h.byte_skey hkp1, h.byte_skey hkp2, h.byte_skey hkp3, h.buf.readBE hn]
  exact ⟨_, rfl, h.buf.writeBE _ _ _⟩

theorem State.Agrees.blockStep : (blockStep (s.withMems b k q)).Mirrors (blockStep s) k q := by
  have hsym (hbp : s.eng.bp.toNat < s.bkLen.toNat) : blockLength ((s.withMems b k q).byte .bkey s.eng.bp.toNat) =
      blockLength (s.byte .bkey s.eng.bp.toNat) := congrArg blockLength (h.byte_bkey hbp)
  rcases blockStep_cases s with ⟨L, hL, hbp, hbk, hkp, hsk, hn, hsz, e⟩ | ⟨hno, e⟩
  · obtain ⟨L', hL', -, -, -, -, -, -, e'⟩ := (blockStep_cases (s.withMems b k q)).resolve_right
      fun hc => hc.1 L ((hsym hbp).trans hL) ⟨hbp, hbk, hkp, hsk, hn, hsz⟩
    cases hL.symm.trans ((hsym hbp).symm.trans hL')
    rw [e, e']
    exact h.blockStepWith hkp hn
  · obtain ⟨-, e'⟩ := (blockStep_cases (s.withMems b k q)).resolve_left
      fun ⟨L, hL, hbp, hbk, hkp, hsk, hn, hsz, _⟩ =>
        hno L ((hsym hbp).symm.trans hL) ⟨hbp, hbk, hkp, hsk, hn, hsz⟩
    rw [e, e']
    exact h.mirrors rfl rfl rfl

/-- FINISH reads no memory (R74, R75). -/
theorem State.Agrees.finishStep {t : State} (hf : finishStep s = .next t) :
    ∃ t', finishStep (s.withMems b k q) = .next t' ∧ t'.Mirrors t k q := by
  rcases finishStep_cases hf with ⟨hc, rfl⟩ | ⟨hc, hle, rfl⟩
  · exact ⟨_, if_pos hc, h.mirrors rfl rfl rfl⟩
  · exact ⟨_, (if_neg hc).trans (if_pos hle), h.mirrors rfl rfl rfl⟩

/-- An engine step of a state is mirrored by one of a state that agrees with it below the length registers. -/
theorem State.Agrees.engineStep {t : State} (ht : engineStep s = .next t) :
    ∃ t', engineStep (s.withMems b k q) = .next t' ∧ t'.Mirrors t k q := by
  rcases engineStep_cases ht with ⟨hp, rfl⟩ | ⟨hp, rfl⟩ | ⟨hp, rfl⟩ | ⟨hp, rfl⟩ | ⟨hp, rfl⟩ | ⟨hp, hf⟩ <;>
    simp only [Machine.engineStep, State.withMems_eng, hp]
  · exact ⟨_, rfl, h.mirrors rfl rfl rfl⟩
  · exact ⟨_, rfl, h.validateStep⟩
  · exact ⟨_, rfl, h.normStep⟩
  · exact ⟨_, rfl, h.alphaStep⟩
  · exact ⟨_, rfl, h.blockStep⟩
  · exact h.finishStep hf

end

end Sys2Proof.Machine

open Sys2Proof.Machine in
/-- Settles O39: the two steps mirror each other, and no engine step writes a key memory or a length. -/
theorem engineReadsOnlyItsOperands : Obligations.EngineReadsOnlyItsOperands := by
  intro s s' hframe hbuf hskey hbkey t ht
  obtain ⟨b, k, q, rfl⟩ : ∃ b k q, s' = s.withMems b k q := ⟨_, _, _, hframe⟩
  have hs : s.Agrees b k q := ⟨hbuf, hskey, hbkey⟩
  obtain ⟨t', ht', b', rfl, hb'⟩ := hs.engineStep ht
  have hf := engineStep_frame ht
  exact ⟨_, ht', rfl, hf.size ▸ hb', fun a ha => (hskey a ha).trans (State.byte_congr (sp := .skey) hf.skey a).symm,
    fun a ha => (hbkey a ha).trans (State.byte_congr (sp := .bkey) hf.bkey a).symm⟩
end

section
/-! PROOFS. The fields of a command word as numbers (R52), and the decoder against the encoder (R53, R54). -/

namespace Sys2Proof

theorem toNat_packCommand (rsv : BitVec 27) (dir : BitVec 1) (op : BitVec 4) :
    (packCommand rsv dir op).toNat = rsv.toNat * 32 + dir.toNat * 16 + op.toNat := by
  rw [packCommand, Machine.toNat_append_eq_add, Machine.toNat_append_eq_add]
  omega

/-- OP is the word's low four bits. -/
theorem toNat_cmdOp (w : Word) : (cmdOp w).toNat = w.toNat % 16 := by
  simp [cmdOp, BitVec.extractLsb'_toNat]

/-- DIR is the bit above OP. -/
theorem toNat_cmdDir (w : Word) : (cmdDir w).toNat = w.toNat / 16 % 2 := by
  simp [cmdDir, BitVec.extractLsb'_toNat, Nat.shiftRight_eq_div_pow]

/-- RSV is all that is above DIR. -/
theorem toNat_cmdRsv (w : Word) : (cmdRsv w).toNat = w.toNat / 32 := by
  have := w.isLt
  rw [cmdRsv, BitVec.extractLsb'_toNat, Nat.shiftRight_eq_div_pow]
  omega

theorem toNat_eq_fields (w : Word) :
    w.toNat = (cmdRsv w).toNat * 32 + (cmdDir w).toNat * 16 + (cmdOp w).toNat := by
  rw [toNat_cmdRsv, toNat_cmdDir, toNat_cmdOp]
  omega

/-- A word is its own fields in their places. -/
theorem packCommand_fields (w : Word) : packCommand (cmdRsv w) (cmdDir w) (cmdOp w) = w :=
  BitVec.eq_of_toNat_eq ((toNat_packCommand ..).trans (toNat_eq_fields w).symm)

section
variable (rsv : BitVec 27) (dir : BitVec 1) (op : BitVec 4)

@[simp] theorem cmdRsv_packCommand : cmdRsv (packCommand rsv dir op) = rsv := by
  refine BitVec.eq_of_toNat_eq ?_
  rw [toNat_cmdRsv, toNat_packCommand]
  omega

@[simp] theorem cmdDir_packCommand : cmdDir (packCommand rsv dir op) = dir := by
  refine BitVec.eq_of_toNat_eq ?_
  rw [toNat_cmdDir, toNat_packCommand]
  omega

@[simp] theorem cmdOp_packCommand : cmdOp (packCommand rsv dir op) = op := by
  refine BitVec.eq_of_toNat_eq ?_
  rw [toNat_cmdOp, toNat_packCommand]
  omega

end

/-! ### The decoder, case by case (R53) -/

theorem decode_of_reservedBits {w : Word} (h : cmdRsv w ≠ 0) : decode w = .illegal .reservedBits := if_pos h

theorem decode_of_reservedOp {w : Word} (hr : cmdRsv w = 0) (h : 4 ≤ (cmdOp w).toNat) :
    decode w = .illegal .reservedOp :=
  (if_neg (not_not.2 hr)).trans (if_pos h)

theorem decode_of_direction {w : Word} (hr : cmdRsv w = 0) (ho : ¬ 4 ≤ (cmdOp w).toNat)
    (h : cmdDir w = 1 ∧ cmdOp w ≠ 1) : decode w = .illegal .direction :=
  (if_neg (not_not.2 hr)).trans ((if_neg ho).trans (if_pos h))

/-- R53's three cases of an illegal word. -/
def IllegalFields (w : Word) : Prop :=
  cmdRsv w ≠ 0 ∨ 4 ≤ (cmdOp w).toNat ∨ (cmdDir w = 1 ∧ cmdOp w ≠ 1)

theorem IllegalFields.decode_illegal {w : Word} (h : IllegalFields w) : ∃ why, decode w = .illegal why := by
  by_cases hr : cmdRsv w = 0
  · by_cases ho : 4 ≤ (cmdOp w).toNat
    · exact ⟨_, decode_of_reservedOp hr ho⟩
    · exact ⟨_, decode_of_direction hr ho ((h.resolve_left (not_not.2 hr)).resolve_left ho)⟩
  · exact ⟨_, decode_of_reservedBits hr⟩

/-- DIR and OP of a word outside R53's illegal cases are those of one of the five instructions. -/
theorem exists_encode_eq_packCommand {dir : BitVec 1} {op : BitVec 4} (ho : op.toNat < 4) (hd : dir = 1 → op = 1) :
    ∃ i, packCommand 0 dir op = encode i := by
  obtain rfl | rfl := BitVec.eq_zero_or_eq_one dir
  · obtain rfl | rfl | rfl | rfl : op = 0 ∨ op = 1 ∨ op = 2 ∨ op = 3 := by bv_omega
    · exact ⟨.nop, rfl⟩
    · exact ⟨.xformEnc, rfl⟩
    · exact ⟨.norm, rfl⟩
    · exact ⟨.check, rfl⟩
  · exact ⟨.xformDec, by rw [hd rfl]; rfl⟩

/-- A word outside R53's illegal cases is an instruction's word. -/
theorem exists_eq_encode_of_not_illegalFields {w : Word} (h : ¬ IllegalFields w) : ∃ i, w = encode i := by
  simp only [IllegalFields, not_or, not_and, not_not, Nat.not_le] at h
  obtain ⟨hr, ho, hd⟩ := h
  obtain ⟨i, hi⟩ := exists_encode_eq_packCommand ho hd
  exact ⟨i, by rw [← hi, ← hr, packCommand_fields]⟩

/-- A word decodes to an instruction exactly where it is that instruction's word. -/
theorem decode_eq_legal_iff (w : Word) (i : Instr) : decode w = .legal i ↔ w = encode i := by
  constructor
  · intro h
    by_cases hf : IllegalFields w
    · obtain ⟨why, hw⟩ := hf.decode_illegal
      cases h.symm.trans hw
    · obtain ⟨j, rfl⟩ := exists_eq_encode_of_not_illegalFields hf
      cases h.symm.trans (Machine.decode_encode_legal j)
      rfl
  · rintro rfl
    exact Machine.decode_encode_legal i

/-- A word is illegal exactly where its fields are. -/
theorem exists_decode_eq_illegal_iff (w : Word) : (∃ why, decode w = .illegal why) ↔ IllegalFields w := by
  refine ⟨fun ⟨why, hw⟩ => by_contra fun hf => ?_, IllegalFields.decode_illegal⟩
  obtain ⟨i, rfl⟩ := exists_eq_encode_of_not_illegalFields hf
  cases hw.symm.trans (Machine.decode_encode_legal i)

end Sys2Proof

open Sys2Proof in
/-- Settles O2: outside R53's illegal fields only the five encodings are left, and `decode_encode_legal` reads those. -/
theorem decodeAgreesWithEncode : Obligations.DecodeAgreesWithEncode :=
  ⟨decode_eq_legal_iff, exists_decode_eq_illegal_iff⟩

open Sys2Proof in
/-- Settles O3: each field is a quotient or a remainder of the word, and the word the sum of its fields. -/
theorem commandWordFields : Obligations.CommandWordFields :=
  ⟨fun rsv dir op => ⟨cmdRsv_packCommand rsv dir op, cmdDir_packCommand rsv dir op, cmdOp_packCommand rsv dir op⟩,
    packCommand_fields, toNat_eq_fields⟩

open Sys2Proof Sys2Proof.Machine in
/-- Settles O4: the five legal words are the encodings, and each illegal word meets one of R53's cases alone. -/
theorem tableWordsDecode : Obligations.TableWordsDecode :=
  ⟨decode_encode_legal .nop, decode_encode_legal .xformEnc, decode_encode_legal .xformDec, decode_encode_legal .norm,
    decode_encode_legal .check, decode_of_reservedOp (by decide) (by decide),
    decode_of_direction (by decide) (by decide) (by decide), decode_of_reservedBits (by decide)⟩
end

section
/-! PROOFS. What every command word decodes to, and how an illegal one ends (R53, R77). -/

namespace Sys2Proof.Machine

theorem operationOf_illegal {w : Word} {why : IllegalWord} (h : decode w = .illegal why) :
    operationOf w = (.illegal, .encode) := by
  simp [operationOf, h]

/-- An illegal word is no instruction's word. -/
theorem ne_encode_of_illegal {w : Word} {why : IllegalWord} (h : decode w = .illegal why) (i : Instr) :
    w ≠ encode i := fun hw => by
  cases h.symm.trans ((decode_eq_legal_iff w i).2 hw)

/-- R53's table: the operation and direction of each of the five words, and illegal for every other word. -/
theorem operationOf_eq_table (w : Word) : operationOf w =
    if w = encode .nop then (.nop, .encode)
    else if w = encode .xformEnc then (.xform, .encode)
    else if w = encode .xformDec then (.xform, .decode)
    else if w = encode .norm then (.norm, .encode)
    else if w = encode .check then (.check, .encode)
    else (.illegal, .encode) := by
  cases hd : decode w with
  | legal i =>
    obtain rfl := (decode_eq_legal_iff w i).1 hd
    cases i <;> rfl
  | illegal why =>
    simp only [operationOf_illegal hd, ne_encode_of_illegal hd, if_false]

/-- FINISH with an error pending is the error completion (R75). -/
theorem engineStep_pendError (s : State) (c : ErrorCode) (info : Word) :
    engineStep (s.pendError c info) = .next (s.pendError c info).completeError :=
  (if_neg c.code_ne_zero).trans (if_pos c.code_le)

/-- A block with a pending error and nothing scheduled completes with it in one step. -/
theorem steps_one_pendError {s : State} (hb : s.status.busy = true) (hi : s.inputs = []) (c : ErrorCode) (info : Word) :
    steps 1 (s.pendError c info) = .next (s.pendError c info).completeError :=
  steps_succ 0 ((step_busy_alone (s := s.pendError c info) hb hi).trans (engineStep_pendError s c info))

/-- An illegal word written to an idle block is accepted with ILLEGAL_COMMAND pending (R61, R77). -/
theorem writeCmd_illegal_idle {w : Word} {why : IllegalWord} (h : decode w = .illegal why) {s : State}
    (hb : s.status.busy = false) :
    writeCmd w s = .next ((s.accept w .illegal .encode).pendError .illegalCommand w) :=
  (writeCmd_illegal h s).trans (congrArg _ (State.submitIllegal_idle hb w))

/-- Only an illegal word has the operation ILLEGAL. -/
theorem exists_illegal_of_operationOf {w : Word} (h : operationOf w = (.illegal, .encode)) :
    ∃ why, decode w = .illegal why := by
  cases hd : decode w with
  | illegal why => exact ⟨why, rfl⟩
  | legal i =>
    obtain rfl := (decode_eq_legal_iff w i).1 hd
    exact absurd (congrArg Prod.fst h) (operationOf_encode_ne_illegal i)

end Sys2Proof.Machine

open Sys2Proof Sys2Proof.Machine in
/-- Settles O1: the table's words are the encodings; R53's illegal fields decode as illegal; an illegal word leaves its
error pending, which FINISH reports. -/
theorem decodeOfEveryWord : Obligations.DecodeOfEveryWord := by
  refine ⟨operationOf_eq_table, fun w hw => ?_, fun s w ⟨hb, hi⟩ hw => ?_⟩
  · obtain ⟨why, hd⟩ := IllegalFields.decode_illegal hw
    exact operationOf_illegal hd
  · obtain ⟨why, hd⟩ := exists_illegal_of_operationOf hw
    have hfin := steps_one_pendError (s := s.accept w .illegal .encode) rfl hi .illegalCommand w
    exact ⟨_, _, writeCmd_illegal_idle hd hb, hfin, rfl, rfl, rfl⟩
end

section
/-! PROOFS. The expansion of each statement of the host assembly language (R59, R60). -/

namespace Sys2Proof.Machine

/-- A quoted string is loaded as its bytes, where it has any (R59). -/
theorem assemble_loadText (sp : Space) (text : String) :
    (Stmt.loadText sp text).assemble = (asciiBytes text).map fun bs => .once (loadFrom sp 0 bs) := rfl

/-- A `load` writes byte k to offset k, each byte once (R59). -/
theorem assemble_load (sp : Space) (bs : List Byte) :
    ∃ txns, (Stmt.load sp bs).assemble = some (.once txns) ∧ txns.length = bs.length ∧
      ∀ (k : Nat) (h : k < bs.length), txns[k]? = some (.write (memAddress sp k) (bs[k].setWidth 32)) := by
  refine ⟨_, rfl, loadFrom_length sp bs 0, fun k h => ?_⟩
  rw [loadFrom_getElem?, List.getElem?_eq_getElem h, Option.map_some, Nat.zero_add]

end Sys2Proof.Machine

open Sys2Proof Sys2Proof.Machine in
/-- Settles O5: the literal offsets and bases are those of the registers and of the memories, `assemble_load` gives a
`load` byte by byte, and `asciiBytes` gives a string's bytes or none. -/
theorem assemblyNotationExpands : Obligations.AssemblyNotationExpands := by
  refine ⟨rfl, rfl, rfl, rfl, rfl, fun sign => rfl, fun q hq => ?_, fun q hq => ?_, fun sp text h => ?_,
    fun sp text ⟨c, hc, h⟩ => ?_, rfl⟩
  · obtain ⟨r, -, rfl⟩ := List.mem_map.1 (show q ∈ allRegs.map fun r => (r, regAddress r) from hq)
    exact ⟨fun _ => rfl, rfl⟩
  · obtain ⟨sp, -, rfl⟩ :=
      List.mem_map.1 (show q ∈ [Space.skey, .bkey, .buf].map fun sp => (sp, windowBase sp) from hq)
    exact ⟨fun _ _ => ⟨rfl, rfl⟩, assemble_load sp⟩
  · rw [assemble_loadText, asciiBytes_of_ascii h]
    rfl
  · rw [assemble_loadText, asciiBytes_of_not_ascii hc h]
    rfl
end

section
/-! PROOFS. A step takes the event at the head of the schedule and leaves the rest of it (R11; log 4). -/

namespace Sys2Proof.Machine

theorem writeCmd_inputs {s t : State} {w : Word} (h : writeCmd w s = .next t) : t.inputs = s.inputs := by
  rcases writeCmd_cases w s with ⟨-, hw⟩ | ⟨-, i, -, hw, hi⟩ | ⟨-, why, -, -, hw⟩
  · cases h.symm.trans hw
    rfl
  · cases h.symm.trans (hw.trans hi)
    rfl
  · cases h.symm.trans hw
    rfl

/-- No transaction touches the events still to come. -/
theorem hostStep_inputs {s t : State} {x : HostTxn} (h : hostStep x s = .next t) : t.inputs = s.inputs := by
  cases x with
  | read a =>
    cases h
    obtain ⟨r, n, e, -⟩ := hostRead_cases a s
    rw [e]
  | write a d =>
    cases hb : s.status.busy with
    | true => obtain ⟨r, ⟨rfl, -⟩ | ⟨rfl, -⟩ | rfl | rfl⟩ := hostWrite_busy hb h <;> rfl
    | false =>
      obtain ⟨r, ⟨-, hcmd⟩ | rfl | ⟨rfl, -⟩ | rfl | rfl | rfl | rfl | ⟨sp, i, -, rfl⟩⟩ := hostWrite_idle hb h
      case inl => exact writeCmd_inputs (s := s.respond r) hcmd
      case inr.inr.inr.inr.inr.inr.inr => exact State.setMem_inputs ..
      all_goals rfl

/-- Whatever the head of the schedule is, the step takes it and nothing more. -/
theorem step_inputs {s t : State} {e : Event} {es : List Event} (hi : s.inputs = e :: es) (h : step s = .next t) :
    t.inputs = es := by
  rcases step_cases h with ⟨-, -, he⟩ | ⟨-, -, rfl⟩ | ⟨x, es', hx, hh⟩ | ⟨es', hx, rfl⟩
  · rw [(engineStep_frame he).inputs, State.withInputs_inputs, hi, List.tail_cons]
  · rw [State.withInputs_inputs, hi, List.tail_cons]
  · cases hi.symm.trans hx
    exact hostStep_inputs hh
  · cases hi.symm.trans hx
    rfl

/-- A run of several steps that goes on is a first step and the run after it. -/
theorem steps_succ_eq_next {k : Nat} {s t : State} (h : steps (k + 1) s = .next t) :
    ∃ u, step s = .next u ∧ steps k u = .next t := by
  rw [steps] at h
  split at h
  · exact ⟨_, ‹_›, h⟩
  · cases h
  · cases h

/-- A run of a schedule that ends with a host transaction ends with that transaction. -/
theorem hostStep_of_steps {gap : List Event} {x : HostTxn} {s t : State} (hi : s.inputs = gap ++ [.host x])
    (h : steps (gap.length + 1) s = .next t) : ∃ u, hostStep x u = .next t := by
  induction gap generalizing s with
  | nil =>
    obtain ⟨u, hu, ht⟩ := steps_succ_eq_next h
    cases ht
    exact ⟨_, (step_host hi).symm.trans hu⟩
  | cons e gap ih =>
    obtain ⟨u, hu, ht⟩ := steps_succ_eq_next h
    exact ih (step_inputs hi hu) ht

end Sys2Proof.Machine
end

section
/-! PROOFS. `wait` polls STATUS until BUSY = 0 (R59). -/

namespace Sys2Proof.Machine

/-- What `wait` expands to (R59). -/
def waitPolls : Expansion := .repeatUntilClear (regAddress .status) 0

theorem assemble_wait : Stmt.wait.assemble = some waitPolls := rfl

/-- A READ of STATUS answered with BUSY = 1. -/
def HostResp.SaysBusy (r : HostResp) : Prop := ∃ v : Word, r = .readOkay v ∧ v.getLsbD 0 = true

/-- A poll answers busy where the block is (R22). -/
theorem HostResp.saysBusy_word {st : Status} (h : st.busy = true) : (HostResp.readOkay st.word).SaysBusy :=
  ⟨_, rfl, (Status.word_getLsbD_zero st).trans h⟩

/-- Polls that say busy, and one more. -/
theorem HostResp.saysBusy_append {rs : List HostResp} {r : HostResp} (h : ∀ r ∈ rs, r.SaysBusy) (hr : r.SaysBusy) :
    ∀ r' ∈ rs ++ [r], r'.SaysBusy :=
  List.forall_mem_append.2 ⟨h, List.forall_mem_singleton.2 hr⟩

/-- After a poll another follows exactly where it answered busy. -/
theorem next_waitPolls_concat (rs : List HostResp) (w : Word) :
    waitPolls.next (rs ++ [.readOkay w]) = if w.getLsbD 0 = true then some (.read (regAddress .status)) else none := by
  rw [waitPolls, Expansion.next_repeat_concat, HostResp.bitClear_readOkay]
  cases w.getLsbD 0 <;> rfl

/-- While every poll has answered busy, another follows. -/
theorem next_waitPolls_of_saysBusy {rs : List HostResp} (h : ∀ r ∈ rs, r.SaysBusy) :
    waitPolls.next rs = some (.read (regAddress .status)) := by
  rcases List.eq_nil_or_concat' rs with rfl | ⟨rs, r, rfl⟩
  · rfl
  · obtain ⟨v, rfl, hv⟩ := h r (List.mem_append_right _ (List.mem_singleton_self r))
    exact (next_waitPolls_concat rs v).trans (if_pos hv)

/-- After a poll that finds the block idle there is none. -/
theorem next_waitPolls_of_idle (rs : List HostResp) {st : Status} (h : st.busy = false) :
    waitPolls.next (rs ++ [.readOkay st.word]) = none := by
  rw [next_waitPolls_concat, Status.word_getLsbD_zero, h, if_neg Bool.false_ne_true]

/-! ### Runs -/

/-- An expansion with nothing left to issue has ended, whatever gaps are left. -/
theorem Expansion.run_of_next_none {x : Expansion} {rs : List HostResp} (h : x.next rs = none)
    (gaps : List (List Event)) (s : State) : x.run gaps rs s = .next ⟨s, rs, true⟩ := by
  cases gaps <;> simp [Expansion.run, h]

/-- A gap and its transaction, and the run after them. -/
theorem Expansion.run_cons {x : Expansion} {rs : List HostResp} {txn : HostTxn} (hn : x.next rs = some txn)
    {gap : List Event} {s t : State} (h : steps (gap.length + 1) (s.withInputs (gap ++ [.host txn])) = .next t)
    (gaps : List (List Event)) : x.run (gap :: gaps) rs s = x.run gaps (rs ++ t.resp.toList) t := by
  simp only [Expansion.run, hn, h]

/-- A run past a transaction that goes on got past the gap before it. -/
theorem Expansion.steps_of_run_cons {x : Expansion} {rs : List HostResp} {txn : HostTxn} (hn : x.next rs = some txn)
    {gap : List Event} {gaps : List (List Event)} {s : State} {r : HostRun} (h : x.run (gap :: gaps) rs s = .next r) :
    ∃ t, steps (gap.length + 1) (s.withInputs (gap ++ [.host txn])) = .next t := by
  simp only [Expansion.run, hn] at h
  split at h
  · exact ⟨_, ‹_›⟩
  · cases h
  · cases h

/-- After a poll the port shows the STATUS of the state it leaves. -/
theorem resp_of_poll {s t : State} (h : hostStep (.read (regAddress .status)) s = .next t) :
    t.resp = some (.readOkay t.status.word) := by
  cases (hostStep_read_status s).symm.trans h
  rfl

/-- Where `wait` ends the block is idle, the last poll has said so, and every poll before it has said busy. -/
theorem run_waitPolls_ended {gaps : List (List Event)} {rs rs' : List HostResp} {s t : State}
    (hrs : ∀ r ∈ rs, r.SaysBusy) (h : waitPolls.run gaps rs s = .next ⟨t, rs', true⟩) :
    t.status.busy = false ∧ ∃ polls, rs' = polls ++ [.readOkay t.status.word] ∧ ∀ r ∈ polls, r.SaysBusy := by
  have hn := next_waitPolls_of_saysBusy hrs
  induction gaps generalizing rs s with
  | nil =>
    rw [Expansion.run, hn] at h
    cases h
  | cons gap gaps ih =>
    obtain ⟨u, hu⟩ := Expansion.steps_of_run_cons hn h
    obtain ⟨v, hv⟩ := hostStep_of_steps rfl hu
    rw [Expansion.run_cons hn hu, resp_of_poll hv, Option.toList_some] at h
    cases hb : u.status.busy with
    | true =>
      have hrs' := HostResp.saysBusy_append hrs (HostResp.saysBusy_word hb)
      exact ih hrs' h (next_waitPolls_of_saysBusy hrs')
    | false =>
      rw [Expansion.run_of_next_none (next_waitPolls_of_idle rs hb)] at h
      cases h
      exact ⟨hb, rs, rfl, hrs⟩

/-! ### With engine steps alone between the polls -/

/-- An engine event of an idle block's schedule passes without effect (R63; log 5). -/
theorem step_engine_idle {s : State} {es : List Event} (hb : s.status.busy = false) (hi : s.inputs = .engine :: es) :
    step s = .next (s.withInputs es) := by
  simp [step, hi, hb]

/-- A gap of engine events and the poll after it: the block goes on as the engine left alone does, by as many steps as
the gap has or until the command is complete. -/
theorem State.Shadows.steps_gap {gap : List Event} (hgap : ∀ e ∈ gap, e = .engine) {s w : State} (h : w.Shadows s)
    (hs : s.Inv) (hi : s.inputs = gap ++ [.host (.read (regAddress .status))]) :
    ∃ t w', steps (gap.length + 1) s = .next t ∧ t.resp = some (.readOkay t.status.word) ∧ w'.Shadows t ∧ t.Inv ∧
      t.stepsLeft = s.stepsLeft - gap.length ∧ steps s.stepsLeft w = steps t.stepsLeft w' := by
  induction gap generalizing s w with
  | nil =>
    have ht := (Machine.step_host hi).trans (hostStep_read_status (s.withInputs []))
    have hv : ((s.withInputs []).respond (.readOkay s.status.word)).engineView = s.engineView := rfl
    have hleft := State.stepsLeft_of_engineView hv
    exact ⟨_, w, steps_succ 0 ht, rfl, ⟨h.view.trans hv.symm, h.alone⟩, hs.of_engineView hv, hleft,
      congrArg (steps · w) hleft.symm⟩
  | cons e gap ih =>
    obtain ⟨rfl, hgap'⟩ := List.forall_mem_cons.1 hgap
    rw [List.length_cons]
    cases hb : s.status.busy with
    | true =>
      obtain ⟨t, u, ht, hu, hsh, hinv, hin, hleft⟩ := h.step_engine hs hb hi
      rw [steps_succ _ ht, ← hleft, steps_succ _ hu, Nat.add_sub_add_right]
      exact ih hgap' hsh hinv hin
    | false =>
      have h0 := hs.stepsLeft_eq_zero.2 hb
      have hrest := ih hgap' (s := s.withInputs (gap ++ [.host (.read (regAddress .status))])) ⟨h.view, h.alone⟩
        (hs.of_engineView rfl) rfl
      rw [State.stepsLeft_withInputs, h0, Nat.zero_sub] at hrest
      rwa [steps_succ _ (step_engine_idle hb hi), h0, Nat.zero_sub]

/-- With engine steps alone between the polls, at least as many as the command still takes, `wait` ends in the state the
engine reaches alone. -/
theorem State.Shadows.run_waitPolls {gaps : List (List Event)} (hne : gaps ≠ [])
    (hgaps : ∀ g ∈ gaps, ∀ e ∈ g, e = .engine) {s w : State} (h : w.Shadows s) (hs : s.Inv) {rs : List HostResp}
    (hrs : ∀ r ∈ rs, r.SaysBusy) (hk : s.stepsLeft ≤ (gaps.map List.length).sum) :
    ∃ t rs' u, waitPolls.run gaps rs s = .next ⟨t, rs', true⟩ ∧ t.status.busy = false ∧
      steps s.stepsLeft w = .next u ∧ t.engineView = u.engineView := by
  induction gaps generalizing s w rs with
  | nil => exact absurd rfl hne
  | cons gap gaps ih =>
    obtain ⟨hgap, hgaps'⟩ := List.forall_mem_cons.1 hgaps
    have htaken : w.Shadows (s.withInputs (gap ++ [.host (.read (regAddress .status))])) := ⟨h.view, h.alone⟩
    obtain ⟨t, w', ht, hresp, hsh, hinv, hleft, hsteps⟩ := htaken.steps_gap hgap (hs.of_engineView rfl) rfl
    rw [State.stepsLeft_withInputs] at hleft hsteps
    rw [Expansion.run_cons (next_waitPolls_of_saysBusy hrs) ht, hresp, Option.toList_some, hsteps]
    cases hb : t.status.busy with
    | false =>
      rw [hinv.stepsLeft_eq_zero.2 hb]
      exact ⟨t, _, w', Expansion.run_of_next_none (next_waitPolls_of_idle rs hb) gaps t, hb, rfl, hsh.view.symm⟩
    | true =>
      rw [List.map_cons, List.sum_cons] at hk
      have hmore : gaps ≠ [] := by
        rintro rfl
        have h0 : t.stepsLeft = 0 := by simp only [List.map_nil, List.sum_nil] at hk; omega
        simp [hinv.stepsLeft_eq_zero.1 h0] at hb
      exact ih hmore hgaps' hsh hinv (HostResp.saysBusy_append hrs (HostResp.saysBusy_word hb)) (by omega)

end Sys2Proof.Machine

open Sys2Proof.Machine in
/-- Settles O60: `wait` goes on while its polls say busy, by induction on the gaps; with engine steps alone in them the
block shadows the engine left alone. -/
theorem waitPollsUntilNotBusy : Obligations.WaitPollsUntilNotBusy := by
  refine ⟨waitPolls, assemble_wait, rfl, next_waitPolls_concat, fun s t gaps rs h => ?_,
    fun s gaps hs hne hgaps hk => ?_⟩
  · obtain ⟨hb, polls, rfl, hpolls⟩ := run_waitPolls_ended (List.forall_mem_nil _) h
    exact ⟨hb, polls, _, rfl, (Status.word_getLsbD_zero _).trans hb, hpolls⟩
  · have halone : (s.withInputs []).Shadows s := ⟨rfl, rfl⟩
    exact halone.run_waitPolls hne hgaps hs (List.forall_mem_nil _) hk
end

section
/-! PROOFS. Every accepted command completes, after the steps R79 counts (R61, R62, R79). -/

namespace Sys2Proof.Machine

/-! ### What an idle block makes of a word written to CMD (R61) -/

/-- A legal word is accepted as its operation and direction. -/
theorem writeCmd_legal_idle {s : State} (hb : s.status.busy = false) {w : Word}
    (hw : (operationOf w).1 ≠ .illegal) :
    writeCmd w s = .next (s.accept w (operationOf w).1 (operationOf w).2) := by
  rcases writeCmd_cases w s with ⟨hbusy, -⟩ | ⟨-, i, hd, h, hi⟩ | ⟨-, -, -, hop, -⟩
  · simp [hb] at hbusy
  · obtain rfl := (decode_eq_legal_iff w i).1 hd
    exact h.trans hi
  · simp [hop] at hw

/-- A word of operation ILLEGAL has no other direction than ENCODE (R53). -/
theorem operationOf_eq_of_illegal {w : Word} (h : (operationOf w).1 = .illegal) :
    operationOf w = (.illegal, .encode) := by
  cases hd : decode w with
  | illegal why => exact operationOf_illegal hd
  | legal i =>
    obtain rfl := (decode_eq_legal_iff w i).1 hd
    exact absurd h (operationOf_encode_ne_illegal i)

/-- A word of operation ILLEGAL is accepted with ILLEGAL_COMMAND pending (R77). -/
theorem writeCmd_illegal_op_idle {s : State} (hb : s.status.busy = false) {w : Word}
    (hw : (operationOf w).1 = .illegal) :
    writeCmd w s = .next ((s.accept w .illegal .encode).pendError .illegalCommand w) :=
  have ⟨_, hd⟩ := exists_illegal_of_operationOf (operationOf_eq_of_illegal hw)
  writeCmd_illegal_idle hd hb

/-! ### The steps left right after acceptance (R79) -/

/-- A command starts at FINISH or at VALIDATE. -/
theorem startPhase_cases (op : Op) : startPhase op = .finish ∨ startPhase op = .validate := by
  cases op <;> decide

section
variable (s : State) (w : Word) (op : Op) (dir : Dir)

theorem State.sameOperands_accept : s.SameOperands (s.accept w op dir) := ⟨rfl, rfl, rfl, rfl, rfl⟩

/-- A command that goes straight to FINISH has one step. -/
theorem State.stepsLeft_accept_finish (h : startPhase op = .finish) : (s.accept w op dir).stepsLeft = 1 := by
  simp only [State.stepsLeft, State.accept_eng, h]

/-- A command that is validated has the steps its verdict gives. -/
theorem State.stepsLeft_accept_validate (h : startPhase op = .validate) :
    (s.accept w op dir).stepsLeft = s.commandSteps op (s.latchMode op s.eng.mode) := by
  simp only [State.stepsLeft, State.accept_eng, h, State.commandSteps_congr (s.sameOperands_accept w op dir)]

end

/-- The count right after acceptance of any word, by its operation. -/
theorem stepsLeft_writeCmd {s t : State} {w : Word} (hb : s.status.busy = false) (h : writeCmd w s = .next t) :
    t.stepsLeft =
      if startPhase (operationOf w).1 = .finish then 1
      else s.commandSteps (operationOf w).1 (s.latchMode (operationOf w).1 s.eng.mode) := by
  by_cases hop : (operationOf w).1 = .illegal
  · cases h.symm.trans (writeCmd_illegal_op_idle hb hop)
    rw [hop]
    rfl
  · cases h.symm.trans (writeCmd_legal_idle hb hop)
    split
    · exact s.stepsLeft_accept_finish _ _ _ ‹_›
    · exact s.stepsLeft_accept_validate _ _ _ ((startPhase_cases _).resolve_left ‹_›)

/-! ### The engine left alone -/

/-- The engine step that clears BUSY reports DONE or ERR (R74, R75). -/
theorem reports_of_engineStep {s t : State} (hb : s.status.busy = true) (h : engineStep s = .next t)
    (hb' : t.status.busy = false) : t.status.done = true ∨ t.status.err = true := by
  rcases engineStep_moves h with (rfl | ⟨⟨b, e, rfl⟩, -⟩) | rfl | rfl
  · exact absurd (hb.symm.trans hb') (by decide)
  · exact absurd (hb.symm.trans hb') (by decide)
  · exact .inl rfl
  · exact .inr rfl

/-- A busy block left alone, one step on: it has one step less, and is still left alone. -/
theorem State.Inv.step_alone {s : State} (hs : s.Inv) (hb : s.status.busy = true) (hi : s.inputs = []) :
    ∃ t, step s = .next t ∧ t.Inv ∧ t.inputs = [] ∧ t.stepsLeft + 1 = s.stepsLeft ∧
      (t.status.busy = false → t.status.done = true ∨ t.status.err = true) := by
  obtain ⟨t, ht, hinv, -⟩ := engineStep_keeps hs hb
  exact ⟨t, (step_busy_alone hb hi).trans ht, hinv, (engineStep_frame ht).inputs.trans hi,
    engineStep_stepsLeft hs hb ht, reports_of_engineStep hb ht⟩

/-- A block left alone is busy for the steps it has left and completes with the last of them. -/
theorem State.Inv.completes_alone {n : Nat} {s : State} (hs : s.Inv) (hi : s.inputs = []) (hn : s.stepsLeft = n)
    (hreport : s.status.busy = false → s.status.done = true ∨ s.status.err = true) :
    ∃ u, steps n s = .next u ∧ u.status.busy = false ∧ (u.status.done = true ∨ u.status.err = true) ∧
      ∀ k, k < n → ∃ v, steps k s = .next v ∧ v.status.busy = true := by
  induction n generalizing s with
  | zero =>
    have hidle := hs.stepsLeft_eq_zero.1 hn
    exact ⟨s, rfl, hidle, hreport hidle, fun k hk => absurd hk k.not_lt_zero⟩
  | succ n ih =>
    have hb := hs.busy_of_stepsLeft hn
    obtain ⟨t, ht, hinv, hin, hleft, hreport'⟩ := hs.step_alone hb hi
    obtain ⟨u, hu, hidle, hdone, hbusy⟩ := ih hinv hin (Nat.succ.inj (hleft.trans hn)) hreport'
    refine ⟨u, (steps_succ _ ht).trans hu, hidle, hdone, fun k hk => ?_⟩
    cases k with
    | zero => exact ⟨s, rfl, hb⟩
    | succ k =>
      obtain ⟨v, hv, hbv⟩ := hbusy k (Nat.lt_of_succ_lt_succ hk)
      exact ⟨v, (steps_succ _ ht).trans hv, hbv⟩

end Sys2Proof.Machine

open Sys2Proof.Machine in
/-- Settles O56: by induction on the steps left, of which each engine step takes one; the count after acceptance is the
phase R61 starts in. -/
theorem everyCommandTerminates : Obligations.EveryCommandTerminates := by
  refine ⟨fun s hs hb hi => ?_, fun s t w hb h => ?_⟩
  · exact hs.completes_alone hi rfl fun hidle => absurd (hb.symm.trans hidle) (by decide)
  · have hleft := stepsLeft_writeCmd hb h
    refine ⟨?_, fun hop => ?_, fun hop => ?_, fun hop => ?_⟩
    · rintro (hop | hop) <;> rwa [hop] at hleft
    all_goals rwa [hop] at hleft
end

section
/-! PROOFS. Acceptance field by field (R61), and the two completions (R74, R75, R77). -/

namespace Sys2Proof.Machine

/-! ### One engine step, by phase (R63) -/

section
variable {s : State}

theorem engineStep_validate (hp : s.eng.phase = .validate) : engineStep s = .next (validateStep s) := by
  simp [engineStep, hp]

theorem engineStep_normRun (hp : s.eng.phase = .normRun) : engineStep s = .next (normStep s) := by
  simp [engineStep, hp]

theorem engineStep_alphaRun (hp : s.eng.phase = .alphaRun) : engineStep s = .next (alphaStep s) := by
  simp [engineStep, hp]

theorem engineStep_mv2Run (hp : s.eng.phase = .mv2Run) : engineStep s = .next (blockStep s) := by
  simp [engineStep, hp]

theorem engineStep_finish (hp : s.eng.phase = .finish) : engineStep s = finishStep s := by
  simp [engineStep, hp]

end

/-! ### FINISH -/

/-- FINISH without a pending error is the success completion (R74). -/
theorem engineStep_completeOk {s : State} (hp : s.eng.phase = .finish) (hc : s.eng.ecode = 0) :
    engineStep s = .next s.completeOk :=
  (engineStep_finish hp).trans (if_pos hc)

/-- FINISH with an error of R115 pending is the error completion (R75). -/
theorem engineStep_completeError {s : State} (hp : s.eng.phase = .finish) {c : ErrorCode} (hc : s.eng.ecode = c.code) :
    engineStep s = .next s.completeError :=
  (engineStep_finish hp).trans ((if_neg (hc ▸ c.code_ne_zero)).trans (if_pos (hc ▸ c.code_le)))

/-- FINISH with a reserved code is a fault (log 9). -/
theorem engineStep_reservedCode {s : State} (hp : s.eng.phase = .finish) (hc : 6 ≤ s.eng.ecode.toNat) :
    engineStep s = .fault .reservedErrorCode := by
  have hne : s.eng.ecode ≠ 0 := fun h => by simp [h] at hc
  exact (engineStep_finish hp).trans ((if_neg hne).trans (if_neg (by omega)))

/-- irq follows IE after either completion (R31, R74, R75). -/
theorem irq_of_engineStep_finish {s t : State} (hp : s.eng.phase = .finish) (h : engineStep s = .next t) :
    t.irq = s.ie :=
  irq_of_finishStep ((engineStep_finish hp).symm.trans h)

/-- One step of a busy block left alone is its engine's. -/
theorem steps_one_alone {s t : State} (hb : s.status.busy = true) (hi : s.inputs = []) (h : engineStep s = .next t) :
    steps 1 s = .next t :=
  steps_succ 0 ((step_busy_alone hb hi).trans h)

/-! ### Words that are no instruction's -/

/-- A word that no instruction encodes to is illegal (R53). -/
theorem exists_illegal_of_ne_encode {w : Word} (h : ∀ i, w ≠ encode i) : ∃ why, decode w = .illegal why :=
  (exists_decode_eq_illegal_iff w).2 <| by_contra fun hf =>
    have ⟨i, hi⟩ := exists_eq_encode_of_not_illegalFields hf
    h i hi

end Sys2Proof.Machine

open Sys2Proof Sys2Proof.Machine in
/-- Settles O7: a write at CMD's address is `writeCmd`, whose acceptance sets R61's fields for each operation. -/
theorem commandAcceptance : Obligations.CommandAcceptance := by
  refine ⟨fun s w hb => ?_, fun s w hb => ?_, fun s i => ?_⟩
  · refine (hostStep_write_cmd w s).trans ?_
    by_cases hop : (operationOf w).1 = .illegal
    · rw [writeCmd_illegal_op_idle (s := s.respond .writeOkay) hb hop, operationOf_eq_of_illegal hop]
      rfl
    · rw [writeCmd_legal_idle (s := s.respond .writeOkay) hb hop]
      cases hk : (operationOf w).1
      case illegal => exact absurd hk hop
      all_goals rfl
  · exact (hostStep_write_cmd w s).trans (writeCmd_busy (s := s.respond .writeOkay) hb w)
  · exact (hostStep_write_cmd _ s).trans (writeCmd_legal (decode_encode_legal i) _)

open Sys2Proof.Machine in
/-- Settles O37: FINISH is `finishStep`, whose branch E.ecode chooses. -/
theorem finishStepReports : Obligations.FinishStepReports := by
  refine ⟨⟨rfl, rfl, rfl, rfl, rfl⟩, fun s hp => ⟨fun hc => ?_, fun c hc => ?_, engineStep_reservedCode hp⟩⟩
  · have h := engineStep_completeOk hp hc
    exact ⟨_, h, irq_of_engineStep_finish hp h, rfl⟩
  · have h := engineStep_completeError hp hc
    exact ⟨_, h, irq_of_engineStep_finish hp h, rfl⟩

open Sys2Proof Sys2Proof.Machine in
/-- Settles O9: NOP is accepted into FINISH with no error pending. -/
theorem nopCompletes : Obligations.NopCompletes := by
  rintro s ⟨hb, hi⟩
  have hfin : engineStep (s.accept (encode .nop) .nop .encode) = _ := engineStep_completeOk rfl rfl
  have hirq := irq_of_engineStep_finish rfl hfin
  exact ⟨_, _, exec_idle hb .nop, rfl, steps_one_alone rfl hi hfin, rfl, hirq⟩

open Sys2Proof Sys2Proof.Machine in
/-- Settles O10: an illegal word is accepted into FINISH with ILLEGAL_COMMAND pending. -/
theorem illegalWordCompletes : Obligations.IllegalWordCompletes := by
  rintro s w ⟨hb, hi⟩ hw
  obtain ⟨why, hd⟩ := exists_illegal_of_ne_encode hw
  have hfin := engineStep_pendError (s.accept w .illegal .encode) .illegalCommand w
  have hirq := irq_of_engineStep_finish rfl hfin
  exact ⟨_, _, writeCmd_illegal_idle hd hb, rfl, steps_one_alone rfl hi hfin, rfl, hirq⟩
end

section
/-! PROOFS. Validation, check by check (R64 to R68, R70). -/

namespace Sys2Proof.Machine

/-! ### The verdict, check by check (R70) -/

section
variable {s : State} {op : Op} {m : Mode}

theorem State.validate_of_lengthMask (h : s.lengthMask op ≠ 0) :
    s.validate op m = .err .lengthRange ((s.lengthMask op).setWidth 32) := if_pos h

/-- The operations that read the keys are XFORM and CHECK (R65). -/
theorem Op.readsKeys_iff : op.readsKeys = true ↔ op = .xform ∨ op = .check := by
  cases op <;> simp [Op.readsKeys]

theorem Op.ne_norm_of_readsKeys (h : op.readsKeys = true) : op ≠ .norm := by
  rintro rfl
  simp [Op.readsKeys] at h

section
variable (hop : op.readsKeys = true) (hmask : s.lengthMask op = 0)
include hop hmask

/-- An empty shift key fails, in both modes (R66). -/
theorem State.validate_of_skLen_zero (h : s.skLen = 0) : s.validate op m = .err .skEmpty 0 := by
  simp [State.validate, hmask, Op.ne_norm_of_readsKeys hop, h]

/-- Past the shift-key check ASCII mode passes (R66, R70). -/
theorem State.validate_ascii_of_keys (hsk : s.skLen ≠ 0) : s.validate op .ascii = .ok 0 := by
  simp only [State.validate, hmask, Op.ne_norm_of_readsKeys hop, hsk, ne_eq, not_true_eq_false, if_false, if_true]

/-- Past the shift-key check a bad symbol fails MV2 mode (R67). -/
theorem State.validate_mv2_of_bad (hsk : s.skLen ≠ 0) (hbk : s.bkLen ≠ 0) {j : Nat}
    (hbad : s.firstBadSymbol = some j) : s.validate op .mv2 = .err .bkSymbol (BitVec.ofNat 32 j) := by
  simp only [State.validate, hmask, Op.ne_norm_of_readsKeys hop, hsk, hbk, hbad, ne_eq, not_true_eq_false, false_and,
    reduceCtorEq, if_false]

/-- Past the symbol check MV2 mode comes to the partition check (R68). -/
theorem State.validate_mv2_of_good (hsk : s.skLen ≠ 0) (hbk : s.bkLen ≠ 0) (hgood : s.firstBadSymbol = none) :
    s.validate op .mv2 = s.partitionVerdict := by
  simp only [State.validate, hmask, Op.ne_norm_of_readsKeys hop, hsk, hbk, hgood, ne_eq, not_true_eq_false, false_and,
    reduceCtorEq, if_false]

end

end

/-! ### The length check (R65) -/

/-- The mask of a command that reads the keys, as a number: one weight for each length out of range. -/
theorem State.toNat_lengthMask (s : State) {op : Op} (hop : op.readsKeys = true) :
    (s.lengthMask op).toNat =
      (if s.params.bufMax < s.size.toNat then 1 else 0) + (if s.params.skMax < s.skLen.toNat then 2 else 0) +
        (if s.params.bkMax < s.bkLen.toNat then 4 else 0) := by
  simp only [State.lengthMask, hop, Bool.true_and, toNat_append_eq_add, BitVec.toNat_ofBool,
    toNat_bool_eq_ite, decide_eq_true_eq]
  rw [← mul_boole _ 2, ← mul_boole _ 4]
  omega

/-- NORM's mask has the bit of SIZE alone. -/
theorem State.lengthMask_norm_eq (s : State) :
    s.lengthMask .norm = if s.params.bufMax < s.size.toNat then 1 else 0 := by
  by_cases h : s.params.bufMax < s.size.toNat <;> simp [State.lengthMask, Op.readsKeys, h]

/-- NORM passes exactly where SIZE is in range (R65, R70). -/
theorem State.validate_norm_eq (s : State) (m : Mode) :
    s.validate .norm m = if s.params.bufMax < s.size.toNat then .err .lengthRange 1 else .ok 0 := by
  by_cases h : s.params.bufMax < s.size.toNat
  · have hmask := s.lengthMask_norm_eq.trans (if_pos h)
    rw [State.validate_of_lengthMask (by rw [hmask]; decide), hmask, if_pos h]
    rfl
  · rw [if_neg h]
    exact (s.validate_norm_ok m 0).2 ⟨rfl, Nat.le_of_not_lt h⟩

/-! ### The symbol check (R67) -/

/-- A symbol has a length exactly where it is '1' to '4' (R103). -/
theorem blockLength_isSome (sym : Byte) :
    (blockLength sym).isSome = true ↔ 0x31 ≤ sym.toNat ∧ sym.toNat ≤ 0x34 := by
  constructor
  · intro h
    obtain ⟨L, hL⟩ := Option.isSome_iff_exists.1 h
    have := blockLength_some hL
    omega
  · rintro ⟨h1, h2⟩
    rw [blockLength_of_range h1 h2]
    rfl

/-- The lowest index of a bad symbol is the one the check finds. -/
theorem State.firstBadSymbol_eq_some {s : State} {j : Nat} (hj : j < s.bkLen.toNat)
    (hbad : ¬ (0x31 ≤ (s.byte .bkey j).toNat ∧ (s.byte .bkey j).toNat ≤ 0x34))
    (hgood : ∀ i, i < j → 0x31 ≤ (s.byte .bkey i).toNat ∧ (s.byte .bkey i).toNat ≤ 0x34) :
    s.firstBadSymbol = some j := by
  refine List.find?_range_eq_some.2 ⟨?_, List.mem_range.2 hj, fun i hi => ?_⟩
  · simpa using mt (blockLength_isSome _).1 hbad
  · simpa using (blockLength_isSome _).2 (hgood i hi)

/-- No symbol is bad where every one is '1' to '4'. -/
theorem State.firstBadSymbol_eq_none {s : State}
    (hgood : ∀ i, i < s.bkLen.toNat → 0x31 ≤ (s.byte .bkey i).toNat ∧ (s.byte .bkey i).toNat ≤ 0x34) :
    s.firstBadSymbol = none :=
  List.find?_eq_none.2 fun i hi => by
    simpa [Option.isSome_iff_ne_none] using (blockLength_isSome _).2 (hgood i (List.mem_range.1 hi))

/-! ### The partition check (R68) -/

/-- Where every block has a byte, the boundaries rise strictly. -/
theorem State.blockStart_strictMono {s : State} (hpos : ∀ p, 1 ≤ s.blockLengthAt p) : StrictMono s.blockStart :=
  strictMono_nat_of_lt_succ fun p => Nat.lt_add_of_pos_right (hpos p)

/-- The verdict of the partition check is read from the first boundary at or past SIZE. -/
theorem State.partitionVerdict_eq {s : State} (hpos : ∀ p, 1 ≤ s.blockLengthAt p) {q : Nat}
    (hq : s.size.toNat ≤ s.blockStart q) (hmin : ∀ r, r < q → s.blockStart r < s.size.toNat) :
    s.partitionVerdict =
      if s.size.toNat < s.blockStart q then .err .truncatedBlock (BitVec.ofNat 32 (q - 1)) else .ok q := by
  obtain ⟨q', -, -, hw, hq', hmin'⟩ := s.partitionWalk_spec hpos s.size.toNat 0 (Nat.le_add_left _ _)
  obtain rfl : q' = q := by
    rcases Nat.lt_trichotomy q' q with h | h | h
    · exact absurd (hmin q' h) (Nat.not_lt.2 hq')
    · exact h
    · exact absurd (hmin' q (Nat.zero_le _) h) (Nat.not_lt.2 hq)
  have hw : s.partitionWalk s.size.toNat 0 0 = (s.blockStart q', q') := hw
  simp only [State.partitionVerdict, hw]

/-- A buffer that ends where block k starts has k blocks. -/
theorem State.partitionVerdict_of_boundary {s : State} (hpos : ∀ p, 1 ≤ s.blockLengthAt p) {k : Nat}
    (h : s.blockStart k = s.size.toNat) : s.partitionVerdict = .ok k := by
  rw [State.partitionVerdict_eq hpos h.ge fun r hr => h ▸ State.blockStart_strictMono hpos hr,
    if_neg (Nat.not_lt.2 h.le)]

/-- A buffer that ends inside block p is truncated there. -/
theorem State.partitionVerdict_of_inside {s : State} (hpos : ∀ p, 1 ≤ s.blockLengthAt p) {p : Nat}
    (h1 : s.blockStart p < s.size.toNat) (h2 : s.size.toNat < s.blockStart (p + 1)) :
    s.partitionVerdict = .err .truncatedBlock (BitVec.ofNat 32 p) := by
  have hmin : ∀ r, r < p + 1 → s.blockStart r < s.size.toNat := fun r hr =>
    Nat.lt_of_le_of_lt (s.blockStart_mono (Nat.le_of_lt_succ hr)) h1
  rw [State.partitionVerdict_eq hpos h2.le hmin, if_pos h2, Nat.add_sub_cancel]

/-- A block starts no earlier than its index: every block before it has a byte. -/
theorem State.le_blockStart {s : State} (hpos : ∀ p, 1 ≤ s.blockLengthAt p) (p : Nat) : p ≤ s.blockStart p :=
  (State.blockStart_strictMono hpos).le_apply

/-- Every buffer ends on a boundary or inside a block. -/
theorem State.boundary_or_inside {s : State} (hpos : ∀ p, 1 ≤ s.blockLengthAt p) :
    (∃ k, s.blockStart k = s.size.toNat) ∨
      ∃ p, s.blockStart p < s.size.toNat ∧ s.size.toNat < s.blockStart (p + 1) := by
  obtain ⟨q, -, -, -, hq, hmin⟩ := s.partitionWalk_spec hpos s.size.toNat 0 (Nat.le_add_left _ _)
  rcases Nat.eq_or_lt_of_le hq with h | h
  · exact .inl ⟨q, h.symm⟩
  · cases q with
    | zero => exact absurd h (Nat.not_lt_zero _)
    | succ p => exact .inr ⟨p, hmin p (Nat.zero_le _) p.lt_succ_self, h⟩

/-! ### The VALIDATE step (R64) -/

/-- A failing validation leaves its error pending. -/
theorem validateStep_of_err {s : State} {c : ErrorCode} {info : Word}
    (h : s.validate s.eng.op s.eng.mode = .err c info) : validateStep s = s.pendError c info := by
  simp [validateStep, h]

/-- A passing validation of an operation that is validated starts its run. -/
theorem validateStep_of_ok {s : State} {k : Nat} {ph : Phase} (h : s.validate s.eng.op s.eng.mode = .ok k)
    (hph : s.phaseValidated k = some ph) :
    validateStep s = { s with eng := { s.eng with nblk := BitVec.ofNat 32 k, phase := ph } } := by
  simp [validateStep, h, hph]

/-- The phase R64 lists for each operation that is validated. -/
theorem State.phaseValidated_eq {s : State} (hop : s.eng.op = .norm ∨ s.eng.op.readsKeys = true) (k : Nat) :
    s.phaseValidated k = some
      (if s.eng.op = .check then .finish
       else if s.eng.op = .norm then (if s.size = 0 then .finish else .normRun)
       else if s.eng.mode = .ascii then (if s.size = 0 then .finish else .alphaRun)
       else (if k = 0 then .finish else .mv2Run)) := by
  unfold State.phaseValidated
  cases ho : s.eng.op
  case nop => simp [ho, Op.readsKeys] at hop
  case illegal => simp [ho, Op.readsKeys] at hop
  case xform => cases s.eng.mode <;> rfl
  all_goals rfl

end Sys2Proof.Machine

open Sys2Proof.Machine in
/-- Settles O18: the mask as a number where it is not 0, and NORM's mask, which is SIZE's bit. -/
theorem lengthRangeCheck : Obligations.LengthRangeCheck := by
  refine ⟨fun s op m hop hbad => ?_, State.validate_norm_eq⟩
  have hkeys := Op.readsKeys_iff.2 hop
  have hmask : s.lengthMask op ≠ 0 := fun h => by
    have := (s.lengthMask_eq_zero hkeys).1 h
    omega
  refine ⟨_, State.validate_of_lengthMask hmask, ?_⟩
  rw [BitVec.toNat_setWidth_of_le (by decide), s.toNat_lengthMask hkeys]

open Sys2Proof.Machine in
/-- Settles O19: the branch after the length check, and NORM's verdict, which is read from SIZE. -/
theorem shiftKeyCheck : Obligations.ShiftKeyCheck := by
  refine ⟨fun s op m hop hsize hsk hbk => ?_, fun s m hsize => (s.validate_norm_ok m 0).2 ⟨rfl, hsize⟩⟩
  have hkeys := Op.readsKeys_iff.2 hop
  have hmask := (s.lengthMask_eq_zero hkeys).2 ⟨hsize, hsk, hbk⟩
  exact ⟨State.validate_of_skLen_zero hkeys hmask, State.validate_ascii_of_keys hkeys hmask⟩

open Sys2Proof.Machine in
/-- Settles O20: the first bad symbol is the lowest, and its index fits a word. -/
theorem blockSymbolCheck : Obligations.BlockSymbolCheck := by
  intro s op hop hsize hsk hbk hne
  have hkeys := Op.readsKeys_iff.2 hop
  have hmask := (s.lengthMask_eq_zero hkeys).2 ⟨hsize, hsk, hbk⟩
  refine ⟨fun j hj hbad hgood => ⟨BitVec.ofNat 32 j, ?_, ?_⟩, State.validate_ascii_of_keys hkeys hmask hne⟩
  · exact State.validate_mv2_of_bad hkeys hmask hne (word_ne_zero.2 (by omega))
      (State.firstBadSymbol_eq_some hj hbad hgood)
  · exact Nat.mod_eq_of_lt (Nat.lt_trans hj s.bkLen.isLt)

open Sys2Proof.Machine in
/-- Settles O21: past the symbol check every block has a byte, so the walk ends at the first boundary at or past
SIZE. -/
theorem partitionCheck : Obligations.PartitionCheck := by
  intro s op hop hsize hsk hbk hne hbk0 hgood
  have hkeys := Op.readsKeys_iff.2 hop
  have hmask := (s.lengthMask_eq_zero hkeys).2 ⟨hsize, hsk, hbk⟩
  have hnone := State.firstBadSymbol_eq_none hgood
  have hpos := fun p => (s.blockLengthAt_spec hnone hbk0 p).2.1
  rw [State.validate_mv2_of_good hkeys hmask hne hbk0 hnone]
  refine ⟨fun k hk => State.partitionVerdict_of_boundary hpos hk, fun p h1 h2 => ?_, State.boundary_or_inside hpos⟩
  refine ⟨_, State.partitionVerdict_of_inside hpos h1 h2, Nat.mod_eq_of_lt ?_⟩
  exact Nat.lt_trans (Nat.lt_of_le_of_lt (State.le_blockStart hpos p) h1) s.size.isLt

open Sys2Proof.Machine in
/-- Settles O22: a consistent engine validates NORM, XFORM or CHECK, so the verdict is an error or a count, and the
phase is R64's. -/
theorem validateStepRunsValidation : Obligations.ValidateStepRunsValidation := by
  intro s hs hb hp
  obtain ⟨hkind, -⟩ := (hs.engine_ok hb).at_validate hp
  obtain ⟨-, hkeys, -⟩ := hs.engine_ok hb
  have hstep := engineStep_validate hp
  refine ⟨fun c info hv => ?_, fun k hv => ?_, s.validate_ne_noMeaning (hkind.imp id fun h => (hkeys h).1)⟩
  · rw [hstep, validateStep_of_err hv]
    rfl
  · rw [hstep, validateStep_of_ok hv (State.phaseValidated_eq hkind k)]
end

section
/-! PROOFS. BUSY changes at acceptance, at FINISH and at reset alone (R22, R62, R63). -/

namespace Sys2Proof.Machine

/-- A move of the engine and the mark leave STATUS as it is. -/
theorem status_of_moves {s t : State} (h : t = s.markRefused ∨ s.EngineMove t) : t.status = s.status := by
  rcases h with rfl | ⟨⟨b, e, rfl⟩, -⟩ <;> rfl

/-- No engine step before FINISH changes STATUS (R64, R93, R100, R111). -/
theorem status_of_engineStep {s t : State} (hp : s.eng.phase ≠ .finish) (h : engineStep s = .next t) :
    t.status = s.status := by
  rcases engineStep_cases h with ⟨-, rfl⟩ | ⟨-, rfl⟩ | ⟨-, rfl⟩ | ⟨-, rfl⟩ | ⟨-, rfl⟩ | ⟨hfin, -⟩
  · rfl
  · exact status_of_moves (validateStep_moves s)
  · exact status_of_moves (normStep_moves s)
  · exact status_of_moves (alphaStep_moves s)
  · exact status_of_moves (blockStep_moves s)
  · exact absurd hfin hp

/-- No host transaction clears BUSY (R17, R22). -/
theorem busy_of_hostStep {s t : State} {x : HostTxn} (hb : s.status.busy = true) (h : hostStep x s = .next t) :
    t.status.busy = true := by
  cases x with
  | read a =>
    cases h
    obtain ⟨r, n, e, -⟩ := hostRead_cases a s
    rwa [e]
  | write a d => obtain ⟨r, ⟨rfl, -⟩ | ⟨rfl, -⟩ | rfl | rfl⟩ := hostWrite_busy hb h <;> exact hb

/-- The one host transaction that sets BUSY is a write to CMD (R61). -/
theorem write_cmd_of_hostStep {s t : State} {x : HostTxn} (hb : s.status.busy = false) (h : hostStep x s = .next t)
    (hb' : t.status.busy = true) : ∃ w, x = .write (regAddress .cmd) w := by
  have hkept : t.status.busy ≠ s.status.busy := by rw [hb, hb']; decide
  cases x with
  | read a =>
    cases h
    obtain ⟨r, n, e, -⟩ := hostRead_cases a s
    rw [e] at hkept
    exact absurd rfl hkept
  | write a d =>
    obtain ⟨r, ⟨hcmd, -⟩ | rfl | ⟨rfl, -⟩ | rfl | rfl | rfl | rfl | ⟨sp, i, -, rfl⟩⟩ := hostWrite_idle hb h
    case inl => exact ⟨d, by rw [decodeAddress_reg hcmd]⟩
    case inr.inr.inr.inr.inr.inr.inr => exact absurd (congrArg _ (State.setMem_status ..)) hkept
    all_goals exact absurd rfl hkept

end Sys2Proof.Machine

open Sys2Proof.Machine in
/-- Settles O49, by the kind of the step: an engine step before FINISH keeps STATUS, and a host transaction sets BUSY at
CMD alone and never clears it. -/
theorem busyChangesOnlyAtAcceptanceAndFinish : Obligations.BusyChangesOnlyAtAcceptanceAndFinish := by
  intro s t h
  rcases step_cases h with ⟨hb, hi, he⟩ | ⟨hb, -, rfl⟩ | ⟨x, es, hi, hh⟩ | ⟨es, hi, rfl⟩
  · refine ⟨fun hidle => (nomatch hb.symm.trans hidle), fun _ hb' => Or.inr ⟨?_, hi⟩⟩
    by_contra hp
    rw [status_of_engineStep (s := s.withInputs s.inputs.tail) hp he] at hb'
    exact nomatch hb.symm.trans hb'
  · exact ⟨fun _ hb' => (nomatch hb.symm.trans hb'), fun hb' => nomatch hb.symm.trans hb'⟩
  · refine ⟨fun hb hb' => ?_, fun hb hb' => nomatch (busy_of_hostStep (s := s.withInputs es) hb hh).symm.trans hb'⟩
    obtain ⟨w, rfl⟩ := write_cmd_of_hostStep (s := s.withInputs es) hb hh hb'
    exact ⟨w, es, hi⟩
  · exact ⟨fun _ hb' => absurd hb' Bool.false_ne_true, fun _ _ => .inl ⟨es, hi⟩⟩
end

section
/-! PROOFS. Commands that end after VALIDATE: a failed validation, and CHECK (R64, R74 to R76, R120). -/

namespace Sys2Proof.Machine

/-! ### Acceptance by an idle block, and the VALIDATE step after it -/

/-- The state after a passing VALIDATE step: the engine holds the count of blocks and is in the phase that comes next
(R64). -/
def State.validated (s : State) (k : Nat) (ph : Phase) : State :=
  s.moveEngine s.buf { s.eng with nblk := BitVec.ofNat 32 k, phase := ph }

/-- XFORM of a direction is accepted as that direction's transform (R54, R61). -/
theorem exec_xformOf_idle {s : State} (hb : s.status.busy = false) (d : Dir) :
    exec (xformOf d) s = .next (s.accept (encode (xformOf d)) .xform d) := by
  cases d <;> exact exec_idle hb _

section
variable {s : State} {w : Word} {op : Op} {d : Dir}

@[simp] theorem State.validate_accept (op' : Op) (m : Mode) : (s.accept w op d).validate op' m = s.validate op' m :=
  State.validate_congr (s.sameOperands_accept w op d) op' m

@[simp] theorem State.blockStart_accept (p : Nat) : (s.accept w op d).blockStart p = s.blockStart p :=
  State.blockStart_congr (s := s) (t := s.accept w op d) rfl rfl p

section
variable (hi : s.inputs = []) (hstart : startPhase op = .validate)
include hi hstart

/-- A command that is validated takes the VALIDATE step first (R61, R63). -/
theorem step_accept : step (s.accept w op d) = .next (validateStep (s.accept w op d)) :=
  (step_busy_alone (s := s.accept w op d) rfl hi).trans (engineStep_validate (s := s.accept w op d) hstart)

/-- A command whose validation fails ends after two steps with the error (R64, R75). -/
theorem steps_accept_of_err {c : ErrorCode} {info : Word}
    (hv : s.validate op (s.latchMode op s.eng.mode) = .err c info) :
    steps 2 (s.accept w op d) = .next ((s.accept w op d).pendError c info).completeError := by
  have hstep := (step_accept (w := w) (d := d) hi hstart).trans
    (congrArg _ (validateStep_of_err ((State.validate_accept ..).trans hv)))
  exact (steps_succ 1 hstep).trans (steps_one_pendError (s := s.accept w op d) rfl hi c info)

/-- A command whose validation passes with k blocks goes on in the phase R64 lists. -/
theorem step_accept_of_ok {k : Nat} {ph : Phase} (hv : s.validate op (s.latchMode op s.eng.mode) = .ok k)
    (hph : (s.accept w op d).phaseValidated k = some ph) :
    step (s.accept w op d) = .next ((s.accept w op d).validated k ph) :=
  (step_accept hi hstart).trans (congrArg _ (validateStep_of_ok ((State.validate_accept ..).trans hv) hph))

end

/-! ### What a command leaves alone -/

/-- A completion after any move of the engine leaves the rest of the state alone (R38, R50). -/
theorem State.untouched_completeOk (b : Memory) (e : Engine) :
    s.Untouched ((s.accept w op d).moveEngine b e).completeOk :=
  ⟨rfl, rfl, rfl, rfl, rfl, rfl, rfl, rfl, rfl, rfl, rfl, rfl⟩

/-- An error completion leaves the rest of the state alone (R120). -/
theorem State.untouched_completeError (c : ErrorCode) (info : Word) :
    s.Untouched ((s.accept w op d).pendError c info).completeError :=
  ⟨rfl, rfl, rfl, rfl, rfl, rfl, rfl, rfl, rfl, rfl, rfl, rfl⟩

end

/-! ### The block count (R64, R74) -/

theorem State.derivedMode_of_zero {s : State} (h : s.bkLen = 0) : s.derivedMode = .ascii := if_pos h

theorem State.derivedMode_of_ne_zero {s : State} (h : s.bkLen ≠ 0) : s.derivedMode = .mv2 := if_neg h

/-- The count of a passing validation that reads the keys fits a word and is 0 in ASCII mode. -/
theorem State.count_of_validate {s : State} {op : Op} {k : Nat} (hop : op.readsKeys = true)
    (hv : s.validate op s.derivedMode = .ok k) :
    (BitVec.ofNat 32 k).toNat = k ∧ (s.derivedMode = .ascii → k = 0) := by
  have hmv2 : s.derivedMode = .mv2 → s.bkLen ≠ 0 := fun hm h0 => (nomatch hm.symm.trans (s.derivedMode_of_zero h0))
  have hlt := s.validate_ok_lt (.inr hop) hmv2 hv
  refine ⟨Nat.mod_eq_of_lt hlt, fun hm => ?_⟩
  rw [hm] at hv
  exact ((s.validate_ascii_ok hop k).1 hv).1

/-- A success completion of a command that reads the keys reports the engine's count (R74). -/
theorem State.completeOk_nblk_of_keys {s : State} (hop : s.eng.op = .xform ∨ s.eng.op = .check)
    (hascii : s.eng.mode = .ascii → s.eng.nblk = 0) : s.completeOk.nblk = s.eng.nblk := by
  rw [State.completeOk_nblk]
  cases hm : s.eng.mode with
  | ascii => rw [hascii hm, ite_self]
  | mv2 => exact if_pos ⟨hop, rfl⟩

/-! ### The commands that are validated -/

/-- The mode a validated command runs in (R29, R30, R61). -/
def State.commandMode (s : State) (i : Instr) : Mode := if i = .norm then .ascii else s.derivedMode

/-- Every command but NOP is validated, in the mode acceptance latches. -/
theorem startPhase_latchMode_of_ne_nop {i : Instr} (hi : i ≠ .nop) (s : State) :
    startPhase (operationOf (encode i)).1 = .validate ∧
      ∀ old, s.latchMode (operationOf (encode i)).1 old = s.commandMode i := by
  cases i
  case nop => exact absurd rfl hi
  all_goals exact ⟨rfl, fun _ => rfl⟩

end Sys2Proof.Machine

open Sys2Proof Sys2Proof.Machine in
/-- Settles O15: VALIDATE leaves the error pending and FINISH reports it; neither writes a memory. -/
theorem failedValidationLeavesMemoriesUnchanged : Obligations.FailedValidationLeavesMemoriesUnchanged := by
  rintro s i c info ⟨hb, hin⟩ hfail
  obtain ⟨hne, hv⟩ : i ≠ .nop ∧ s.validate (operationOf (encode i)).1 (s.commandMode i) = .err c info := by
    rcases hfail with ⟨rfl | rfl | rfl, hv⟩ | ⟨rfl, hv⟩
    · exact ⟨by decide, hv⟩
    · exact ⟨by decide, hv⟩
    · exact ⟨by decide, (s.validate_check _).trans hv⟩
    · exact ⟨by decide, hv⟩
  obtain ⟨hstart, hmode⟩ := startPhase_latchMode_of_ne_nop hne s
  refine ⟨_, _, exec_idle hb i, rfl, steps_accept_of_err hin hstart ((hmode _).symm ▸ hv), ?_, rfl, rfl,
    State.untouched_completeError c info, rfl, rfl, ?_⟩
  · exact congrArg (fun m => Status.mk false false true m c.code s.status.haz) (hmode s.status.mode)
  · exact irq_of_finishStep (s := (s.accept _ _ _).pendError c info) (engineStep_pendError _ c info)

open Sys2Proof Sys2Proof.Machine in
/-- Settles O14: VALIDATE goes straight to FINISH with the count, which FINISH reports in MV2 mode; in ASCII mode it
is 0. -/
theorem checkCompletes : Obligations.CheckCompletes := by
  rintro s k ⟨hb, hin⟩ hv
  obtain ⟨hcount, hascii⟩ := State.count_of_validate rfl hv
  have hvalidate := step_accept_of_ok (w := encode .check) (d := .encode) (ph := .finish) hin rfl hv rfl
  have hsteps := (steps_succ 1 hvalidate).trans (steps_one_alone rfl hin (engineStep_completeOk rfl rfl))
  have hzero : s.derivedMode = .ascii → BitVec.ofNat 32 k = 0 := fun hm => by rw [hascii hm]; rfl
  have hnblk := State.completeOk_nblk_of_keys
    (s := (s.accept (encode .check) .check .encode).validated k .finish) (.inr rfl) hzero
  refine ⟨_, _, exec_idle hb .check, rfl, hsteps, rfl, (congrArg BitVec.toNat hnblk).trans hcount,
    fun h0 => hnblk.trans (hzero (s.derivedMode_of_zero h0)), rfl, State.untouched_completeOk .., rfl, ?_⟩
  rw [hnblk]
  rfl
end

section
/-! PROOFS. The byte runs: NORM, and XFORM in ASCII mode, from acceptance to completion (R73, R93, R99 to R101). -/

namespace Sys2Proof.Machine

/-! ### Runs -/

/-- What each step of a run carries from its number to the next holds of the run's end. -/
theorem steps_of_run {P : Nat → State → Prop} {N : Nat} {s : State}
    (hstep : ∀ j t, j < N → P j t → ∃ u, step t = .next u ∧ P (j + 1) u) (h0 : P 0 s) {n : Nat} (hn : n ≤ N) :
    ∃ u, steps n s = .next u ∧ P n u := by
  induction n with
  | zero => exact ⟨s, rfl, h0⟩
  | succ n ih =>
    obtain ⟨t, ht, hP⟩ := ih (Nat.le_of_succ_le hn)
    obtain ⟨u, hu, hP'⟩ := hstep n t hn hP
    exact ⟨u, (steps_add n 1 ht).trans (steps_succ 0 hu), hP'⟩

/-- A command's steps: VALIDATE, the run, FINISH (R79). -/
theorem steps_command {s t u v : State} {N : Nat} (hval : step s = .next t) (hrun : steps N t = .next u)
    (hfin : steps 1 u = .next v) : steps (2 + N) s = .next v := by
  rw [show 2 + N = N + 1 + 1 by omega, steps_succ _ hval, steps_add N 1 hrun, hfin]

/-! ### A run over the bytes of the buffer -/

/-- A step of a byte run: `v` is stored at the cursor, the key pointer becomes `kp`, and the cursor moves on (R93,
R100). -/
def State.byteStep (t : State) (v : Byte) (kp : Word) : State :=
  { t with
    buf := t.buf.write t.eng.n.toNat v
    eng := { t.eng with kp := kp, n := t.eng.n + 1, phase := t.phaseAfter (t.eng.n + 1) } }

/-- The NORM step with its byte in reach (R93). -/
theorem normStep_eq_byteStep {t : State} (hn : t.eng.n.toNat < t.size.toNat) (hsize : t.size.toNat ≤ t.params.bufMax) :
    normStep t = t.byteStep (normalize (t.byte .buf t.eng.n.toNat)) t.eng.kp := by
  obtain ⟨-, -, e⟩ := (normStep_cases t).resolve_right fun h => h.1 ⟨hn, hsize⟩
  exact e

/-- The ALPHA step with its byte and its key symbol in reach (R100). -/
theorem alphaStep_eq_byteStep {t : State} (hn : t.eng.n.toNat < t.size.toNat) (hsize : t.size.toNat ≤ t.params.bufMax)
    (hkp : t.eng.kp.toNat < t.skLen.toNat) (hsk : t.skLen.toNat ≤ t.params.skMax) :
    alphaStep t = t.byteStep
      (alphaByte (normalize (t.byte .buf t.eng.n.toNat)) (t.byte .skey t.eng.kp.toNat) t.eng.dir)
      (wrapInc t.eng.kp t.skLen) := by
  obtain ⟨-, -, -, -, e⟩ := (alphaStep_cases t).resolve_right fun h => h.1 ⟨hn, hsize, hkp, hsk⟩
  exact e

/-- The working registers after j bytes of a run: the cursor at j, the key pointer where the run leaves it, and the
phase FINISH once the cursor is at SIZE (R93, R100). -/
def State.byteRunEngine (s : State) (run : Phase) (kp : Nat → Word) (j : Nat) : Engine :=
  { s.eng with
    n := BitVec.ofNat 32 j, kp := kp j, phase := if BitVec.ofNat 32 j = s.size then .finish else run }

/-- `t` has run over j bytes from `s`: each now holds what `f` gives for its offset, and no other byte has changed. -/
def State.ByteRun (s : State) (run : Phase) (kp : Nat → Word) (f : Nat → Byte) (j : Nat) (t : State) : Prop :=
  ∃ b, t = s.moveEngine b (s.byteRunEngine run kp j) ∧
    ∀ a, Memory.read .buf b a = if a < j then f a else s.byte .buf a

section
variable {s t : State} {run : Phase} {kp : Nat → Word} {f : Nat → Byte} {j : Nat}

theorem State.byteRunEngine_succ : s.byteRunEngine run kp (j + 1) =
    { s.byteRunEngine run kp j with
      n := BitVec.ofNat 32 j + 1, kp := kp (j + 1)
      phase := if BitVec.ofNat 32 j + 1 = s.size then .finish else run } := by
  rw [State.byteRunEngine, State.byteRunEngine, BitVec.ofNat_add]
  rfl

theorem toNat_ofNat_of_lt_size (hj : j < s.size.toNat) : (BitVec.ofNat 32 j).toNat = j :=
  Nat.mod_eq_of_lt (Nat.lt_trans hj s.size.isLt)

/-- Before SIZE the run is in its phase, with its cursor at j on a byte that has not changed. -/
theorem State.ByteRun.at_cursor (h : s.ByteRun run kp f j t) (hj : j < s.size.toNat) :
    t.eng.phase = run ∧ t.eng.n.toNat = j ∧ t.eng.kp = kp j ∧ t.byte .buf j = s.byte .buf j := by
  obtain ⟨b, rfl, hb⟩ := h
  have hn := toNat_ofNat_of_lt_size hj
  have hne : BitVec.ofNat 32 j ≠ s.size := fun he => by
    rw [he] at hn
    omega
  exact ⟨if_neg hne, hn, rfl, (hb j).trans (if_neg (Nat.lt_irrefl j))⟩

/-- A byte step at the cursor that stores `f`'s value is one byte more of the run. -/
theorem State.ByteRun.succ (h : s.ByteRun run kp f j t) (hj : j < s.size.toNat) :
    s.ByteRun run kp f (j + 1) (t.byteStep (f j) (kp (j + 1))) := by
  obtain ⟨hphase, hn, -, -⟩ := h.at_cursor hj
  obtain ⟨b, rfl, hb⟩ := h
  refine ⟨b.write j (f j), ?_, fun a => ?_⟩
  · rw [State.byteStep, hn, State.phaseAfter, hphase, State.byteRunEngine_succ]
    rfl
  · rw [Memory.read_write, hb]
    rcases Nat.lt_trichotomy a j with ha | rfl | ha
    · rw [if_neg (Nat.ne_of_lt ha), if_pos ha, if_pos (Nat.lt_succ_of_lt ha)]
    · rw [if_pos rfl, if_pos (Nat.lt_succ_self a)]
    · rw [if_neg (Nat.ne_of_gt ha), if_neg (by omega), if_neg (by omega)]

/-- A run keeps the block busy with nothing scheduled. -/
theorem State.ByteRun.step_eq (h : s.ByteRun run kp f j t) (hb : s.status.busy = true) (hi : s.inputs = []) :
    step t = engineStep t := by
  obtain ⟨b, rfl, -⟩ := h
  exact step_busy_alone hb hi

end

/-- The state after a run over every byte: the cursor at SIZE, the key pointer `kp`, and FINISH next (R93, R100). -/
def State.afterBytes (s : State) (b : Memory) (kp : Word) : State :=
  s.moveEngine b { s.eng with n := s.size, kp := kp, phase := .finish }

/-- A whole byte run from acceptance: two steps and one a byte, to a completion that leaves `f`'s bytes below SIZE and
the others as they were. -/
theorem steps_byteCommand {s : State} {w : Word} {op : Op} {d : Dir} {run : Phase} {kp : Nat → Word} {f : Nat → Byte}
    (hi : s.inputs = []) (hstart : startPhase op = .validate) (hv : s.validate op (s.latchMode op s.eng.mode) = .ok 0)
    (hph : (s.accept w op d).phaseValidated 0 = some (if s.size = 0 then .finish else run)) (hkp : kp 0 = 0)
    (hstep : ∀ j t, j < s.size.toNat → (s.accept w op d).ByteRun run kp f j t →
      engineStep t = .next (t.byteStep (f j) (kp (j + 1)))) :
    ∃ b, steps (2 + s.size.toNat) (s.accept w op d) =
        .next ((s.accept w op d).afterBytes b (kp s.size.toNat)).completeOk ∧
      ∀ a, Memory.read .buf b a = if a < s.size.toNat then f a else s.byte .buf a := by
  have hzero : (s.accept w op d).ByteRun run kp f 0
      ((s.accept w op d).validated 0 (if s.size = 0 then .finish else run)) := by
    refine ⟨s.buf, ?_, fun a => rfl⟩
    rw [State.byteRunEngine, hkp, State.accept_size, if_congr eq_comm rfl rfl]
    rfl
  obtain ⟨u, hu, b, rfl, hb⟩ := steps_of_run (N := s.size.toNat) (fun j t hj ht =>
    ⟨_, (ht.step_eq rfl hi).trans (hstep j t hj ht), ht.succ hj⟩) hzero (Nat.le_refl _)
  have hend : (s.accept w op d).moveEngine b ((s.accept w op d).byteRunEngine run kp s.size.toNat) =
      (s.accept w op d).afterBytes b (kp s.size.toNat) := by
    rw [State.byteRunEngine, BitVec.ofNat_toNat, BitVec.setWidth_eq, State.accept_size, if_pos rfl]
    rfl
  rw [hend] at hu
  exact ⟨b, steps_command (step_accept_of_ok hi hstart hv hph) hu
    (steps_one_alone rfl hi (engineStep_completeOk rfl rfl)), hb⟩

/-- After a passing validation XFORM in ASCII mode runs over the bytes, if there are any (R64). -/
theorem State.phaseValidated_ascii {s : State} (hop : s.eng.op = .xform) (hm : s.eng.mode = .ascii) (k : Nat) :
    s.phaseValidated k = some (if s.size = 0 then .finish else .alphaRun) := by
  simp only [State.phaseValidated, hop, hm]

/-! ### The key symbol of a position and the adder's value -/

/-- A wrap counter advanced k times from 0 counts modulo its length (R82). -/
theorem toNat_wrapIter {len : Word} (hl : 0 < len.toNat) (k : Nat) : (wrapIter len k 0).toNat = k % len.toNat := by
  induction k with
  | zero => rfl
  | succ k ih => exact wrapInc_mod hl ih

/-- The adder's value as an integer: the sum fits a byte (R96). -/
theorem intCast_toNat_cyc (c : Byte) (s : Int) (d : Dir) :
    ((cyc c s d).toNat : Int) = 65 + ((c.toNat : Int) - 65 + d.sgn * s) % 26 := by
  rw [cyc, BitVec.toNat_ofNat]
  omega

end Sys2Proof.Machine

open Sys2Proof Sys2Proof.Machine in
/-- Settles O11: a byte run whose every step normalizes the byte at the cursor. -/
theorem normCompletes : Obligations.NormCompletes := by
  rintro s ⟨hb, hi⟩ hsize
  have hv : s.validate .norm .ascii = .ok 0 := (s.validate_norm_ok _ 0).2 ⟨rfl, hsize⟩
  obtain ⟨b, hsteps, hbytes⟩ := steps_byteCommand (w := encode .norm) (d := .encode) (run := .normRun)
    (kp := fun _ => 0) (f := fun a => normalize (s.byte .buf a)) hi rfl hv rfl rfl fun j t hj ht => by
      obtain ⟨hphase, hn, hkp, (hbyte : t.byte .buf j = s.byte .buf j)⟩ := ht.at_cursor hj
      obtain ⟨b, rfl, -⟩ := ht
      rw [engineStep_normRun hphase, normStep_eq_byteStep (hn.trans_lt hj) hsize, hn, hbyte, hkp]
  exact ⟨_, _, exec_idle hb .norm, rfl, hsteps, rfl, rfl, rfl, State.untouched_completeOk .., rfl, hbytes⟩

open Sys2Proof Sys2Proof.Machine in
/-- Settles O12: a byte run whose every step normalizes and shifts the byte at the cursor by the symbol at the wrap
counter, which counts modulo SK_LEN. -/
theorem asciiTransformCompletes : Obligations.AsciiTransformCompletes := by
  rintro s d ⟨hb, hi⟩ h0 hsize hpos hsk
  have hmode := State.derivedMode_of_zero h0
  have hv : s.validate .xform s.derivedMode = .ok 0 := by
    rw [hmode]
    exact (s.validate_ascii_ok rfl 0).2 ⟨rfl, hsize, hsk, by simp [h0], hpos⟩
  have hph : (s.accept (encode (xformOf d)) .xform d).phaseValidated 0 =
      some (if s.size = 0 then .finish else .alphaRun) := State.phaseValidated_ascii rfl hmode 0
  obtain ⟨b, hsteps, hbytes⟩ := steps_byteCommand (w := encode (xformOf d)) (d := d) (run := .alphaRun)
    (kp := fun j => wrapIter s.skLen j 0)
    (f := fun a => alphaByte (normalize (s.byte .buf a)) (s.byte .skey (a % s.skLen.toNat)) d)
    hi rfl hv hph rfl fun j t hj ht => by
      obtain ⟨hphase, hn, hkp, (hbyte : t.byte .buf j = s.byte .buf j)⟩ := ht.at_cursor hj
      have hkp' : t.eng.kp.toNat = j % s.skLen.toNat := hkp ▸ toNat_wrapIter hpos j
      have hlt : t.eng.kp.toNat < s.skLen.toNat := hkp' ▸ Nat.mod_lt j hpos
      obtain ⟨b, rfl, -⟩ := ht
      rw [engineStep_alphaRun hphase, alphaStep_eq_byteStep (hn.trans_lt hj) hsize hlt hsk, hn, hbyte, hkp', hkp]
      rfl
  refine ⟨_, _, exec_xformOf_idle hb d, rfl, hsteps, ?_, ?_, rfl, State.untouched_completeOk .., ?_,
    toNat_wrapIter hpos _, fun a ha => ?_, fun a ha => ⟨fun hc => ?_, fun hc => ?_⟩⟩
  · exact congrArg (fun m => Status.mk false true false m 0 s.status.haz) hmode
  · exact State.completeOk_nblk_of_keys (.inl rfl) fun _ => rfl
  · exact congrArg (fun m => Engine.mk .idle _ .xform d m s.size 0 _ 0 0 0 0) hmode
  · exact (hbytes a).trans (if_neg (Nat.not_lt.2 ha))
  · exact (hbytes a).trans ((if_pos ha).trans (if_pos hc))
  · have hbyte := (hbytes a).trans ((if_pos ha).trans (if_neg hc))
    exact (congrArg (fun x : Byte => (x.toNat : Int)) hbyte).trans (intCast_toNat_cyc _ _ d)
end

section
/-! PROOFS. The block run: XFORM in MV2 mode from acceptance to completion (R72, R105 to R112). -/

namespace Sys2Proof.Machine

/-! ### The adder's value (R107) -/

/-- The adder's value as an integer: the sum modulo the block's modulus. -/
theorem intCast_blockAdd (L : Nat) (d : Dir) (i : Nat) (shift : Word) :
    (blockAdd L d i shift : Int) = ((i : Int) + d.sgn * (shift.toNat : Int)) % 2 ^ (8 * L) := by
  have hpos : ((2 : Int) ^ (8 * L)) ≠ 0 := pow_ne_zero _ (by decide)
  rw [blockAdd, blockModulus, Nat.cast_pow, Nat.cast_ofNat, Int.toNat_of_nonneg (Int.emod_nonneg _ hpos)]

/-- The adder's value fits the block's L bytes. -/
theorem blockAdd_lt (L : Nat) (d : Dir) (i : Nat) (shift : Word) : blockAdd L d i shift < 256 ^ L := by
  have hpos : (0 : Int) < 2 ^ (8 * L) := pow_pos (by decide) _
  have hlt := Int.emod_lt_of_pos ((i : Int) + d.sgn * (shift.toNat : Int)) hpos
  rw [← intCast_blockAdd] at hlt
  rw [show (256 : Nat) = 2 ^ 8 from rfl, ← pow_mul]
  exact_mod_cast hlt

/-! ### The buffer after some blocks -/

/-- `b` is the buffer of `s` with the first j blocks of the schedule shifted, and nothing else changed (R107, R112). -/
structure State.Shifted (s : State) (j : Nat) (b : Memory) : Prop where
  done : ∀ p, p < j → Memory.readBE .buf b (s.blockStart p) (s.blockLengthAt p) =
    blockAdd (s.blockLengthAt p) s.eng.dir (Memory.readBE .buf s.buf (s.blockStart p) (s.blockLengthAt p))
      (s.shiftWordAt p)
  rest : ∀ a, s.blockStart j ≤ a → Memory.read .buf b a = s.byte .buf a

theorem State.shifted_zero (s : State) : s.Shifted 0 s.buf := ⟨fun p hp => absurd hp p.not_lt_zero, fun _ _ => rfl⟩

/-- Writing block j shifted leaves the blocks before it and the bytes after it alone. -/
theorem State.Shifted.succ {s : State} {j : Nat} {b : Memory} (h : s.Shifted j b) :
    s.Shifted (j + 1) (b.writeBE (s.blockStart j) (s.blockLengthAt j)
      (blockAdd (s.blockLengthAt j) s.eng.dir (Memory.readBE .buf b (s.blockStart j) (s.blockLengthAt j))
        (s.shiftWordAt j))) := by
  have hsucc (p : Nat) : s.blockStart (p + 1) = s.blockStart p + s.blockLengthAt p := rfl
  refine ⟨fun p hp => ?_, fun a ha => ?_⟩
  · rcases Nat.lt_succ_iff_lt_or_eq.1 hp with hp | rfl
    · have hend := s.blockStart_mono (Nat.succ_le_of_lt hp)
      rw [hsucc] at hend
      rw [← h.done p hp]
      exact Memory.readBE_congr .buf fun a _ ha => Memory.read_writeBE_outside .buf b _ _ _ (.inl (by omega))
    · rw [Memory.readBE_writeBE, Nat.mod_eq_of_lt (blockAdd_lt ..),
        Memory.readBE_congr .buf fun a ha _ => h.rest a ha]
      rfl
  · rw [hsucc] at ha
    rw [Memory.read_writeBE_outside .buf b _ _ _ (.inr ha)]
    exact h.rest a (by omega)

/-! ### The run -/

/-- The working registers after j of k blocks: the cursors at block j, the key pointers given, and the phase FINISH once
every block is done (R33, R111). -/
def State.blockRunEngine (s : State) (k j : Nat) (kp bp : Word) : Engine :=
  { s.eng with
    n := BitVec.ofNat 32 (s.blockStart j), p := BitVec.ofNat 32 j, kp := kp, bp := bp, nblk := BitVec.ofNat 32 k
    phase := if k = j then .finish else .mv2Run }

/-- The state after a run over k blocks: the cursors at SIZE and at k, and FINISH next (R111). -/
def State.afterBlocks (s : State) (b : Memory) (k : Nat) (kp bp : Word) : State :=
  s.moveEngine b { s.eng with
    n := s.size, p := BitVec.ofNat 32 k, kp := kp, bp := bp, nblk := BitVec.ofNat 32 k, phase := .finish }

/-- `t` has run over j of k blocks from `s`: they are shifted, and the pointers are those of block j. -/
def State.BlockRun (s : State) (k j : Nat) (t : State) : Prop :=
  ∃ b kp bp, t = s.moveEngine b (s.blockRunEngine k j kp bp) ∧ kp.toNat = 4 * j % s.skLen.toNat ∧
    bp.toNat = j % s.bkLen.toNat ∧ s.Shifted j b

/-- A consistent engine about to validate an XFORM in MV2 mode that passes with k blocks. -/
structure State.Mv2Start (s : State) (k : Nat) : Prop where
  ok    : s.EngineOk
  phase : s.eng.phase = .validate
  op    : s.eng.op = .xform
  mode  : s.eng.mode = .mv2
  valid : s.validate .xform .mv2 = .ok k

/-- After a passing validation XFORM in MV2 mode runs over the blocks, if there are any (R64). -/
theorem State.phaseValidated_mv2 {s : State} (hop : s.eng.op = .xform) (hm : s.eng.mode = .mv2) (k : Nat) :
    s.phaseValidated k = some (if k = 0 then .finish else .mv2Run) := by
  simp only [State.phaseValidated, hop, hm]

section
variable {s t : State} {k j : Nat} (hs : s.Mv2Start k)
include hs

theorem State.Mv2Start.bkLen_ne_zero : s.bkLen ≠ 0 :=
  hs.ok.bkLen_ne_zero (.inr (by rw [hs.op]; rfl)) hs.mode

theorem State.Mv2Start.mv2Valid : s.Mv2Valid k := s.validate_mv2_ok rfl hs.bkLen_ne_zero hs.valid

/-- The numbers of blocks fit a word. -/
theorem State.Mv2Start.toNat_ofNat (hj : j ≤ k) : (BitVec.ofNat 32 j).toNat = j := by
  have := hs.mv2Valid.count_le hs.bkLen_ne_zero
  have := s.size.isLt
  exact Nat.mod_eq_of_lt (by omega)

/-- The boundaries up to SIZE fit a word. -/
theorem State.Mv2Start.toNat_ofNat_blockStart (hj : j ≤ k) :
    (BitVec.ofNat 32 (s.blockStart j)).toNat = s.blockStart j := by
  have hle := s.blockStart_mono hj
  rw [hs.mv2Valid.total] at hle
  exact Nat.mod_eq_of_lt (Nat.lt_of_le_of_lt hle s.size.isLt)

/-- Before the last block the run is a consistent MV2 run at block j. -/
theorem State.BlockRun.engineOk (h : s.BlockRun k j t) (hj : j < k) :
    t.EngineOk ∧ t.eng.phase = .mv2Run ∧ t.eng.p.toNat = j := by
  obtain ⟨b, kp, bp, rfl, hkp, hbp, -⟩ := h
  obtain ⟨hcmd, hkeys, hnorm, hphase⟩ := hs.ok
  simp only [hs.phase] at hphase
  obtain ⟨-, hec, -⟩ := hphase
  have hrun : (s.blockRunEngine k j kp bp).phase = .mv2Run := if_neg hj.ne'
  have hp : (s.blockRunEngine k j kp bp).p.toNat = j := hs.toNat_ofNat hj.le
  have hk : (s.blockRunEngine k j kp bp).nblk.toNat = k := hs.toNat_ofNat (Nat.le_refl k)
  have hn : (s.blockRunEngine k j kp bp).n.toNat = s.blockStart j := hs.toNat_ofNat_blockStart hj.le
  refine ⟨⟨hcmd, hkeys, hnorm, ?_⟩, hrun, hp⟩
  simp only [State.moveEngine_eng, hrun, hp, hk, hn, State.validate_moveEngine, State.blockStart_moveEngine]
  exact ⟨hs.op, hs.mode, hec, hs.valid, hj, trivial, hkp, hbp⟩

/-- The run ends with block k − 1: its end is SIZE, and no earlier block's is. -/
theorem State.Mv2Start.phaseAfter_eq (hj : j < k) (hsize : t.size = s.size) (hp : t.eng.phase = .mv2Run) :
    t.phaseAfter (BitVec.ofNat 32 (s.blockStart (j + 1))) = if k = j + 1 then .finish else .mv2Run := by
  have hlast := (hs.mv2Valid.blockStart_succ_eq_size hs.bkLen_ne_zero hj).trans eq_comm
  rw [State.phaseAfter_eq, hs.toNat_ofNat_blockStart hj, hsize, hp, if_congr hlast rfl rfl]

/-- A BLOCK step is one block more of the run. -/
theorem State.BlockRun.succ (h : s.BlockRun k j t) (hj : j < k) : s.BlockRun k (j + 1) (blockStep t) := by
  obtain ⟨hok, hphase, hp⟩ := h.engineOk hs hj
  obtain ⟨e, -, -⟩ := hok.blockStep_eq hphase
  obtain ⟨b, kp, bp, rfl, hkp, hbp, hb⟩ := h
  have hn : (s.blockRunEngine k j kp bp).n.toNat = s.blockStart j := hs.toNat_ofNat_blockStart hj.le
  have hn' : (s.blockRunEngine k j kp bp).n + BitVec.ofNat 32 (s.blockLengthAt j) =
      BitVec.ofNat 32 (s.blockStart (j + 1)) := (BitVec.ofNat_add ..).symm
  have hp' : (s.blockRunEngine k j kp bp).p + 1 = BitVec.ofNat 32 (j + 1) := (BitVec.ofNat_add ..).symm
  have hlen : (s.moveEngine b (s.blockRunEngine k j kp bp)).blockLengthAt j = s.blockLengthAt j := rfl
  obtain ⟨hbuf, hkp', hbp'⟩ := blockStepWith_pointers (s.moveEngine b (s.blockRunEngine k j kp bp))
    (s.blockLengthAt j) j hs.mv2Valid.sk_pos (word_ne_zero.1 hs.bkLen_ne_zero) hkp hbp
  have hph := hs.phaseAfter_eq (t := s.moveEngine b (s.blockRunEngine k j kp bp)) hj rfl hphase
  rw [State.moveEngine_eng, hn] at hbuf
  rw [e, hp, hlen, blockStepWith_eq_moveEngine]
  simp only [State.moveEngine_eng, hn', hp', hph]
  exact ⟨_, _, _, rfl, hkp', hbp', hbuf ▸ hb.succ⟩

/-- Before the last block the block is busy with a BLOCK step next. -/
theorem State.BlockRun.step_eq (h : s.BlockRun k j t) (hj : j < k) (hb : s.status.busy = true) (hi : s.inputs = []) :
    step t = .next (blockStep t) := by
  obtain ⟨-, hphase, -⟩ := h.engineOk hs hj
  obtain ⟨b, kp, bp, rfl, -⟩ := h
  exact (step_busy_alone (s := s.moveEngine b _) hb hi).trans (engineStep_mv2Run hphase)

/-- A run of every block is at SIZE. -/
theorem State.Mv2Start.moveEngine_end (b : Memory) (kp bp : Word) :
    s.moveEngine b (s.blockRunEngine k k kp bp) = s.afterBlocks b k kp bp := by
  rw [State.blockRunEngine, if_pos rfl, hs.mv2Valid.total, BitVec.ofNat_toNat, BitVec.setWidth_eq]
  rfl

end

/-! ### XFORM in MV2 mode -/

section
variable {s : State} {d : Dir} {k : Nat} (h0 : s.bkLen ≠ 0) (hv : s.validate .xform .mv2 = .ok k)
include h0 hv

/-- Acceptance of XFORM with a nonempty block-size key is the start of a block run (R61). -/
theorem State.mv2Start_accept : (s.accept (encode (xformOf d)) .xform d).Mv2Start k := by
  have hcmd : (Op.xform, d) = operationOf (encode (xformOf d)) := by cases d <;> rfl
  exact ⟨s.engineOk_accept hcmd (by decide), rfl, rfl, s.derivedMode_of_ne_zero h0, (State.validate_accept ..).trans hv⟩

/-- A whole block run from acceptance: two steps and one a block, to a completion with every block shifted. -/
theorem steps_blockCommand (hi : s.inputs = []) :
    ∃ b kp bp, steps (2 + k) (s.accept (encode (xformOf d)) .xform d) =
        .next ((s.accept (encode (xformOf d)) .xform d).afterBlocks b k kp bp).completeOk ∧
      kp.toNat = 4 * k % s.skLen.toNat ∧ bp.toNat = k % s.bkLen.toNat ∧
      (s.accept (encode (xformOf d)) .xform d).Shifted k b := by
  have hA := s.mv2Start_accept (d := d) h0 hv
  have hmode := s.derivedMode_of_ne_zero h0
  have hph : (s.accept (encode (xformOf d)) .xform d).phaseValidated k =
      some (if k = 0 then .finish else .mv2Run) := State.phaseValidated_mv2 rfl hmode k
  have hvalidate := step_accept_of_ok hi rfl (hmode.symm ▸ hv : s.validate .xform s.derivedMode = .ok k) hph
  obtain ⟨u, hu, b, kp, bp, rfl, hkp, hbp, hb⟩ := steps_of_run (P := (s.accept _ .xform d).BlockRun k) (N := k)
    (fun j t hj ht => ⟨_, ht.step_eq hA hj rfl hi, ht.succ hA hj⟩)
    ⟨s.buf, 0, 0, rfl, (Nat.zero_mod _).symm, (Nat.zero_mod _).symm, State.shifted_zero _⟩ (Nat.le_refl k)
  rw [hA.moveEngine_end] at hu
  exact ⟨b, kp, bp, steps_command hvalidate hu (steps_one_alone rfl hi (engineStep_completeOk rfl rfl)), hkp, hbp, hb⟩

end

end Sys2Proof.Machine

open Sys2Proof Sys2Proof.Machine in
/-- Settles O13: a run of BLOCK steps, each shifting the block of its number; the blocks end at SIZE, where validation
found the last boundary. -/
theorem mv2TransformCompletes : Obligations.Mv2TransformCompletes := by
  rintro s d k ⟨hb, hi⟩ h0 hv
  have hmode := State.derivedMode_of_ne_zero h0
  have hA := s.mv2Start_accept (d := d) h0 hv
  have hM := s.validate_mv2_ok rfl h0 hv
  obtain ⟨b, kp, bp, hsteps, hkp, hbp, hdone, hrest⟩ := steps_blockCommand (d := d) h0 hv hi
  have hnblk := State.completeOk_nblk_of_keys
    (s := (s.accept (encode (xformOf d)) .xform d).afterBlocks b k kp bp) (.inl rfl)
    fun hm => (nomatch hm.symm.trans hmode)
  refine ⟨_, _, exec_xformOf_idle hb d, rfl, hsteps, ?_, ?_, rfl, State.untouched_completeOk .., ?_,
    hkp, hbp, hM.total, fun a ha => ?_, fun p hp => ⟨?_, ?_⟩⟩
  · exact congrArg (fun m => Status.mk false true false m 0 s.status.haz) hmode
  · exact (congrArg BitVec.toNat hnblk).trans (hA.toNat_ofNat (Nat.le_refl k))
  · rw [hnblk]
    exact congrArg (fun m => Engine.mk .idle _ .xform d m s.size _ kp bp _ 0 0) hmode
  · exact hrest a (hA.mv2Valid.total.trans_le ha)
  · exact (s.blockLengthAt_spec hM.good h0 p).2
  · have hblock := hdone p hp
    rw [State.blockStart_accept] at hblock
    exact (congrArg Nat.cast hblock).trans (intCast_blockAdd ..)
end

section
/-! PROOFS. CHECK gives the verdict XFORM would give (R76). -/

namespace Sys2Proof.Machine

section
variable {s : State} {op : Op} {m : Mode}

/-- A command whose validation fails has two steps (R79). -/
theorem State.commandSteps_of_err {c : ErrorCode} {info : Word} (h : s.validate op m = .err c info) :
    s.commandSteps op m = 2 := by
  simp only [State.commandSteps, h]

/-- A command whose validation passes has its run's steps and two more (R79). -/
theorem State.commandSteps_of_ok {k : Nat} (h : s.validate op m = .ok k) :
    s.commandSteps op m = 2 + s.runSteps op m k := by
  simp only [State.commandSteps, h]

end

/-- Neither direction of XFORM is NORM, so its mode is the one BK_LEN gives (R29). -/
theorem xformOf_ne_norm (d : Dir) : xformOf d ≠ .norm := by cases d <;> decide

theorem xformOf_cases (d : Dir) : xformOf d = .xformEnc ∨ xformOf d = .xformDec := by cases d <;> decide

/-- XFORM whose validation passes with k blocks completes with DONE and k in NBLK, in either mode (R72, R79). -/
theorem xform_completes {s : State} (hs : s.Ready) (d : Dir) {k : Nat} (hv : s.validate .xform s.derivedMode = .ok k) :
    ∃ t u, exec (xformOf d) s = .next t ∧ t.status.busy = true ∧
      steps (s.commandSteps .xform s.derivedMode) t = .next u ∧
      u.status = { busy := false, done := true, err := false, mode := s.derivedMode, ecode := 0
                   haz := s.status.haz } ∧
      u.nblk.toNat = k ∧ u.errinfo = 0 := by
  rw [State.commandSteps_of_ok hv]
  by_cases h0 : s.bkLen = 0
  · rw [s.derivedMode_of_zero h0] at hv ⊢
    obtain ⟨rfl, hsize, hsk, -, hpos⟩ := (s.validate_ascii_ok rfl k).1 hv
    obtain ⟨t, u, hexec, hbusy, hsteps, hstatus, hnblk, hinfo, -⟩ := asciiTransformCompletes s d hs h0 hsize hpos hsk
    exact ⟨t, u, hexec, hbusy, hsteps, hstatus, congrArg BitVec.toNat hnblk, hinfo⟩
  · rw [s.derivedMode_of_ne_zero h0] at hv ⊢
    obtain ⟨t, u, hexec, hbusy, hsteps, hstatus, hnblk, hinfo, -⟩ := mv2TransformCompletes s d k hs h0 hv
    exact ⟨t, u, hexec, hbusy, hsteps, hstatus, hnblk, hinfo⟩

end Sys2Proof.Machine

open Sys2Proof Sys2Proof.Machine in
/-- Settles O16: the two share their verdict, and each completion reports it. -/
theorem checkAgreesWithTransform : Obligations.CheckAgreesWithTransform := by
  intro s d hs
  cases hv : s.validate .xform s.derivedMode with
  | ok k =>
    have hc := (s.validate_check _).trans hv
    obtain ⟨t₁, u₁, he₁, hb₁, hs₁, hst₁, hn₁, -, hi₁, -, hbuf, -⟩ := checkCompletes s k hs hc
    obtain ⟨t₂, u₂, he₂, hb₂, hs₂, hst₂, hn₂, hi₂⟩ := xform_completes hs d hv
    rw [State.commandSteps_of_ok hc]
    exact ⟨t₁, u₁, t₂, u₂, he₁, hs₁, he₂, hs₂, hb₁, hst₁ ▸ rfl, hb₂, hst₂ ▸ rfl, hst₁.trans hst₂.symm,
      BitVec.eq_of_toNat_eq (hn₁.trans hn₂.symm), hi₁.trans hi₂.symm, hbuf⟩
  | err c info =>
    obtain ⟨t₁, u₁, he₁, hb₁, hs₁, hst₁, hn₁, hi₁, -, hbuf, -⟩ :=
      failedValidationLeavesMemoriesUnchanged s .check c info hs (.inl ⟨.inr (.inr rfl), hv⟩)
    obtain ⟨t₂, u₂, he₂, hb₂, hs₂, hst₂, hn₂, hi₂, -⟩ := failedValidationLeavesMemoriesUnchanged s (xformOf d) c info hs
      (.inl ⟨(xformOf_cases d).imp id .inl, hv⟩)
    rw [if_neg (by decide)] at hst₁
    rw [if_neg (xformOf_ne_norm d)] at hst₂
    rw [State.commandSteps_of_err ((s.validate_check _).trans hv), State.commandSteps_of_err hv]
    exact ⟨t₁, u₁, t₂, u₂, he₁, hs₁, he₂, hs₂, hb₁, hst₁ ▸ rfl, hb₂, hst₂ ▸ rfl, hst₁.trans hst₂.symm,
      hn₁.trans hn₂.symm, hi₁.trans hi₂.symm, hbuf⟩
  | noMeaning => exact absurd hv (s.validate_ne_noMeaning (.inr rfl))
end

section
/-! PROOFS. The wrap counters and the periods of the key schedule (R82, R88). -/

namespace Sys2Proof.Machine

/-- Every multiple of a period is a period. -/
theorem periodic_of_dvd {α : Type} {f : Nat → α} {a b : Nat} (h : Function.Periodic f a) (hab : a ∣ b) :
    Function.Periodic f b := by
  obtain ⟨n, rfl⟩ := hab
  rw [Nat.mul_comm]
  exact h.nat_mul n

/-- The shift key is read modulo SK_LEN (R83, R105). -/
theorem State.keyByteAt_periodic (s : State) : Function.Periodic s.keyByteAt s.skLen.toNat :=
  (Nat.periodic_mod _).comp (s.byte .skey)

/-- The block-size key is read modulo BK_LEN, and so are the lengths it gives (R86). -/
theorem State.blockLengthAt_periodic (s : State) : Function.Periodic s.blockLengthAt s.bkLen.toNat :=
  (Nat.periodic_mod _).comp fun i => (s.byte .bkey i).toNat - 0x30

/-- A block advances the shift-key index by 4, so c blocks are a period of the shift word once SK_LEN divides 4c (R84,
R85). -/
theorem State.shiftWordAt_periodic {s : State} {c : Nat} (hc : s.skLen.toNat ∣ 4 * c) :
    Function.Periodic s.shiftWordAt c := by
  have hkey : ∀ i, s.keyByteAt (i + 4 * c) = s.keyByteAt i := periodic_of_dvd s.keyByteAt_periodic hc
  intro p
  simp only [State.shiftWordAt, Nat.mul_add, Nat.add_right_comm _ (4 * c), hkey]

/-- SK_LEN / gcd(4, SK_LEN) blocks read lcm(4, SK_LEN) key bytes (R88). -/
theorem dvd_four_mul_div_gcd (n : Nat) : n ∣ 4 * (n / Nat.gcd 4 n) := by
  rw [← Nat.mul_div_assoc 4 (Nat.gcd_dvd_right 4 n)]
  exact Nat.dvd_lcm_right 4 n

end Sys2Proof.Machine

open Sys2Proof Sys2Proof.Machine in
/-- Settles O28, by induction on the number of advances (`toNat_wrapIter`). -/
theorem wrapCounterCountsModulo : Obligations.WrapCounterCountsModulo :=
  fun _ k hlen => toNat_wrapIter hlen k

open Sys2Proof Sys2Proof.Machine in
/-- Settles O29: each key is read modulo its length, and the lcm is a multiple of both periods. -/
theorem keySchedulePeriod : Obligations.KeySchedulePeriod := by
  intro s p _ _
  have hword := State.shiftWordAt_periodic (dvd_four_mul_div_gcd s.skLen.toNat)
  have hlength := s.blockLengthAt_periodic
  exact ⟨hword p, hlength p, periodic_of_dvd hword (Nat.dvd_lcm_left ..) p,
    periodic_of_dvd hlength (Nat.dvd_lcm_right ..) p⟩
end

section
/-! PROOFS. The rows of normalize, its image, and the NORM step in reach of its byte (R89 to R91, R93). -/

namespace Sys2Proof.Machine

/-! ### The rows of R89 -/

section
variable {b : Byte}

/-- Below 128 a byte that is no letter becomes a space. -/
theorem normalize_eq_space
    (h : b.toNat ≤ 64 ∨ (91 ≤ b.toNat ∧ b.toNat ≤ 96) ∨ (123 ≤ b.toNat ∧ b.toNat ≤ 127)) : normalize b = 32 := by
  rcases h with h | ⟨hlow, hhigh⟩ | ⟨hlow, hhigh⟩
  · exact if_pos h
  · rw [normalize, if_neg (by omega), if_neg (by omega), if_pos hhigh]
  · rw [normalize, if_neg (by omega), if_neg (by omega), if_neg (by omega), if_neg (by omega), if_pos hhigh]

/-- A capital letter and a byte of at least 128 are kept. -/
theorem normalize_eq_self (h : (65 ≤ b.toNat ∧ b.toNat ≤ 90) ∨ 128 ≤ b.toNat) : normalize b = b := by
  rcases h with ⟨hlow, hhigh⟩ | h
  · rw [normalize, if_neg (by omega), if_pos hhigh]
  · rw [normalize, if_neg (by omega), if_neg (by omega), if_neg (by omega), if_neg (by omega), if_neg (by omega)]

/-- A small letter becomes the capital 32 below it. -/
theorem toNat_normalize_of_small (h : 97 ≤ b.toNat ∧ b.toNat ≤ 122) : (normalize b).toNat = b.toNat - 32 := by
  rw [normalize, if_neg (by omega), if_neg (by omega), if_neg (by omega), if_pos h.2, BitVec.toNat_sub_of_le]
  · rfl
  · exact BitVec.le_def.2 (Nat.le_trans (by decide) h.1)

end

/-! ### The image (R90) and idempotence (R91) -/

/-- The canonical bytes: the space, the capital letters and the bytes of at least 128 (R90). -/
def Canonical (b : Byte) : Prop := b = 32 ∨ (65 ≤ b.toNat ∧ b.toNat ≤ 90) ∨ 128 ≤ b.toNat

theorem canonical_normalize (b : Byte) : Canonical (normalize b) := by
  have rows : (b.toNat ≤ 64 ∨ (91 ≤ b.toNat ∧ b.toNat ≤ 96) ∨ (123 ≤ b.toNat ∧ b.toNat ≤ 127)) ∨
      ((65 ≤ b.toNat ∧ b.toNat ≤ 90) ∨ 128 ≤ b.toNat) ∨ (97 ≤ b.toNat ∧ b.toNat ≤ 122) := by omega
  rcases rows with hspace | hself | hsmall
  · exact .inl (normalize_eq_space hspace)
  · exact .inr ((normalize_eq_self hself).symm ▸ hself)
  · have := toNat_normalize_of_small hsmall
    exact .inr (.inl (by omega))

theorem normalize_of_canonical {b : Byte} (h : Canonical b) : normalize b = b := by
  rcases h with rfl | h
  · rfl
  · exact normalize_eq_self h

theorem normalize_normalize (b : Byte) : normalize (normalize b) = normalize b :=
  normalize_of_canonical (canonical_normalize b)

/-! ### The NORM step of a busy engine (R93) -/

/-- In the phase of a busy NORM the cursor is below SIZE, and SIZE fits the buffer, since validation passed (R65). -/
theorem State.EngineOk.normRun_reach {s : State} (h : s.EngineOk) (hp : s.eng.phase = .normRun) :
    s.eng.n.toNat < s.size.toNat ∧ s.size.toNat ≤ s.params.bufMax := by
  obtain ⟨-, -, -, hphase⟩ := h
  simp only [hp] at hphase
  obtain ⟨-, -, hv, hlt⟩ := hphase
  exact ⟨hlt, ((s.validate_norm_ok _ _).1 hv).2⟩

/-- What a byte step leaves in BUF: the byte at the cursor alone is new. -/
theorem State.byte_buf_byteStep (t : State) (v : Byte) (kp : Word) (a : Nat) :
    (t.byteStep v kp).byte .buf a = if a = t.eng.n.toNat then v else t.byte .buf a :=
  Memory.read_write .buf t.buf t.eng.n.toNat v a

/-- The phase after a byte step with its byte in reach, by the cursor as a number. -/
theorem State.phaseAfter_succ {s : State} (h : s.eng.n.toNat < s.size.toNat) :
    s.phaseAfter (s.eng.n + 1) = if s.eng.n.toNat + 1 = s.size.toNat then .finish else s.eng.phase := by
  have hn : (s.eng.n + 1).toNat = s.eng.n.toNat + 1 := toNat_add_ofNat h
  rw [State.phaseAfter_eq, hn]

end Sys2Proof.Machine

open Sys2Proof Sys2Proof.Machine in
/-- Settles O34: the invariant puts the cursor in reach, so the step is a byte step that stores the normalized byte. -/
theorem normStepNormalizesOneByte : Obligations.NormStepNormalizesOneByte := by
  intro s hs hb hp
  obtain ⟨hlt, hsize⟩ := (hs.engine_ok hb).normRun_reach hp
  have hstep := (engineStep_normRun hp).trans (congrArg _ (normStep_eq_byteStep hlt hsize))
  refine ⟨_, hstep, ?_, toNat_add_ofNat hlt, fun a => ?_⟩
  · rw [← hp, ← State.phaseAfter_succ hlt]
    rfl
  · rw [State.byte_buf_byteStep]
    split
    next ha => rw [ha]
    next => rfl

open Sys2Proof Sys2Proof.Machine in
/-- Settles O24: one lemma per output of R89's rows, and the image they give. -/
theorem normalizeTable : Obligations.NormalizeTable := fun b =>
  ⟨fun h => normalize_eq_space (.inl h), fun h => normalize_eq_self (.inl h),
    fun h => normalize_eq_space (.inr (.inl h)), toNat_normalize_of_small,
    fun h => normalize_eq_space (.inr (.inr h)), fun h => normalize_eq_self (.inr h), canonical_normalize b⟩

open Sys2Proof Sys2Proof.Machine in
/-- Settles O25: normalize keeps the canonical bytes, its image; the first NORM leaves the block ready for a second,
which finds each byte below SIZE normalized. -/
theorem normalizationIsIdempotent : Obligations.NormalizationIsIdempotent := by
  refine ⟨normalize_normalize, fun s hs hsize => ?_⟩
  obtain ⟨t₁, u₁, he₁, hb₁, hs₁, hst₁, -, -, hkept, -, hbytes₁⟩ := normCompletes s hs hsize
  obtain ⟨hparams, -, hsz, -, -, -, -, -, -, hinputs, -, -⟩ := hkept
  have hready : u₁.Ready := ⟨by rw [hst₁], hinputs.trans hs.2⟩
  obtain ⟨t₂, u₂, he₂, hb₂, hs₂, hst₂, -, -, -, -, hbytes₂⟩ :=
    normCompletes u₁ hready (by rw [hsz, hparams]; exact hsize)
  rw [hsz] at hs₂
  refine ⟨t₁, u₁, t₂, u₂, he₁, hs₁, he₂, hs₂, hb₁, hready.1, hb₂, by rw [hst₂], fun a => ?_⟩
  rw [hbytes₂, hsz, hbytes₁]
  split
  · exact normalize_normalize _
  · rfl
end

section
/-! PROOFS. The cyclical adder: its value, its laws and its reference realisation (R96 to R98). -/

namespace Sys2Proof.Machine

@[simp] theorem Dir.sgn_opposite (d : Dir) : d.opposite.sgn = -d.sgn := by cases d <;> rfl

section
variable {b c : Byte} {s s' : Int} {d : Dir}

/-- A byte is the adder's exactly where it has the value R96 gives. -/
theorem eq_cyc_iff : b = cyc c s d ↔ (b.toNat : Int) = 65 + ((c.toNat : Int) - 65 + d.sgn * s) % 26 := by
  rw [← intCast_toNat_cyc, Int.ofNat_inj, BitVec.toNat_inj]

/-- The adder's result is a letter (R96). -/
theorem cyc_letter (c : Byte) (s : Int) (d : Dir) : 65 ≤ (cyc c s d).toNat ∧ (cyc c s d).toNat ≤ 90 := by
  have := intCast_toNat_cyc c s d
  omega

/-- The other direction takes the shift away again (R98, inverse). -/
theorem cyc_cyc_opposite (h : 65 ≤ c.toNat ∧ c.toNat ≤ 90) : cyc (cyc c s d) s d.opposite = c := by
  refine (eq_cyc_iff.2 ?_).symm
  rw [intCast_toNat_cyc, Dir.sgn_opposite, Int.neg_mul]
  omega

/-- A byte of at least 128 is not got back: what comes back is a letter (R98). -/
theorem cyc_cyc_opposite_ne (h : 128 ≤ c.toNat) : cyc (cyc c s d) s d.opposite ≠ c := fun heq => by
  have := (heq ▸ cyc_letter (cyc c s d) s d.opposite).2
  omega

/-- The adder depends on the shift amount modulo 26 only (R98, period). -/
theorem cyc_congr (h : s % 26 = s' % 26) : cyc c s d = cyc c s' d := by
  have hmod : ((c.toNat : Int) - 65 + d.sgn * s) % 26 = ((c.toNat : Int) - 65 + d.sgn * s') % 26 :=
    Int.ModEq.add_left _ (Int.ModEq.mul_left d.sgn h)
  rw [cyc, cyc, hmod]

/-- A shift amount that is 0 modulo 26 keeps a letter (R98, identity). -/
theorem cyc_of_emod_zero (h : 65 ≤ c.toNat ∧ c.toNat ≤ 90) (hs : s % 26 = 0) : cyc c s d = c := by
  rw [cyc_congr (s' := 0) hs]
  refine (eq_cyc_iff.2 ?_).symm
  rw [Int.mul_zero]
  omega

end

/-- One conditional correction reduces an integer modulo 26 where it is at most 26 out of range (R97). -/
theorem ite_correction_eq_emod {r : Int} (hlow : -26 ≤ r) (hhigh : r < 52) :
    (if 26 ≤ r then r - 26 else if r < 0 then r + 26 else r) = r % 26 := by
  split
  · omega
  · split <;> omega

end Sys2Proof.Machine

open Sys2Proof Sys2Proof.Machine in
/-- Settles O26: the two reductions leave a sum or difference that one correction brings into range, and it is R96's
modulo 26. -/
theorem cyclicalAdderReferenceAgrees : Obligations.CyclicalAdderReferenceAgrees := by
  intro c s d
  cases d with
  | encode =>
    rw [cycReference, cyc, Dir.sgn, ite_correction_eq_emod (by omega) (by omega), Int.one_mul, ← Int.add_emod]
  | decode =>
    rw [cycReference, cyc, Dir.sgn, ite_correction_eq_emod (by omega) (by omega), Int.neg_one_mul, ← Int.sub_eq_add_neg,
      ← Int.sub_emod]

open Sys2Proof Sys2Proof.Machine in
/-- Settles O27, one lemma a law. -/
theorem cyclicalAdderLaws : Obligations.CyclicalAdderLaws :=
  ⟨intCast_toNat_cyc, cyc_letter, fun _ _ _ hlow hhigh => cyc_cyc_opposite ⟨hlow, hhigh⟩, fun _ _ _ _ h => cyc_congr h,
    fun _ _ _ hlow hhigh hs => cyc_of_emod_zero ⟨hlow, hhigh⟩ hs, fun _ _ _ h => cyc_cyc_opposite_ne h⟩
end

section
/-! PROOFS. The ALPHA step of a busy engine (R33, R83, R99, R100). -/

namespace Sys2Proof.Machine

/-- In the phase of a busy ASCII transform the cursor is below SIZE, the key pointer counts it modulo SK_LEN, and the
lengths are those validation passed (R33, R65, R66). -/
theorem State.EngineOk.alphaRun_reach {s : State} (h : s.EngineOk) (hp : s.eng.phase = .alphaRun) :
    s.eng.n.toNat < s.size.toNat ∧ s.size.toNat ≤ s.params.bufMax ∧
    s.eng.kp.toNat = s.eng.n.toNat % s.skLen.toNat ∧ 0 < s.skLen.toNat ∧ s.skLen.toNat ≤ s.params.skMax := by
  obtain ⟨-, -, -, hphase⟩ := h
  simp only [hp] at hphase
  obtain ⟨-, -, -, hv, hlt, hkp⟩ := hphase
  obtain ⟨-, hsize, hsk, -, hpos⟩ := (s.validate_ascii_ok rfl _).1 hv
  exact ⟨hlt, hsize, hkp, hpos, hsk⟩

end Sys2Proof.Machine

open Sys2Proof Sys2Proof.Machine in
/-- Settles O35: the invariant puts the cursor and the key pointer in reach, so the step is a byte step that stores the
shifted byte, and the wrap counter goes on counting modulo SK_LEN. -/
theorem alphaStepShiftsOneByte : Obligations.AlphaStepShiftsOneByte := by
  intro s hs hb hp
  obtain ⟨hlt, hsize, hkp, hpos, hsk⟩ := (hs.engine_ok hb).alphaRun_reach hp
  have hstep := (engineStep_alphaRun hp).trans
    (congrArg _ (alphaStep_eq_byteStep hlt hsize (hkp ▸ Nat.mod_lt _ hpos) hsk))
  refine ⟨_, hstep, ?_, toNat_add_ofNat hlt, wrapInc_mod hpos hkp, fun a ha => ?_, ?_⟩
  · rw [← hp, ← State.phaseAfter_succ hlt]
    rfl
  · rw [State.byte_buf_byteStep, if_neg ha]
  · rw [State.byte_buf_byteStep, if_pos rfl, hkp]
    rfl
end

section
/-! PROOFS. The ASCII round trip: encode, then decode (R102). -/

namespace Sys2Proof.Machine

/-! ### Byte by byte -/

/-- The normalized-ASCII bytes: the space and the capital letters (R102). -/
def NormalizedAscii (b : Byte) : Prop := b = 32 ∨ (65 ≤ b.toNat ∧ b.toNat ≤ 90)

section
variable {b : Byte}

/-- Normalization keeps a normalized-ASCII byte (R91). -/
theorem NormalizedAscii.normalize_eq (h : NormalizedAscii b) : normalize b = b :=
  normalize_of_canonical (h.imp_right .inl)

/-- Below 128 normalization gives a normalized-ASCII byte, row by row (R89). -/
theorem normalizedAscii_normalize (h : b.toNat < 128) : NormalizedAscii (normalize b) := by
  have rows : (b.toNat ≤ 64 ∨ (91 ≤ b.toNat ∧ b.toNat ≤ 96) ∨ (123 ≤ b.toNat ∧ b.toNat ≤ 127)) ∨
      (65 ≤ b.toNat ∧ b.toNat ≤ 90) ∨ (97 ≤ b.toNat ∧ b.toNat ≤ 122) := by omega
  rcases rows with hspace | hcapital | hsmall
  · exact .inl (normalize_eq_space hspace)
  · exact .inr ((normalize_eq_self (.inl hcapital)).symm ▸ hcapital)
  · have := toNat_normalize_of_small hsmall
    exact .inr (by omega)

/-- A letter goes through the adder (R100). -/
theorem alphaByte_of_letter (h : 65 ≤ b.toNat ∧ b.toNat ≤ 90) (sym : Byte) (d : Dir) :
    alphaByte b sym d = cyc b (shiftAmount sym) d :=
  if_neg fun hspace => absurd (hspace ▸ h.1) (by decide)

/-- The pipeline gives a normalized-ASCII byte from any byte (R96, R99). -/
theorem normalizedAscii_alphaByte (c sym : Byte) (d : Dir) : NormalizedAscii (alphaByte c sym d) := by
  rw [alphaByte]
  split
  · exact .inl rfl
  · exact .inr (cyc_letter ..)

/-- The other direction of the pipeline gives a normalized-ASCII byte back (R98, R99). -/
theorem NormalizedAscii.alphaByte_opposite (h : NormalizedAscii b) (sym : Byte) (d : Dir) :
    alphaByte (alphaByte b sym d) sym d.opposite = b := by
  rcases h with rfl | hletter
  · rfl
  · rw [alphaByte_of_letter hletter, alphaByte_of_letter (cyc_letter ..), cyc_cyc_opposite hletter]

end

/-! ### The two transforms -/

/-- The block is idle and left alone, in ASCII mode, with lengths that validate (R65, R66, R72). -/
structure State.AsciiReady (s : State) : Prop where
  ready : s.Ready
  bkLen_zero : s.bkLen = 0
  size_le : s.size.toNat ≤ s.params.bufMax
  skLen_pos : 1 ≤ s.skLen.toNat
  skLen_le : s.skLen.toNat ≤ s.params.skMax

/-- A transform in ASCII mode leaves the block ready for another with the same key and SIZE, each byte below SIZE having
gone through the pipeline (R72, R100). -/
theorem State.AsciiReady.xform {s : State} (hs : s.AsciiReady) (d : Dir) :
    ∃ t u, exec (xformOf d) s = .next t ∧ t.status.busy = true ∧ steps (2 + s.size.toNat) t = .next u ∧
      u.AsciiReady ∧ u.size = s.size ∧ (∀ i, u.keyByteAt i = s.keyByteAt i) ∧
      ∀ a, u.byte .buf a =
        if a < s.size.toNat then alphaByte (normalize (s.byte .buf a)) (s.keyByteAt a) d else s.byte .buf a := by
  obtain ⟨t, u, hexec, hbusy, hsteps, hstatus, -, -, hkept, -, -, houtside, hinside⟩ :=
    asciiTransformCompletes s d hs.ready hs.bkLen_zero hs.size_le hs.skLen_pos hs.skLen_le
  obtain ⟨hparams, -, hsize, hskLen, hbkLen, hskey, -, -, -, hinputs, -, -⟩ := hkept
  refine ⟨t, u, hexec, hbusy, hsteps, ⟨⟨by rw [hstatus], hinputs.trans hs.ready.2⟩, hbkLen.trans hs.bkLen_zero, ?_, ?_,
    ?_⟩, hsize, State.keyByteAt_congr hskLen hskey, fun a => ?_⟩
  · rw [hsize, hparams]
    exact hs.size_le
  · rw [hskLen]
    exact hs.skLen_pos
  · rw [hskLen, hparams]
    exact hs.skLen_le
  · split
    next ha =>
      obtain ⟨hspace, hletter⟩ := hinside a ha
      rw [alphaByte]
      split
      next hc => exact hspace hc
      next hc => exact eq_cyc_iff.2 (hletter hc)
    next ha => exact houtside a (Nat.not_lt.1 ha)

end Sys2Proof.Machine

open Sys2Proof Sys2Proof.Machine in
/-- Settles O59: the encoded bytes are normalized ASCII, so the decode's own normalization keeps them, and each comes
back as its normalized byte wherever that is normalized ASCII. -/
theorem asciiRoundTrip : Obligations.AsciiRoundTrip := by
  intro s hready h0 hsize hpos hsk
  have hs : s.AsciiReady := ⟨hready, h0, hsize, hpos, hsk⟩
  obtain ⟨t₁, u₁, he₁, hb₁, hs₁, hready₁, hsize₁, hkey, hbytes₁⟩ := hs.xform .encode
  obtain ⟨t₂, u₂, he₂, hb₂, hs₂, hready₂, -, -, hbytes₂⟩ := hready₁.xform .decode
  rw [hsize₁] at hs₂ hbytes₂
  have hencoded : ∀ a, a < s.size.toNat → NormalizedAscii (u₁.byte .buf a) := fun a ha => by
    rw [hbytes₁, if_pos ha]
    exact normalizedAscii_alphaByte ..
  have hback : ∀ a, a < s.size.toNat → NormalizedAscii (normalize (s.byte .buf a)) →
      u₂.byte .buf a = normalize (s.byte .buf a) := fun a ha hnorm => by
    rw [hbytes₂, if_pos ha, hkey, (hencoded a ha).normalize_eq, hbytes₁, if_pos ha]
    exact hnorm.alphaByte_opposite _ .encode
  refine ⟨t₁, u₁, t₂, u₂, he₁, hs₁, he₂, hs₂, hb₁, hready₁.ready.1, hb₂, hready₂.ready.1, hencoded, fun hascii a => ?_,
    fun hlow a ha => hback a ha (normalizedAscii_normalize (hlow a ha))⟩
  by_cases ha : a < s.size.toNat
  · have hnorm : NormalizedAscii (s.byte .buf a) := hascii a ha
    have heq := hnorm.normalize_eq
    exact (hback a ha (heq.symm ▸ hnorm)).trans heq
  · rw [hbytes₂, if_neg ha, hbytes₁, if_neg ha]
end

section
/-! PROOFS. The variable-width adder: its value, its laws and its reference realisation (R105, R107 to R109). -/

namespace Sys2Proof.Machine

/-! ### The adder's laws (R109) -/

section
variable {L i v : Nat} {d : Dir} {shift shift' : Word}

/-- A number is the adder's exactly where it has the value R107 gives. -/
theorem eq_blockAdd_iff :
    v = blockAdd L d i shift ↔ (v : Int) = ((i : Int) + d.sgn * (shift.toNat : Int)) % 2 ^ (8 * L) := by
  rw [← intCast_blockAdd, Int.ofNat_inj]

/-- The other direction takes the shift away again (R109, inverse). -/
theorem blockAdd_blockAdd_opposite (h : i < 2 ^ (8 * L)) :
    blockAdd L d.opposite (blockAdd L d i shift) shift = i := by
  have hlt : (i : Int) < 2 ^ (8 * L) := by exact_mod_cast h
  refine (eq_blockAdd_iff.2 ?_).symm
  rw [intCast_blockAdd, Dir.sgn_opposite, Int.neg_mul, Int.emod_add_emod, Int.add_neg_cancel_right,
    Int.emod_eq_of_lt (Int.natCast_nonneg i) hlt]

/-- The adder depends on the shift word modulo 2^(8L) only (R108). -/
theorem blockAdd_congr (h : shift'.toNat % 2 ^ (8 * L) = shift.toNat % 2 ^ (8 * L)) :
    blockAdd L d i shift' = blockAdd L d i shift := by
  have hmod : (shift'.toNat : Int) ≡ (shift.toNat : Int) [ZMOD (2 ^ (8 * L) : Nat)] := Int.natCast_modEq_iff.2 h
  exact congrArg Int.toNat (Int.ModEq.add_left _ (Int.ModEq.mul_left d.sgn hmod))

/-- A shift word that is 0 modulo 2^(8L) keeps the block (R109, identity). -/
theorem blockAdd_of_mod_zero (h : i < 2 ^ (8 * L)) (hshift : shift.toNat % 2 ^ (8 * L) = 0) :
    blockAdd L d i shift = i := by
  have hlt : (i : Int) < 2 ^ (8 * L) := by exact_mod_cast h
  rw [blockAdd_congr (shift := 0) (hshift.trans (Nat.zero_mod _).symm)]
  refine (eq_blockAdd_iff.2 ?_).symm
  simp [Int.emod_eq_of_lt (Int.natCast_nonneg i) hlt]

/-! ### The reference realisation (R108) -/

/-- A wider adder cut to 8L bits is the adder of width L. -/
theorem blockAdd_mod {W : Nat} (h : L ≤ W) : blockAdd W d i shift % 2 ^ (8 * L) = blockAdd L d i shift := by
  have hdvd : (2 : Int) ^ (8 * L) ∣ 2 ^ (8 * W) := pow_dvd_pow 2 (by omega)
  rw [eq_blockAdd_iff]
  push_cast
  rw [intCast_blockAdd, Int.emod_emod_of_dvd _ hdvd]

/-- The enabled lanes pass the low 8L bits (R103, R104). -/
theorem toNat_and_laneMask (hpos : 1 ≤ L) (hle : L ≤ 4) (w : Word) :
    (w &&& laneMask (laneEnables L)).toNat = w.toNat % 2 ^ (8 * L) := by
  have hmask : (laneMask (laneEnables L)).toNat = 2 ^ (8 * L) - 1 := by
    obtain rfl | rfl | rfl | rfl : L = 1 ∨ L = 2 ∨ L = 3 ∨ L = 4 := by omega
    all_goals rfl
  rw [BitVec.toNat_and, hmask, Nat.and_two_pow_sub_one_eq_mod]

/-- The datapath's 32-bit adder, with the complement and a carry-in for decode, is the adder of width 4, and the lanes
cut its sum to the block's width. -/
theorem blockAddReference_eq_mod (hpos : 1 ≤ L) (hle : L ≤ 4) :
    blockAddReference L d i shift = blockAdd 4 d i shift % 2 ^ (8 * L) := by
  have hsum : blockAdd 4 d i shift = (BitVec.ofNat 32 i + BitVec.ofInt 32 (d.sgn * shift.toNat)).toNat := by
    rw [← BitVec.ofInt_natCast, ← BitVec.ofInt_add, BitVec.toNat_ofInt]
    rfl
  have hshift : BitVec.ofInt 32 shift.toNat = shift := by
    rw [BitVec.ofInt_natCast, BitVec.ofNat_toNat, BitVec.setWidth_eq]
  rw [hsum, ← toNat_and_laneMask hpos hle]
  cases d with
  | encode => rw [Dir.sgn, Int.one_mul, hshift]; rfl
  | decode => rw [Dir.sgn, Int.neg_one_mul, BitVec.ofInt_neg, hshift, BitVec.neg_eq_not_add, ← BitVec.add_assoc]; rfl

end

/-- The shift word as a number: the first key byte is the most significant (R105). -/
theorem toNat_shiftWord (k0 k1 k2 k3 : Byte) : (shiftWord k0 k1 k2 k3).toNat =
    k0.toNat * 2 ^ 24 + k1.toNat * 2 ^ 16 + k2.toNat * 2 ^ 8 + k3.toNat := by
  rw [shiftWord, toNat_append_eq_add, toNat_append_eq_add, toNat_append_eq_add]
  omega

end Sys2Proof.Machine

open Sys2Proof Sys2Proof.Machine in
/-- Settles O31: the reference cuts the adder of width 4 to the block's width; the bytes of the shift word are its
digits to the base 256. -/
theorem blockAdderReferenceAgrees : Obligations.BlockAdderReferenceAgrees := by
  refine ⟨fun L d i shift hpos hle _ => ⟨?_, fun _ => blockAdd_congr⟩, fun k0 k1 k2 k3 => ?_⟩
  · rw [blockAddReference_eq_mod hpos hle, blockAdd_mod hle]
  · have h1 := k1.isLt
    have h2 := k2.isLt
    have h3 := k3.isLt
    rw [toNat_shiftWord]
    omega

open Sys2Proof Sys2Proof.Machine in
/-- Settles O32, one lemma a law; only the low byte of the shift word matters to a block of one byte. -/
theorem blockAdderLaws : Obligations.BlockAdderLaws := by
  refine ⟨fun L d i shift h => ⟨?_, blockAdd_blockAdd_opposite h⟩, fun shift h => ?_,
    fun _ _ _ _ => blockAdd_of_mod_zero⟩
  · rw [pow_mul]
    exact blockAdd_lt L d i shift
  · have hone (i : Nat) : blockAdd 1 .encode i shift = blockAdd 1 .encode i 1 := blockAdd_congr h
    exact ⟨(hone 0x00).trans rfl, (hone 0xFF).trans rfl⟩
end

section
/-! PROOFS. The block-size mux, and the BLOCK step of a busy engine (R33, R84 to R87, R103 to R106, R110, R111). -/

namespace Sys2Proof.Machine

/-- No symbol outside '1' to '4' has a length (R103). -/
theorem blockLength_eq_none (sym : Byte) : blockLength sym = none ↔ ¬ (0x31 ≤ sym.toNat ∧ sym.toNat ≤ 0x34) := by
  rw [← blockLength_isSome, Bool.not_eq_true, Option.isSome_eq_false_iff, Option.isNone_iff_eq_none]

/-- A BLOCK step that meets a symbol without a length sets the mark alone (R103; log 8). -/
theorem blockStep_of_blockLength_none {s : State} (h : blockLength (s.byte .bkey s.eng.bp.toNat) = none) :
    blockStep s = s.markRefused := by
  rcases blockStep_cases s with ⟨L, hL, -⟩ | ⟨-, e⟩
  · exact (nomatch h.symm.trans hL)
  · exact e

/-- In the phase of a busy MV2 transform the cursors and the pointers are those of block E.p, which is one of the blocks
validation counted, and the block-size key is not empty (R33). -/
theorem State.EngineOk.mv2Run_reach {s : State} (h : s.EngineOk) (hp : s.eng.phase = .mv2Run) :
    s.bkLen ≠ 0 ∧ s.eng.p.toNat < s.eng.nblk.toNat ∧
    s.eng.kp.toNat = 4 * s.eng.p.toNat % s.skLen.toNat ∧ s.eng.bp.toNat = s.eng.p.toNat % s.bkLen.toNat := by
  obtain ⟨-, -, -, hphase⟩ := id h
  simp only [hp] at hphase
  obtain ⟨hop, hmode, -, -, hlt, -, hkp, hbp⟩ := hphase
  exact ⟨h.bkLen_ne_zero (.inr (by rw [hop]; rfl)) hmode, hlt, hkp, hbp⟩

end Sys2Proof.Machine

open Sys2Proof Sys2Proof.Machine in
/-- Settles O30: the four rows by evaluation, and the mux's two laws. -/
theorem blockSizeMux : Obligations.BlockSizeMux :=
  ⟨⟨rfl, rfl, rfl⟩, ⟨rfl, rfl, rfl⟩, ⟨rfl, rfl, rfl⟩, ⟨rfl, rfl, rfl⟩, fun _ _ => blockLength_some, blockLength_eq_none,
    fun _ hp hnone => (engineStep_mv2Run hp).trans (congrArg _ (blockStep_of_blockLength_none hnone))⟩

open Sys2Proof Sys2Proof.Machine in
/-- Settles O36: the invariant puts block E.p in reach, so the step writes that block shifted, and the wrap counters go
on counting modulo their lengths. -/
theorem blockStepShiftsOneBlock : Obligations.BlockStepShiftsOneBlock := by
  intro s hs hb hp
  have hok := hs.engine_ok hb
  obtain ⟨h0, hlt, hkp, hbp⟩ := hok.mv2Run_reach hp
  obtain ⟨hstep, hend, hM⟩ := hok.blockStep_eq hp
  obtain ⟨hbuf, hkp', hbp'⟩ := blockStepWith_pointers s (s.blockLengthAt s.eng.p.toNat) s.eng.p.toNat hM.sk_pos
    (word_ne_zero.1 h0) hkp hbp
  have hn := toNat_add_ofNat hend
  refine ⟨_, _, (s.blockLengthAt_spec hM.good h0 s.eng.p.toNat).1, (engineStep_mv2Run hp).trans (congrArg _ hstep), ?_,
    hend, hn, toNat_add_ofNat hlt, hbp', hkp', ?_, fun a ha => ?_⟩
  · rw [← hp, ← hn, ← State.phaseAfter_eq]
    exact blockStepWith_eq_moveEngine s _
  · rw [hbuf, Memory.readBE_writeBE, Nat.mod_eq_of_lt (blockAdd_lt ..)]
  · rw [State.byte, State.mem_buf, hbuf, Memory.read_writeBE_outside .buf s.buf _ _ _ ha]
    rfl
end

section
/-! PROOFS. The blocks of a schedule partition the bytes below its boundary (R112). -/

namespace Sys2Proof.Machine

/-- Offset `a` lies in block p of the schedule (R112). -/
def State.InBlock (s : State) (p a : Nat) : Prop := s.blockStart p ≤ a ∧ a < s.blockStart (p + 1)

section
variable {s : State} {p q k a : Nat}

/-- Below the boundary of block k every offset lies in one of the k blocks before it. -/
theorem State.exists_inBlock (h : a < s.blockStart k) : ∃ p, p < k ∧ s.InBlock p a := by
  induction k with
  | zero => exact absurd h (Nat.not_lt_zero a)
  | succ k ih =>
    rcases Nat.lt_or_ge a (s.blockStart k) with hlt | hge
    · obtain ⟨p, hp, hin⟩ := ih hlt
      exact ⟨p, Nat.lt_succ_of_lt hp, hin⟩
    · exact ⟨k, Nat.lt_succ_self k, hge, h⟩

/-- A block that holds an offset is no later than any other that does: the boundaries rise. -/
theorem State.InBlock.le (hp : s.InBlock p a) (hq : s.InBlock q a) : p ≤ q :=
  Nat.le_of_not_lt fun hlt =>
    absurd (Nat.lt_of_lt_of_le hq.2 (s.blockStart_mono hlt)) (Nat.not_lt.2 hp.1)

end

end Sys2Proof.Machine

open Sys2Proof Sys2Proof.Machine in
/-- Settles O23: the boundaries rise from 0 to SIZE, where the walk of validation ended. -/
theorem blocksPartitionTheBuffer : Obligations.BlocksPartitionTheBuffer := by
  intro s k h0 hv
  have htotal := (s.validate_mv2_ok rfl h0 hv).total
  refine ⟨fun a ha => ?_, fun p hp => htotal ▸ s.blockStart_mono hp⟩
  obtain ⟨p, hp, hin⟩ := State.exists_inBlock (htotal ▸ ha)
  exact ⟨p, hp, hin.1, hin.2, fun q _ hlow hhigh => Nat.le_antisymm
    (State.InBlock.le ⟨hlow, hhigh⟩ hin) (hin.le ⟨hlow, hhigh⟩)⟩
end

section
/-! PROOFS. The MV2 round trip, in both orders (R113). -/

namespace Sys2Proof.Machine

/-- The block is idle and left alone, in MV2 mode, and validation passes with k blocks (R64, R72). -/
structure State.Mv2Ready (s : State) (k : Nat) : Prop where
  ready : s.Ready
  bkLen_ne_zero : s.bkLen ≠ 0
  valid : s.validate .xform .mv2 = .ok k

/-- The value of block p in BUF (R42, R106). -/
def State.blockValue (s : State) (p : Nat) : Nat := Memory.readBE .buf s.buf (s.blockStart p) (s.blockLengthAt p)

section
variable {s t : State} {p k : Nat}

theorem State.blockValue_lt (s : State) (p : Nat) : s.blockValue p < 2 ^ (8 * s.blockLengthAt p) := by
  rw [pow_mul]
  exact Memory.readBE_lt ..

/-- A buffer in which every block of a valid partition has its value again, and every byte past SIZE, has every byte
again (R112). -/
theorem State.byte_buf_eq_of_blockValue (hM : s.Mv2Valid k) (hbkLen : t.bkLen = s.bkLen) (hbkey : t.bkey = s.bkey)
    (hblocks : ∀ p, p < k → t.blockValue p = s.blockValue p)
    (hrest : ∀ a, s.size.toNat ≤ a → t.byte .buf a = s.byte .buf a) (a : Nat) : t.byte .buf a = s.byte .buf a := by
  rcases Nat.lt_or_ge a s.size.toNat with ha | ha
  · obtain ⟨p, hp, hlow, hhigh⟩ := State.exists_inBlock (hM.total ▸ ha)
    have hblock := hblocks p hp
    rw [State.blockValue, State.blockStart_congr hbkLen hbkey, State.blockLengthAt_congr hbkLen hbkey] at hblock
    exact Memory.read_of_readBE .buf hblock a hlow hhigh
  · exact hrest a ha

/-- A transform in MV2 mode leaves the block ready for another with the same keys and SIZE, the value of each block
having gone through the adder, and every byte past SIZE as it was (R72, R107, R111). -/
theorem State.Mv2Ready.xform (hs : s.Mv2Ready k) (d : Dir) :
    ∃ t u, exec (xformOf d) s = .next t ∧ t.status.busy = true ∧ steps (2 + k) t = .next u ∧
      u.Mv2Ready k ∧ s.Untouched u ∧ (∀ a, s.size.toNat ≤ a → u.byte .buf a = s.byte .buf a) ∧
      ∀ p, p < k → u.blockValue p = blockAdd (s.blockLengthAt p) d (s.blockValue p) (s.shiftWordAt p) := by
  obtain ⟨t, u, hexec, hbusy, hsteps, hstatus, -, -, hkept, -, -, -, -, hrest, hblocks⟩ :=
    mv2TransformCompletes s d k hs.ready hs.bkLen_ne_zero hs.valid
  obtain ⟨hparams, -, hsize, hskLen, hbkLen, -, hbkey, -, -, hinputs, -, -⟩ := id hkept
  refine ⟨t, u, hexec, hbusy, hsteps, ⟨⟨by rw [hstatus], hinputs.trans hs.ready.2⟩, hbkLen ▸ hs.bkLen_ne_zero,
    (State.validate_congr ⟨hparams, hsize, hskLen, hbkLen, hbkey⟩ ..).trans hs.valid⟩, hkept, hrest, fun p hp => ?_⟩
  rw [eq_blockAdd_iff, State.blockValue, State.blockStart_congr hbkLen hbkey, State.blockLengthAt_congr hbkLen hbkey]
  exact (hblocks p hp).2

end

end Sys2Proof.Machine

open Sys2Proof Sys2Proof.Machine in
/-- Settles O58: the keys and lengths are kept, so the second transform takes from each block the shift the first gave
it, and the blocks are the whole buffer. -/
theorem mv2RoundTrip : Obligations.Mv2RoundTrip := by
  intro s d k hready h0 hv
  have hs : s.Mv2Ready k := ⟨hready, h0, hv⟩
  obtain ⟨t₁, u₁, he₁, hb₁, hs₁, hready₁, hkept₁, hrest₁, hblocks₁⟩ := hs.xform d
  obtain ⟨t₂, u₂, he₂, hb₂, hs₂, hready₂, hkept₂, hrest₂, hblocks₂⟩ := hready₁.xform d.opposite
  obtain ⟨-, -, hsize₁, hskLen₁, hbkLen₁, hskey₁, hbkey₁, -⟩ := hkept₁
  obtain ⟨-, -, -, -, hbkLen₂, -, hbkey₂, -⟩ := hkept₂
  rw [hsize₁] at hrest₂
  refine ⟨t₁, u₁, t₂, u₂, he₁, hs₁, he₂, hs₂, hb₁, hready₁.ready.1, hb₂, hready₂.ready.1,
    State.byte_buf_eq_of_blockValue (s.validate_mv2_ok rfl h0 hv) (hbkLen₂.trans hbkLen₁) (hbkey₂.trans hbkey₁)
      (fun p hp => ?_) fun a ha => (hrest₂ a ha).trans (hrest₁ a ha)⟩
  rw [hblocks₂ p hp, State.blockLengthAt_congr hbkLen₁ hbkey₁, State.shiftWordAt_congr hskLen₁ hskey₁, hblocks₁ p hp]
  exact blockAdd_blockAdd_opposite (s.blockValue_lt p)
end

section
/-! PROOFS. The reset event and the state right after it (R128 to R131). -/

namespace Sys2Proof.Machine

/-- A scheduled reset is the step, with the event taken (R11). -/
theorem step_reset {s : State} {es : List Event} (h : s.inputs = .reset :: es) :
    step s = .next (resetEvent (s.withInputs es)) := by
  simp [step, h]

/-- STATUS reads 0 after reset (R129). -/
theorem Status.word_reset : Status.reset.word = 0 := by decide

/-- Power-on meets the invariant with any parameters R6 allows: an idle block with no byte written. -/
theorem State.inv_powerOn {p : Params} (hp : p.wf) : (State.powerOn p).Inv :=
  (State.inv_iff_of_idle rfl).2
    ⟨⟨hp, fun sp => by cases sp <;> exact Memory.fits_nil _⟩, Status.ok_of_clear rfl rfl, rfl⟩

/-! ### The buffer bytes a reset draws (R130, R131) -/

/-- A reset draws no byte while idle, nor while a command that writes no buffer byte is busy (R130, R131). -/
theorem State.abandonedBytes_eq_zero {s : State}
    (h : s.status.busy = false ∨ (s.eng.op ≠ .xform ∧ s.eng.op ≠ .norm)) : s.abandonedBytes = 0 := by
  refine if_neg ?_
  rintro ⟨hb, hop⟩
  rcases h with hidle | ⟨hx, hn⟩
  · exact nomatch hb.symm.trans hidle
  · exact hop.elim hx hn

/-- A reset draws the bytes below SIZE that the memory has while XFORM or NORM is busy (R131). -/
theorem State.abandonedBytes_eq_min {s : State} (hb : s.status.busy = true)
    (hop : s.eng.op = .xform ∨ s.eng.op = .norm) : s.abandonedBytes = min s.size.toNat s.params.bufMax :=
  if_pos ⟨hb, hop⟩

end Sys2Proof.Machine

open Sys2Proof.Machine in
/-- Settles O51: the step is `resetEvent`, which sets each register to its reset value. -/
theorem resetValues : Obligations.ResetValues := fun _ _ hi =>
  ⟨_, step_reset hi, rfl, Status.word_reset, rfl, rfl, rfl, rfl, rfl, rfl, rfl, rfl, rfl, rfl, rfl, rfl, rfl,
    Status.word_reset, rfl⟩

open Sys2Proof Sys2Proof.Machine in
/-- Settles O53: `State.reset` is the power-on state of the smallest parameters, which R6 allows. -/
theorem resetMeetsInvariant : Obligations.ResetMeetsInvariant :=
  ⟨fun _ hp => ⟨State.inv_powerOn hp, rfl⟩, State.inv_powerOn (p := Config.smallest) (by decide), rfl⟩

open Sys2Proof.Machine in
/-- Settles O52: the reset redraws the first `State.abandonedBytes` bytes of BUF, which are none or the bytes below SIZE
that the memory has, and takes as many draws. -/
theorem resetAndTheBuffer : Obligations.ResetAndTheBuffer := by
  intro s es hi
  refine ⟨_, step_reset hi, fun hkept => ?_, fun hb hop => ?_⟩
  · have hzero : (s.withInputs es).abandonedBytes = 0 := State.abandonedBytes_eq_zero hkept
    exact ⟨by simp [hzero], congrArg (s.draws + ·) hzero⟩
  · have hmin : (s.withInputs es).abandonedBytes = min s.size.toNat s.params.bufMax :=
      State.abandonedBytes_eq_min hb hop
    refine ⟨fun a hsize hmax => ?_, fun a ha => ?_⟩
    · have hlt : a < (s.withInputs es).abandonedBytes := hmin ▸ Nat.lt_min.2 ⟨hsize, hmax⟩
      exact ⟨Memory.read_redraw_below .buf s.buf s.draws hlt, Nat.add_lt_add_left hlt s.draws⟩
    · exact Memory.read_redraw_above .buf s.buf s.draws (hmin ▸ (Nat.min_le_left ..).trans ha)
end

section
/-! PROOFS. Each command straight after reset (R132). -/

namespace Sys2Proof.Machine

/-- What reset leaves of the registers a command reads (R129), with no event left. -/
structure State.FreshlyReset (r : State) : Prop where
  status : r.status = Status.reset
  size   : r.size = 0
  skLen  : r.skLen = 0
  bkLen  : r.bkLen = 0
  inputs : r.inputs = []

theorem State.freshlyReset_powerOn (p : Params) : (State.powerOn p).FreshlyReset := ⟨rfl, rfl, rfl, rfl, rfl⟩

theorem State.freshlyReset_resetEvent {s : State} (h : s.inputs = []) : (resetEvent s).FreshlyReset :=
  ⟨rfl, rfl, rfl, rfl, h⟩

section
variable {r : State} (h : r.FreshlyReset)
include h

theorem State.FreshlyReset.ready : r.Ready := ⟨congrArg Status.busy h.status, h.inputs⟩

theorem State.FreshlyReset.size_le : r.size.toNat ≤ r.params.bufMax := by simp [h.size]

/-- Every length is in range and the shift key is empty, so validation stops at R66's check. -/
theorem State.FreshlyReset.validate_xform (m : Mode) : r.validate .xform m = .err .skEmpty 0 :=
  State.validate_of_skLen_zero rfl ((r.lengthMask_eq_zero rfl).2 ⟨h.size_le, by simp [h.skLen], by simp [h.bkLen]⟩)
    h.skLen

end

end Sys2Proof.Machine

open Sys2Proof Sys2Proof.Machine in
/-- Settles O17: a command straight after reset is a command of a ready state with every length 0, whose completion is
known: a failed validation, NOP's, NORM's over no byte, or an illegal word's. -/
theorem commandsStraightAfterReset : Obligations.CommandsStraightAfterReset := by
  intro r hr
  have h : r.FreshlyReset := by
    rcases hr with ⟨p, rfl⟩ | ⟨s, hi, rfl⟩
    · exact State.freshlyReset_powerOn p
    · exact State.freshlyReset_resetEvent hi
  refine ⟨fun i hin => ?_, ?_, ?_, fun w hw => ?_⟩
  · obtain ⟨t, u, hexec, -, hsteps, hstatus, -, hinfo, -⟩ :=
      failedValidationLeavesMemoriesUnchanged r i .skEmpty 0 h.ready (.inl ⟨hin, h.validate_xform _⟩)
    refine ⟨t, u, hexec, hsteps, ?_, hinfo⟩
    rw [hstatus, State.derivedMode_of_zero h.bkLen, ite_self, h.status]
    rfl
  · obtain ⟨t, u, hexec, -, hsteps, rfl, -⟩ := nopCompletes r h.ready
    exact ⟨t, _, hexec, hsteps, by simp only [h.status]; rfl⟩
  · obtain ⟨t, u, hexec, -, hsteps, hstatus, -⟩ := normCompletes r h.ready h.size_le
    rw [h.size] at hsteps
    exact ⟨t, u, hexec, hsteps, by rw [hstatus, h.status]; rfl⟩
  · obtain ⟨t, u, hcmd, -, hsteps, rfl, -⟩ := illegalWordCompletes r w h.ready hw
    exact ⟨t, _, hcmd, hsteps, by simp only [h.status]; rfl, rfl⟩
end

section
/-! PROOFS. The host's accesses while busy (R17, R46, R133). -/

namespace Sys2Proof.Machine

section
variable {s : State} (hb : s.status.busy = true)
include hb

/-- A WRITE of CMD or of a length to a busy block is answered OKAY and dropped (R17, R21). -/
theorem hostStep_write_dropped {r : Reg} (hr : r = .cmd ∨ r = .size ∨ r = .skLen ∨ r = .bkLen) (w : Word) :
    hostStep (.write (regAddress r) w) s = .next (s.respond .writeOkay).dropWrite := by
  rcases hr with rfl | rfl | rfl | rfl
  · exact (hostStep_write_cmd w s).trans (writeCmd_busy (s := s.respond .writeOkay) hb w)
  all_goals exact (hostStep_write_reg (by decide) w s).trans (congrArg _ (if_pos hb))

/-- A byte stored to a busy block is dropped (R46). -/
theorem State.storeByte_busy (sp : Space) (i : Nat) (d : Word) : s.storeByte sp i d = s.dropWrite := if_pos hb

end

end Sys2Proof.Machine

open Sys2Proof Sys2Proof.Machine in
/-- Settles O46, row by row: the writes that BUSY drops; the writes of CTRL, STATUS and the read-only registers, the
register reads and the addresses that get BUSERR, where BUSY plays no part; and the memory reads, which draw. -/
theorem hostAccessWhileBusy : Obligations.HostAccessWhileBusy := by
  intro s w hb
  refine ⟨fun r hr => hostStep_write_dropped hb hr w,
    fun sp i hp hi =>
      (hostStep_write_mem hp hi w).trans (congrArg _ (State.storeByte_busy (s := s.respond .writeOkay) hb sp i w)),
    hostStep_write_reg (r := .ctrl) (by decide) w s, statusWriteOneToClear s w,
    fun r hr => hostStep_write_readOnly (by simpa [readOnlyRegs] using hr) w s, fun r => hostStep_read_reg r s,
    fun sp i hp hi => ?_, fun a ha => hostStep_busErr ha w⟩
  obtain ⟨v, hv, hread⟩ := memoryReadWhileBusyIsADraw s sp i hp hb hi
  exact ⟨v, _, hv.trans_lt (Config.drawByte s.draws).isLt, hread⟩
end

section
/-! PROOFS. HAZ is sticky (R22, R134). -/

namespace Sys2Proof.Machine

/-- A write to STATUS keeps HAZ but where its bit 8 is 1 (R22). -/
theorem Status.haz_writeOneToClear {st : Status} (hz : st.haz = true) (w : Word) :
    (st.writeOneToClear w).haz = true ∨ w.getLsbD 8 = true := by
  cases hw : w.getLsbD 8 with
  | true => exact .inr rfl
  | false => exact .inl (by simp only [Status.writeOneToClear, hz, hw, Bool.not_false, Bool.and_self])

/-- A write to CMD never clears HAZ: acceptance keeps it, a dropped write sets it (R61, R134). -/
theorem haz_of_writeCmd {s t : State} {w : Word} (hz : s.status.haz = true) (h : writeCmd w s = .next t) :
    t.status.haz = true := by
  rcases writeCmd_cases w s with ⟨-, hw⟩ | ⟨-, i, -, hw, hi⟩ | ⟨-, why, -, -, hw⟩
  · cases h.symm.trans hw
    rfl
  · cases h.symm.trans (hw.trans hi)
    exact hz
  · cases h.symm.trans hw
    exact hz

/-- The one host WRITE that can clear HAZ is to STATUS with bit 8 set (R17, R22, R134). -/
theorem haz_of_hostWrite {s t : State} {a d : Word} (hz : s.status.haz = true) (h : hostWrite a d s = .next t) :
    t.status.haz = true ∨ (a = regAddress .status ∧ d.getLsbD 8 = true) := by
  have hstatus (ha : decodeAddress s.params a = .reg .status) :
      (s.status.writeOneToClear d).haz = true ∨ (a = regAddress .status ∧ d.getLsbD 8 = true) :=
    (Status.haz_writeOneToClear hz d).imp_right fun hd => ⟨decodeAddress_reg ha, hd⟩
  cases hb : s.status.busy with
  | true =>
    obtain ⟨r, ⟨rfl, -⟩ | ⟨rfl, ha⟩ | rfl | rfl⟩ := hostWrite_busy hb h
    · exact .inl hz
    · exact hstatus ha
    · exact .inl rfl
    · exact .inl hz
  | false =>
    obtain ⟨r, ⟨-, hcmd⟩ | rfl | ⟨rfl, ha⟩ | rfl | rfl | rfl | rfl | ⟨sp, i, -, rfl⟩⟩ := hostWrite_idle hb h
    case inl => exact .inl (haz_of_writeCmd (s := s.respond r) hz hcmd)
    case inr.inr.inl => exact hstatus ha
    case inr.inr.inr.inr.inr.inr.inr => exact .inl ((congrArg Status.haz (State.setMem_status ..)).trans hz)
    all_goals exact .inl hz

/-- The one host transaction that can clear HAZ is a write to STATUS with bit 8 set (R44, R134). -/
theorem haz_of_hostStep {s t : State} {x : HostTxn} (hz : s.status.haz = true) (h : hostStep x s = .next t) :
    t.status.haz = true ∨ ∃ w, x = .write (regAddress .status) w ∧ w.getLsbD 8 = true := by
  cases x with
  | read a =>
    cases h
    obtain ⟨r, n, e, -⟩ := hostRead_cases a s
    exact .inl (e ▸ hz)
  | write a d => exact (haz_of_hostWrite hz h).imp_right fun ⟨ha, hd⟩ => ⟨d, ha ▸ rfl, hd⟩

end Sys2Proof.Machine

open Sys2Proof.Machine in
/-- Settles O48, by the kind of the step: the engine and a wait keep HAZ, a host transaction clears it at STATUS alone,
and a reset is the other event the statement names. -/
theorem hazIsSticky : Obligations.HazIsSticky := by
  intro s t h hz hclear
  have hkept : t.status.haz ≠ true := by simp [hclear]
  rcases step_cases h with ⟨-, -, he⟩ | ⟨-, -, rfl⟩ | ⟨x, es, hi, hh⟩ | ⟨es, hi, -⟩
  · exact absurd ((engineStep_frame he).haz.trans hz) hkept
  · exact absurd hz hkept
  · obtain ⟨w, rfl, hw⟩ := (haz_of_hostStep (s := s.withInputs es) hz hh).resolve_left hkept
    exact .inr ⟨w, es, hi, hw⟩
  · exact .inl ⟨es, hi⟩
end
